-- ==== Sys2Proof/Word.lean ====
section
/-! DEFINITION. The two word types of the block: a byte (R10) and a 64-bit unsigned number (R6, R9). -/

namespace Sys2Proof

/-- A byte of a buffer, a symbol, a command (R10: "A byte is 8 bits"). -/
abbrev Byte := BitVec 8

/-- A 64-bit unsigned number: a limb, `OP64`, `ACC`, `CARRY`, `T`, `Y` (R6, R32, R33). -/
abbrev Word := BitVec 64

end Sys2Proof
end

