-- ==== Sys2Proof/Config.lean ====
section
/-! DEFINITION. The constants R6 of `00_scope.md` fixes. The capacities R7 leaves open are taken as
unbounded, which R7 allows (assumption log 5), so they are no constants here. The manual leaves no result
undefined, so there is no free value. -/

namespace Sys2Proof.Config

/-- The limb base `B = 10^17` of both arbitrary-precision paths (R6). -/
abbrev limbBase : Nat := 100000000000000000

/-- `B = 10^17` as a 64-bit number. -/
abbrev limbBaseWord : Word := 100000000000000000#64

/-- The radix as a 64-bit number (R6). -/
abbrev radixWord : Word := 58#64

/-- Decimal digits of a full chunk (R6). -/
abbrev chunkDigits : Nat := 17

/-- The longest `ENC` remainder the fixed-width path takes (R6, R213). -/
abbrev encFixedMax : Nat := 19

/-- The longest `DEC` remainder the fixed-width path takes (R6, R213). -/
abbrev decFixedMax : Nat := 10

end Sys2Proof.Config
end

