-- ==== Sys2Proof/Syntax.lean ====
section
/-! DEFINITION. The six operations of the opcode table (R82), and the command word's fields (R81). -/

namespace Sys2Proof

/-- What the two `PRESET` bits of `ALPHASEL` name (R83). -/
inductive Preset where
  | flickr
  | ripple
  | bitcoin
  /-- `0b11`: "any other name". -/
  | other
  deriving DecidableEq, Repr

/-- The operations of `spec/opcode_table.json` (R82). Operands other than `PRESET` are in registers and buffers
(R86), not in the command. -/
inductive Instr where
  | enc
  | dec
  | encu64
  | decu64
  | alphasel (p : Preset)
  | alphaload
  deriving DecidableEq, Repr

/-- The fields of a command byte, format `C` (R81). -/
structure CommandFields where
  rsv : BitVec 3
  preset : BitVec 2
  op : BitVec 3
  deriving DecidableEq, Repr

/-- Why a command byte is no operation: the three cases of R84. -/
inductive Reserved where
  /-- `RSV != 0`. -/
  | rsvBits
  /-- `OP` is `0b110` or `0b111`. -/
  | opCode
  /-- `PRESET != 0` with an `OP` other than `ALPHASEL`. -/
  | presetBits
  deriving DecidableEq, Repr

end Sys2Proof
end

