-- ==== Sys2Proof/WellFormed.lean ====
section
/-! DEFINITION. The checks on a raw command word (R84) and on 58 candidate symbols (R22, R113). Every term of
`Instr` is itself well formed: its one operand has exactly the four values `PRESET` has. -/

namespace Sys2Proof

/-- `RSV` must be `0b000` (R81). -/
def CommandFields.rsvOk (c : CommandFields) : Bool := c.rsv == 0#3

/-- `OP` must be one of the six operation codes (R82). -/
def CommandFields.opOk (c : CommandFields) : Bool := c.op.toNat ≤ 5

/-- `PRESET` must be `0b00` unless `OP` is `ALPHASEL` (R81). -/
def CommandFields.presetOk (c : CommandFields) : Bool := c.op == 4#3 || c.preset == 0#2

/-- A command word that names an operation: none of the three cases of R84. -/
def CommandFields.wellFormed (c : CommandFields) : Bool := c.rsvOk && c.opOk && c.presetOk

/-- An instruction is well formed whatever its operand: `Preset` has one value per `PRESET` code (R83). -/
def Instr.wellFormed : Instr → Bool
  | .enc | .dec | .encu64 | .decu64 | .alphasel _ | .alphaload => true

/-- 58 candidate symbols make an alphabet: the count is 58 and no two are equal (R22, R113). -/
def alphabetWellFormed (symbols : List Byte) : Bool :=
  symbols.length == 58 && decide symbols.Nodup

end Sys2Proof
end

