-- ==== Sys2Proof/Decode.lean ====
section
/-! DEFINITION. The command decoder, total on every byte and rejecting by name (R81 to R84), and the encoder
written from the same tables. -/

namespace Sys2Proof

/-- The fields of a command byte (R81): `RSV` 7:5, `PRESET` 4:3, `OP` 2:0. -/
def commandFields (w : Byte) : CommandFields :=
  { rsv := w.extractLsb' 5 3, preset := w.extractLsb' 3 2, op := w.extractLsb' 0 3 }

/-- The `PRESET` codes of R83. -/
def presetOf (p : BitVec 2) : Preset :=
  if p = 0#2 then .flickr else if p = 1#2 then .ripple else if p = 2#2 then .bitcoin else .other

/-- The operation a command byte names (R82, R83), or which case of R84 makes it reserved. -/
def decode (w : Byte) : Except Reserved Instr :=
  let c := commandFields w
  if !c.rsvOk then .error .rsvBits
  else if !c.opOk then .error .opCode
  else if !c.presetOk then .error .presetBits
  else if c.op = 0#3 then .ok .enc
  else if c.op = 1#3 then .ok .dec
  else if c.op = 2#3 then .ok .encu64
  else if c.op = 3#3 then .ok .decu64
  else if c.op = 4#3 then .ok (.alphasel (presetOf c.preset))
  else .ok .alphaload

/-- The `PRESET` code of R83. -/
def Preset.code : Preset → BitVec 2
  | .flickr => 0b00#2
  | .ripple => 0b01#2
  | .bitcoin => 0b10#2
  | .other => 0b11#2

/-- The `OP` code of R82. -/
def Instr.opCode : Instr → BitVec 3
  | .enc => 0b000#3
  | .dec => 0b001#3
  | .encu64 => 0b010#3
  | .decu64 => 0b011#3
  | .alphasel _ => 0b100#3
  | .alphaload => 0b101#3

/-- The `PRESET` field of an operation: `0b00` for every operation but `ALPHASEL` (R81). -/
def Instr.presetField : Instr → BitVec 2
  | .alphasel p => p.code
  | .enc | .dec | .encu64 | .decu64 | .alphaload => 0b00#2

/-- The command byte of an operation: `0b000 ++ PRESET ++ OP` (R81). -/
def encode (i : Instr) : Byte := 0b000#3 ++ i.presetField ++ i.opCode

/-- The low `nbits` bits of `w` as the command byte the host writes: a command is one byte, so bits above
bit 7 name no command byte and are not part of it (R80). -/
def commandByte (nbits w : Nat) : Byte := BitVec.ofNat 8 (w % 2 ^ nbits)

/-- The instruction the decoder reads from the table's numbering of a command (R80: one byte, bit 0 the least
significant). -/
def decodeTableWord (nbits w : Nat) : Option Instr :=
  match decode (commandByte nbits w) with
  | .ok i => some i
  | .error _ => none

end Sys2Proof
end

