-- ==== Sys2Proof/Machine/State.lean ====
section
/-! DEFINITION. The state of the block as plain data (`10_state.md`), the reasons a step can stop, and the state
after reset (R38). -/

namespace Sys2Proof.Machine

/-- The sequencer phase (R31). -/
inductive Phase where
  | idle
  | lzscan
  | dispatch
  | fixed
  | chunk
  | trim
  | sweep
  | emit
  | reverse
  | render
  | cfg
  deriving DecidableEq, Repr

/-- The error kind held in `STATUS.ERR` (R27, R250); the codes 4 to 7 never occur, so they are no values here
(assumption log 14). -/
inductive ErrKind where
  | none
  | invalidDigit
  | invalidSymbol
  | configError
  deriving DecidableEq, Repr

/-- What a `raise` carries (R12, R250 to R254). -/
inductive CodecError where
  /-- The offending segment, by its start and length in `IN` (R251). -/
  | invalidDigit (off len : Nat)
  /-- The offending byte and its index in `IN` (R252). -/
  | invalidSymbol (b : Byte) (off : Nat)
  /-- `ConfigError` cause 1 (R253). -/
  | unknownName
  /-- `ConfigError` cause 2, with `IN_LEN` (R253). -/
  | wrongCount (n : Nat)
  /-- `ConfigError` cause 3, with the repeated byte and the index of its second occurrence (R253). -/
  | duplicate (b : Byte) (off : Nat)
  /-- `ConfigError` cause 4 (R254). -/
  | noAlphabet
  deriving DecidableEq, Repr

/-- Why an operation's pseudocode ends early. -/
inductive Stop where
  /-- A `raise` of the pseudocode (R12): the operation ends with an error result. -/
  | raise (e : CodecError)
  /-- A byte of `IN` that holds no value was read (U2, U15): the model faults. -/
  | noValue
  deriving DecidableEq, Repr

/-- A byte buffer: (index, byte) pairs, indices strictly rising; an index that is not listed holds no value
(R34, R35, assumption log 4). -/
abbrev Memory := List Host.Cell

/-- The scratch registers and the limb file (R32, R33). -/
structure Scratch where
  acc : Word
  carry : Word
  t : Word
  y : Word
  zc : Nat
  m : Nat
  nl : Nat
  /-- 5 bits (R32), the one length register whose width does not depend on `LENW`. -/
  flen : BitVec 5
  head : Nat
  i : Nat
  j : Nat
  k : Nat
  /-- The result of a `REV` lookup: a value `0..57`, or `ABSENT` as none. -/
  v : Option (Fin 58)
  /-- `LIMB[0..NL)`: the entries that hold a value (R33). -/
  limb : List Word
  deriving DecidableEq, Repr

/-- What the host does to the block (R20, R25, R50, R283). Registers are accessed whole (R54, D26). -/
inductive HostEvent where
  /-- Read the host register with this index (R25). -/
  | readReg (index : Nat)
  /-- Write the host register with this index (R25). -/
  | writeReg (index value : Nat)
  /-- Read `IN[i]` (R34: the original bytes are still there for the host to read), also at or beyond `IN_LEN`
  (assumption log 22). -/
  | readIn (i : Nat)
  /-- Write `IN[i]` (R34). -/
  | writeIn (i : Nat) (b : Byte)
  /-- Read `OUT[i]` (R35). -/
  | readOut (i : Nat)
  /-- Wait until `STATUS.DONE = 1` (R101, R283): the engine runs. -/
  | waitDone
  /-- Reset (R280). -/
  | reset
  deriving DecidableEq, Repr

/-- Everything the spec gives the block (`10_state.md`), and the host's accesses still to come. -/
structure State where
  /-- `ALPHA[0..57]` (R22). -/
  alpha : Vector Byte 58
  /-- `REV[0..255]`, `ABSENT` as none (R23). -/
  rev : Vector (Option (Fin 58)) 256
  /-- `ALPHA_VALID`, also `STATUS[2]` (R24). -/
  alphaValid : Bool
  /-- The command byte of the operation now running; none when idle (R26, R27). `CMD` itself reads as 0. -/
  cmd : Option Byte
  /-- `STATUS.DONE` (R27). -/
  done : Bool
  /-- `STATUS.ERR` (R27). -/
  err : ErrKind
  /-- `IN_LEN` (R28). -/
  inLen : Nat
  /-- `OUT_LEN` (R28). -/
  outLen : Nat
  /-- `OP64` (R29). -/
  op64 : Word
  /-- `ERR_BYTE` (R30). -/
  errByte : Byte
  /-- `ERR_OFF` (R30). -/
  errOff : Nat
  /-- `ERR_LEN` (R30). -/
  errLen : Nat
  /-- `ERR_DETAIL` (R30, R91). -/
  errDetail : Byte
  /-- `PHASE` (R31). -/
  phase : Phase
  /-- Scratch registers and limbs (R32, R33). -/
  scratch : Scratch
  /-- `IN` (R34). -/
  inMem : Memory
  /-- `OUT` (R35). -/
  outMem : Memory
  /-- The model's own: the host accesses still to come, oldest first (assumption log 6). -/
  host : List HostEvent
  /-- The model's own: what the host port returned for the last host read (assumption log 8). -/
  readData : Nat
  deriving DecidableEq, Repr

/-- Where the model stops because a value that does not exist was read. -/
inductive Fault where
  /-- Raised by `ENC`, `DEC`, `DECU64`, `ALPHALOAD` and by a host read of `IN`, when the byte of `IN` that is read
  holds no value (U2, U15). Safe: the model stops. -/
  | inNoValue
  /-- Raised by a host read of `OUT` at an index whose byte holds no value (U2, R35). Safe: the model stops. -/
  | outNoValue
  deriving DecidableEq, Repr

/-- Where the model gives no next state. -/
inductive Refusal where
  /-- Raised by `exec` alone, for an instruction that has no meaning yet. Safe. -/
  | notModelled (mnemonic : String)
  /-- Raised by a host write of `CMD` with a reserved encoding, and by the engine if one is latched (R84, U1).
  Safe: the machine refuses. -/
  | reservedCommand (why : Reserved)
  /-- Raised by a host access that R60 forbids while `STATUS.BUSY = 1` (U7). Safe. -/
  | accessWhileBusy
  /-- Raised by a host access to a register index above 8 (R25, U8). Safe. -/
  | noSuchRegister
  /-- Raised by a host write to `OUT_LEN` or an `ERR_*` register (R25, U8). Safe. -/
  | readOnlyRegister
  /-- Raised by a host write of a value wider than the register (assumption log 8). Safe. -/
  | valueTooWide
  deriving DecidableEq, Repr

/-- The scratch registers before any write: no value in the spec; the named values of assumption log 3. -/
def Scratch.reset : Scratch :=
  { acc := 0#64, carry := 0#64, t := 0#64, y := 0#64, zc := 0, m := 0, nl := 0, flen := 0#5, head := 0, i := 0, j := 0, k := 0,
    v := none, limb := [] }

/-- The state right after reset (R38, R280). `ALPHA`, `REV`, `OP64` and the scratch registers have no value in the
spec; they hold the named values of assumption log 1 to 3. -/
def State.reset : State :=
  { alpha := Vector.replicate 58 0#8, rev := Vector.replicate 256 none, alphaValid := false, cmd := none, done := false,
    err := .none, inLen := 0, outLen := 0, op64 := 0#64, errByte := 0#8, errOff := 0, errLen := 0, errDetail := 0#8,
    phase := .idle, scratch := Scratch.reset, inMem := [], outMem := [], host := [], readData := 0 }

end Sys2Proof.Machine
end

