-- ==== Sys2Proof/Machine/Flags.lean ====
section
/-! DEFINITION. `STATUS`, its flags, and the error codes: every flag computation of the spec (R27, R31, R91,
R250 to R254). No arithmetic condition flags exist (R230). -/

namespace Sys2Proof.Machine

/-- The `STATUS.ERR` code of an error kind (R91). -/
def ErrKind.code : ErrKind → BitVec 3
  | .none => 0#3
  | .invalidDigit => 1#3
  | .invalidSymbol => 2#3
  | .configError => 3#3

/-- The error kind of an error (R250). -/
def CodecError.kind : CodecError → ErrKind
  | .invalidDigit _ _ => .invalidDigit
  | .invalidSymbol _ _ => .invalidSymbol
  | .unknownName | .wrongCount _ | .duplicate _ _ | .noAlphabet => .configError

/-- `ERR_DETAIL` (R91): 0 unless the kind is `ConfigError`. -/
def CodecError.detail : CodecError → Byte
  | .invalidDigit _ _ | .invalidSymbol _ _ => 0#8
  | .unknownName => 1#8
  | .wrongCount _ => 2#8
  | .duplicate _ _ => 3#8
  | .noAlphabet => 4#8

/-- `ERR_BYTE` (R251 to R254). -/
def CodecError.byte : CodecError → Byte
  | .invalidSymbol b _ | .duplicate b _ => b
  | .invalidDigit _ _ | .unknownName | .wrongCount _ | .noAlphabet => 0#8

/-- `ERR_OFF` (R251 to R254). -/
def CodecError.off : CodecError → Nat
  | .invalidDigit off _ | .invalidSymbol _ off | .duplicate _ off => off
  | .unknownName | .wrongCount _ | .noAlphabet => 0

/-- `ERR_LEN` (R251 to R254). -/
def CodecError.len : CodecError → Nat
  | .invalidDigit _ len => len
  | .invalidSymbol _ _ | .duplicate _ _ => 1
  | .wrongCount n => n
  | .unknownName | .noAlphabet => 0

/-- `STATUS.BUSY = (PHASE != IDLE)` (R31). -/
def State.busy (s : State) : Bool := s.phase != .idle

/-- The `STATUS` register (R27): reserved 7:6, `ERR` 5:3, `ALPHA_VALID` 2, `DONE` 1, `BUSY` 0. -/
def State.status (s : State) : Byte :=
  0#2 ++ s.err.code ++ BitVec.ofBool s.alphaValid ++ BitVec.ofBool s.done ++ BitVec.ofBool s.busy

end Sys2Proof.Machine
end

