-- ==== Sys2Proof/Machine/Ops.lean ====
section
/-! DEFINITION. The named operations over buffers, tables and registers, the start and the end of an operation
(R86), and taking an error (R255). -/

namespace Sys2Proof.Machine

/-! ### Byte buffers (R34, R35, R54) -/

/-- The canonical form of a buffer: indices strictly rising. An unlisted index holds no value, so no listed byte
equals what an unlisted index reads as. -/
abbrev Memory.wf (m : Memory) : Prop := (m.map Prod.fst).Pairwise (· < ·)

/-- Read one byte; none when the byte holds no value (R37). -/
def Memory.read : Memory → Nat → Option Byte
  | [], _ => none
  | (k, v) :: rest, a => if k = a then some v else Memory.read rest a

/-- Write one byte, keeping the indices strictly rising. -/
def Memory.write : Memory → Nat → Byte → Memory
  | [], a, b => [(a, b)]
  | (k, v) :: rest, a, b =>
    if a < k then (a, b) :: (k, v) :: rest
    else if a = k then (a, b) :: rest
    else (k, v) :: Memory.write rest a b

/-- Write bytes at consecutive indices, lowest index first. -/
def Memory.store (m : Memory) (a : Nat) : List Byte → Memory
  | [] => m
  | b :: bs => Memory.store (Memory.write m a b) (a + 1) bs

/-- Bytes `0 .. n-1` of a buffer, each none where it holds no value. -/
def Memory.firstBytes (m : Memory) (n : Nat) : List (Option Byte) := (List.range n).map m.read

/-- The operand `IN[0..IN_LEN)` (R34). -/
def State.operand (s : State) : List (Option Byte) := s.inMem.firstBytes s.inLen

/-- The result `OUT[0..OUT_LEN)` (R35). -/
def State.output (s : State) : List (Option Byte) := s.outMem.firstBytes s.outLen

/-- `emit` for each byte in turn (R57): append at `OUT_LEN`, which grows by one a byte. -/
def State.emitAll (bs : List Byte) (s : State) : State :=
  { s with outMem := s.outMem.store s.outLen bs, outLen := s.outLen + bs.length }

/-! ### The alphabet tables (R110, R111, R114) -/

/-- `symbol_at(v)`: `ALPHA[v]` (R111). -/
def State.symbolAt (s : State) (v : Fin 58) : Byte := s.alpha[v]

/-- `value_of(b)`: `REV[b]`, none for `ABSENT` (R111). -/
def valueOf (rev : Vector (Option (Fin 58)) 256) (b : Byte) : Option (Fin 58) := rev[b.toFin]

/-- The zero-symbol `Z`, `ALPHA[0]` (R11). -/
def State.zeroSymbol (s : State) : Byte := s.symbolAt 0

/-- A register known to hold a value `0..57` as an index into `ALPHA` (R56: every index is a remainder `mod 58`). -/
def digitIndex (w : Word) : Fin 58 := Fin.ofNat 58 w.toNat

/-- `ALPHA[w]` for each digit in turn. -/
def State.symbols (s : State) (digits : List Word) : List Byte := digits.map fun w => s.symbolAt (digitIndex w)

/-- The reverse table that agrees with a forward table (R23, R114): `REV[b]` is the `v` with `ALPHA[v] = b`, else
`ABSENT`. -/
def reverseTable (alpha : Vector Byte 58) : Vector (Option (Fin 58)) 256 :=
  ⟨((List.range 256).map fun b => (List.finRange 58).find? fun v => alpha[v] == BitVec.ofNat 8 b).toArray, by simp⟩

/-- Write `ALPHA`, rebuild `REV`, set `ALPHA_VALID` (R112, R113). -/
def State.setAlphabet (alpha : Vector Byte 58) (s : State) : State :=
  { s with alpha := alpha, rev := reverseTable alpha, alphaValid := true }

/-! ### The start and the end of an operation (R86, R255) -/

/-- What every command does at its start (R86): clear `ERR`, `DONE`, `ERR_*` and `OUT_LEN`, and be busy in its first
phase. With `OUT_LEN = 0` no byte of `OUT` holds a value (R35), and no scratch register or limb does (R32). -/
def State.begin (ph : Phase) (s : State) : State :=
  { s with phase := ph, done := false, err := .none, errByte := 0#8, errOff := 0, errLen := 0, errDetail := 0#8,
           outLen := 0, outMem := [], scratch := Scratch.reset }

/-- What every command does at its end (R86): clear `BUSY`, set `DONE`. -/
def State.endOperation (s : State) : State := { s with phase := .idle, done := true, cmd := none }

/-- Taking an error (R255, R256), from the state in which the operation began: `STATUS.ERR` and `ERR_*` are written,
`OUT_LEN` is 0, and nothing else the operation did leaves a trace. -/
def State.raise (e : CodecError) (s : State) : State :=
  { s with err := e.kind, errByte := e.byte, errOff := e.off, errLen := e.len, errDetail := e.detail,
           outLen := 0, outMem := [], scratch := Scratch.reset, phase := .idle, done := true, cmd := none }

/-- How an operation that began in `b` ends: with its result, with an error, or at a byte that holds no value. -/
def settle (b : State) : Except Stop State → Host.Outcome State Fault Refusal
  | .ok t => .next t.endOperation
  | .error (.raise e) => .next (b.raise e)
  | .error .noValue => .fault .inNoValue

/-- A conversion: `ALPHA_VALID` is tested before anything else (R254, R258(a)), then the operation's body runs. -/
def convert (ph : Phase) (body : State → Except Stop State) (s : State) : Host.Outcome State Fault Refusal :=
  let b := s.begin ph
  settle b (if b.alphaValid then body b else .error (.raise .noAlphabet))

/-- A configuration operation (`ALPHASEL`, `ALPHALOAD`): it needs no alphabet (R112, R113). -/
def configure (body : State → Except Stop State) (s : State) : Host.Outcome State Fault Refusal :=
  let b := s.begin .cfg
  settle b (body b)

/-! ### Accepting a command (R26, R86) -/

/-- The phase the operation that `OP` names begins in (R31; the first phase of its pseudocode). -/
def startPhase (w : Byte) : Phase :=
  let op := (commandFields w).op
  if op = 0#3 ∨ op = 1#3 then .lzscan else if op = 2#3 ∨ op = 3#3 then .fixed else .cfg

/-- A write of `CMD` while idle starts the operation (R26): the command is latched, `BUSY` is set, and what every
command clears at its start is cleared (R86). -/
def State.acceptCommand (w : Byte) (s : State) : State := { s.begin (startPhase w) with cmd := some w }

end Sys2Proof.Machine
end

