-- ==== Sys2Proof/Machine/Operands.lean ====
section
/-! DEFINITION. The operand forms: decimal digits, symbols, chunks, and the rendering of numbers (R87 to R90,
R130, R133, R136). -/

namespace Sys2Proof.Machine

/-- `isdigit(b)` (R87). -/
def isDigit (b : Byte) : Bool := 0x30#8 ≤ b && b ≤ 0x39#8

/-- `b - 0x30` as a 64-bit number (R87). -/
def digitValue (b : Byte) : Word := (b - 0x30#8).setWidth 64

/-- The byte `0x30 + d` of a decimal digit (R90). -/
def digitByte (d : Word) : Byte := 0x30#8 + d.setWidth 8

/-- `parse10` (R89) of a segment with the accumulator so far; `off` and `len` place the segment in `IN` for
`InvalidDigit` (R163). -/
def parse10 (off len : Nat) (acc : Word) : List (Option Byte) → Except Stop Word
  | [] => .ok acc
  | none :: _ => .error .noValue
  | some b :: rest =>
    if isDigit b then parse10 off len (acc * 10#64 + digitValue b) rest
    else .error (.raise (.invalidDigit off len))

/-- What `fold58` leaves in `ACC` and `V`. -/
structure Fold where
  acc : Word
  v : Option (Fin 58)
  deriving DecidableEq, Repr

/-- `fold58` (R133) from index `i` with the registers so far: resolve, then `ACC <- (ACC *_64 58) +_64 V`. -/
def fold58 (rev : Vector (Option (Fin 58)) 256) (i : Nat) (f : Fold) : List (Option Byte) → Except Stop Fold
  | [] => .ok f
  | none :: _ => .error .noValue
  | some b :: rest =>
    match valueOf rev b with
    | none => .error (.raise (.invalidSymbol b i))
    | some v => fold58 rev (i + 1) { acc := f.acc * Config.radixWord + BitVec.ofNat 64 v.val, v := some v } rest

/-- The divide loop shared by `emit58` and `emit10` (R130, R136): remainders of `n`, least significant first, until
`ACC = 0`. The bound on the number of passes is R132's 11 for radix 58 and R136's 20 for radix 10
(assumption log 15). -/
def divideDigits (radix : Word) : Nat → Word → List Word
  | 0, _ => []
  | passes + 1, acc => if acc = 0#64 then [] else acc % radix :: divideDigits radix passes (acc / radix)

/-- The base-58 digits of `n`, most significant first (R130: at most 11 passes). -/
def digits58 (n : Word) : List Word := (divideDigits Config.radixWord 11 n).reverse

/-- `dec(n)` (R90) as `emit10` produces it (R136: at most 20 bytes): `"0"` for 0. -/
def decimal (n : Word) : List Byte :=
  if n = 0#64 then [0x30#8] else (divideDigits 10#64 20 n).reverse.map digitByte

/-- `pad17(n)` (R90): `dec(n)` with `'0'` in front up to 17 bytes. -/
def pad17 (n : Word) : List Byte :=
  List.replicate (Config.chunkDigits - (decimal n).length) 0x30#8 ++ decimal n

/-- `NL = ceil(M/17)` (R53, R152). -/
def chunkCount (m : Nat) : Nat := (m + 16) / 17

/-- `FLEN = M - 17*(NL-1)` (R53, R152). -/
def firstChunkLen (m : Nat) : Nat := m - 17 * (chunkCount m - 1)

/-- The index in `IN` where chunk `j` starts (R53). -/
def chunkStart (zc flen j : Nat) : Nat := if j = 0 then zc else zc + flen + 17 * (j - 1)

/-- The length of chunk `j` (R53). -/
def chunkLen (flen j : Nat) : Nat := if j = 0 then flen else Config.chunkDigits

/-- The bytes of chunk `j` (R53). -/
def chunkBytes (operand : List (Option Byte)) (zc flen j : Nat) : List (Option Byte) :=
  (operand.drop (chunkStart zc flen j)).take (chunkLen flen j)

/-- `CHUNK` (R152): parse `n` chunks from chunk `j` on, in index order. -/
def parseChunks (operand : List (Option Byte)) (zc flen : Nat) (j : Nat) : Nat → Except Stop (List Word)
  | 0 => .ok []
  | n + 1 =>
    match parse10 (chunkStart zc flen j) (chunkLen flen j) 0#64 (chunkBytes operand zc flen j) with
    | .error e => .error e
    | .ok x =>
      match parseChunks operand zc flen (j + 1) n with
      | .error e => .error e
      | .ok xs => .ok (x :: xs)

/-- 58 bytes as a forward table (R113). -/
def tableOf (bytes : List Byte) : Vector Byte 58 :=
  ⟨((List.range 58).map fun i => bytes.getD i 0#8).toArray, by simp⟩

end Sys2Proof.Machine
end

