-- ==== Sys2Proof/Machine/Alphabet.lean ====
section
/-! DEFINITION. `ALPHASEL` and `ALPHALOAD` (`40_alphabet.md`), and the preset tables of R115, which the spec itself
takes from general knowledge (PRESUMED; assumption log 10). -/

namespace Sys2Proof.Machine

/-- The flickr preset (R115), value 0 first. -/
def flickrSymbols : List Byte :=
  [0x31#8, 0x32#8, 0x33#8, 0x34#8, 0x35#8, 0x36#8, 0x37#8, 0x38#8, 0x39#8, 0x61#8, 0x62#8, 0x63#8, 0x64#8, 0x65#8, 0x66#8] ++
  [0x67#8, 0x68#8, 0x69#8, 0x6A#8, 0x6B#8, 0x6D#8, 0x6E#8, 0x6F#8, 0x70#8, 0x71#8, 0x72#8, 0x73#8, 0x74#8, 0x75#8, 0x76#8] ++
  [0x77#8, 0x78#8, 0x79#8, 0x7A#8, 0x41#8, 0x42#8, 0x43#8, 0x44#8, 0x45#8, 0x46#8, 0x47#8, 0x48#8, 0x4A#8, 0x4B#8, 0x4C#8] ++
  [0x4D#8, 0x4E#8, 0x50#8, 0x51#8, 0x52#8, 0x53#8, 0x54#8, 0x55#8, 0x56#8, 0x57#8, 0x58#8, 0x59#8, 0x5A#8]

/-- The ripple preset (R115), value 0 first. -/
def rippleSymbols : List Byte :=
  [0x72#8, 0x70#8, 0x73#8, 0x68#8, 0x6E#8, 0x61#8, 0x66#8, 0x33#8, 0x39#8, 0x77#8, 0x42#8, 0x55#8, 0x44#8, 0x4E#8, 0x45#8] ++
  [0x47#8, 0x48#8, 0x4A#8, 0x4B#8, 0x4C#8, 0x4D#8, 0x34#8, 0x50#8, 0x51#8, 0x52#8, 0x53#8, 0x54#8, 0x37#8, 0x56#8, 0x57#8] ++
  [0x58#8, 0x59#8, 0x5A#8, 0x32#8, 0x62#8, 0x63#8, 0x64#8, 0x65#8, 0x43#8, 0x67#8, 0x36#8, 0x35#8, 0x6A#8, 0x6B#8, 0x6D#8] ++
  [0x38#8, 0x6F#8, 0x46#8, 0x71#8, 0x69#8, 0x31#8, 0x74#8, 0x75#8, 0x76#8, 0x41#8, 0x78#8, 0x79#8, 0x7A#8]

/-- The bitcoin preset (R115), value 0 first. -/
def bitcoinSymbols : List Byte :=
  [0x31#8, 0x32#8, 0x33#8, 0x34#8, 0x35#8, 0x36#8, 0x37#8, 0x38#8, 0x39#8, 0x41#8, 0x42#8, 0x43#8, 0x44#8, 0x45#8, 0x46#8] ++
  [0x47#8, 0x48#8, 0x4A#8, 0x4B#8, 0x4C#8, 0x4D#8, 0x4E#8, 0x50#8, 0x51#8, 0x52#8, 0x53#8, 0x54#8, 0x55#8, 0x56#8, 0x57#8] ++
  [0x58#8, 0x59#8, 0x5A#8, 0x61#8, 0x62#8, 0x63#8, 0x64#8, 0x65#8, 0x66#8, 0x67#8, 0x68#8, 0x69#8, 0x6A#8, 0x6B#8, 0x6D#8] ++
  [0x6E#8, 0x6F#8, 0x70#8, 0x71#8, 0x72#8, 0x73#8, 0x74#8, 0x75#8, 0x76#8, 0x77#8, 0x78#8, 0x79#8, 0x7A#8]

/-- `PRESET_TABLE` (R112, R115); none for `0b11`, "any other name" (R83). -/
def presetTable : Preset → Option (Vector Byte 58)
  | .flickr => some (tableOf flickrSymbols)
  | .ripple => some (tableOf rippleSymbols)
  | .bitcoin => some (tableOf bitcoinSymbols)
  | .other => none

/-- The body of `ALPHASEL` (R112). -/
def alphaselBody (p : Preset) (b : State) : Except Stop State :=
  match presetTable p with
  | none => .error (.raise .unknownName)
  | some table => .ok (b.setAlphabet table)

/-- `ALPHASEL` (R112). -/
def execAlphasel (p : Preset) (s : State) : Host.Outcome State Fault Refusal := configure (alphaselBody p) s

/-- The duplicate test of `ALPHALOAD` (R113): the bytes in index order, each compared with those before it, so the
duplicate reported is the one with the smallest second index (D16). -/
def scanDistinct (seen : List Byte) : List (Option Byte) → Except Stop (List Byte)
  | [] => .ok seen
  | none :: _ => .error .noValue
  | some b :: rest =>
    if b ∈ seen then .error (.raise (.duplicate b seen.length)) else scanDistinct (seen ++ [b]) rest

/-- The body of `ALPHALOAD` (R113): the count first, then duplicates. -/
def alphaloadBody (b : State) : Except Stop State :=
  if b.inLen ≠ 58 then .error (.raise (.wrongCount b.inLen))
  else
    match scanDistinct [] b.operand with
    | .error e => .error e
    | .ok bytes => .ok { b.setAlphabet (tableOf bytes) with scratch := { b.scratch with k := 57 } }

/-- `ALPHALOAD` (R113). -/
def execAlphaload (s : State) : Host.Outcome State Fault Refusal := configure alphaloadBody s

end Sys2Proof.Machine
end

