-- ==== Sys2Proof/Machine/LeadingZero.lean ====
section
/-! DEFINITION. The leading-zero handler: `LZSCAN` of `ENC` and of `DEC` (R211, R212). -/

namespace Sys2Proof.Machine

/-- `LZSCAN` of `ENC` (R211): the length of the longest run of `'0'` bytes at the front. -/
def scanZeroDigits : List (Option Byte) → Except Stop Nat
  | [] => .ok 0
  | none :: _ => .error .noValue
  | some b :: rest =>
    if b = 0x30#8 then
      match scanZeroDigits rest with
      | .ok n => .ok (n + 1)
      | .error e => .error e
    else .ok 0

/-- `LZSCAN` of `DEC` (R212): the length of the run of zero-symbols at the front, never counting the final symbol,
which the scan does not read. -/
def scanZeroSymbols (z : Byte) : List (Option Byte) → Except Stop Nat
  | [] => .ok 0
  | [_] => .ok 0
  | none :: _ :: _ => .error .noValue
  | some b :: c :: rest =>
    if b = z then
      match scanZeroSymbols z (c :: rest) with
      | .ok n => .ok (n + 1)
      | .error e => .error e
    else .ok 0

/-- The scan's registers: `ZC`, `M = IN_LEN - ZC` (R211, R212), `K` as the prefix loop `for K = 1 .. ZC` leaves it
(assumption log 13). -/
def State.noteZeroRun (zc : Nat) (s : State) : State :=
  { s with phase := .dispatch, scratch := { s.scratch with zc := zc, m := s.inLen - zc, k := zc } }

/-- The remainder `IN[ZC .. IN_LEN)` (R211, R212). -/
def State.remainder (s : State) : List (Option Byte) := s.operand.drop s.scratch.zc

end Sys2Proof.Machine
end

