-- ==== Sys2Proof/Machine/FixedWidth.lean ====
section
/-! DEFINITION. The fixed-width path: `ENCU64`, `DECU64` and the routines `emit58`, `emit10`
(`41_fixed_width_u64.md`). -/

namespace Sys2Proof.Machine

/-- `emit58(n)` (R130): append the base-58 digits of `n`, most significant first; the loop ends with `ACC = 0`. -/
def State.emit58 (n : Word) (s : State) : State :=
  { s.emitAll (s.symbols (digits58 n)) with phase := .fixed, scratch := { s.scratch with acc := 0#64 } }

/-- `emit10(n)` (R136): append `dec(n)`; it ends with `ACC = 0`. -/
def State.emit10 (n : Word) (s : State) : State :=
  { s.emitAll (decimal n) with phase := .fixed, scratch := { s.scratch with acc := 0#64 } }

/-- The body of `ENCU64` (R131). -/
def encu64Body (b : State) : Except Stop State :=
  if b.op64 = 0#64 then .ok (b.emitAll [b.zeroSymbol]) else .ok (b.emit58 b.op64)

/-- `ENCU64` (R131). -/
def execEncu64 (s : State) : Host.Outcome State Fault Refusal := convert .fixed encu64Body s

/-- The body of `DECU64` (R134): fold the whole of `IN`, wrapping modulo `2^64`, into `OP64`. -/
def decu64Body (b : State) : Except Stop State :=
  match fold58 b.rev 0 { acc := 0#64, v := none } b.operand with
  | .error e => .error e
  | .ok f => .ok { b with op64 := f.acc, scratch := { b.scratch with acc := f.acc, v := f.v, i := b.inLen - 1 } }

/-- `DECU64` (R134). -/
def execDecu64 (s : State) : Host.Outcome State Fault Refusal := convert .fixed decu64Body s

end Sys2Proof.Machine
end

