-- ==== Sys2Proof/Machine/Encoder.lean ====
section
/-! DEFINITION. `ENC` (`42_radix58_encoder.md`): decimal digits to base-58 symbols, by the fixed-width path or by
repeated div-58 sweeps over limbs, most significant limb first. -/

namespace Sys2Proof.Machine

/-- What a div-58 sweep leaves in the limbs it visits, in `CARRY` and in `T`. -/
structure DivSweep where
  limb : List Word
  carry : Word
  t : Word
  deriving DecidableEq, Repr

/-- `SWEEP` (R156) over limbs most significant first, with the carry coming in: `T <- CARRY * 10^17 + LIMB[J]`,
`LIMB[J] <- T div 58`, `CARRY <- T mod 58`. -/
def sweepDiv58 (carry t : Word) : List Word → DivSweep
  | [] => { limb := [], carry := carry, t := t }
  | x :: rest =>
    let tv := carry * Config.limbBaseWord + x
    let r := sweepDiv58 (tv % Config.radixWord) tv rest
    { r with limb := tv / Config.radixWord :: r.limb }

/-- The registers of the encoder's loop (R153), and the digits emitted so far, first emitted first (R157, D15). -/
structure EncLoop where
  phase : Phase
  limb : List Word
  head : Nat
  carry : Word
  t : Word
  emitted : List Word
  deriving DecidableEq, Repr

/-- The window `LIMB[HEAD .. NL)` (R15). -/
def EncLoop.window (r : EncLoop) : List Word := r.limb.drop r.head

/-- The loop test (R153): some limb of the window is nonzero. -/
def EncLoop.more (r : EncLoop) : Bool := r.window.any (· != 0#64)

/-- `TRIM` (R154): advance `HEAD` past zero limbs. -/
def EncLoop.trim (r : EncLoop) : EncLoop :=
  { r with phase := .trim, head := r.head + (r.window.takeWhile (· == 0#64)).length }

/-- `SWEEP` (R156) over the window, the first limb with no incoming carry. -/
def EncLoop.sweep (r : EncLoop) : EncLoop :=
  let d := sweepDiv58 0#64 r.t r.window
  { r with phase := .sweep, limb := r.limb.take r.head ++ d.limb, carry := d.carry, t := d.t }

/-- `EMIT` (R157): the final carry is the next digit. -/
def EncLoop.emit (r : EncLoop) : EncLoop := { r with phase := .emit, emitted := r.emitted ++ [r.carry] }

/-- The loop (R150, R153). At most `M` passes are needed (R161; assumption log 15). -/
def EncLoop.run : Nat → EncLoop → EncLoop
  | 0, r => r
  | passes + 1, r => if r.more then EncLoop.run passes r.trim.sweep.emit else r

/-- `FIXED` phase of `ENC` (R150, R139): `parse10` of the whole remainder, then `emit58`. -/
def encFixed (s : State) : Except Stop State :=
  match parse10 s.scratch.zc s.scratch.m 0#64 s.remainder with
  | .error e => .error e
  | .ok n => .ok (({ s with scratch := { s.scratch with k := s.scratch.m - 1 } }).emit58 n)

/-- The registers after `CHUNK` (R152). -/
def State.loadLimbs (limbs : List Word) (s : State) : State :=
  { s with phase := .chunk,
           scratch := { s.scratch with nl := chunkCount s.scratch.m, flen := BitVec.ofNat 5 (firstChunkLen s.scratch.m),
                                       limb := limbs, acc := limbs.getLastD 0#64, head := 0,
                                       j := chunkCount s.scratch.m - 1, k := 16 } }

/-- `LOOP` to `REVERSE` (R150, R158): the emitted digits, last emitted first, follow what is in `OUT`. -/
def State.divideOut (s : State) : State :=
  let r := EncLoop.run s.scratch.m
    { phase := s.phase, limb := s.scratch.limb, head := s.scratch.head, carry := 0#64, t := 0#64, emitted := [] }
  { s.emitAll (s.symbols r.emitted.reverse) with
      phase := .reverse,
      scratch := { s.scratch with limb := r.limb, head := r.head, carry := r.carry, t := r.t } }

/-- `CHUNK` and what follows (R150, `M >= 20`). -/
def encLimbPath (s : State) : Except Stop State :=
  match parseChunks s.operand s.scratch.zc (firstChunkLen s.scratch.m) 0 (chunkCount s.scratch.m) with
  | .error e => .error e
  | .ok limbs => .ok (s.loadLimbs limbs).divideOut

/-- `DISPATCH` of `ENC` (R213): by the remainder length alone. -/
def encDispatch (s : State) : Except Stop State :=
  if s.scratch.m = 0 then .ok s
  else if s.scratch.m ≤ Config.encFixedMax then encFixed s
  else encLimbPath s

/-- The body of `ENC` (R150): the zero scan, one zero-symbol per leading `'0'` (R159), the dispatch. -/
def encBody (b : State) : Except Stop State :=
  match scanZeroDigits b.operand with
  | .error e => .error e
  | .ok zc => encDispatch ((b.noteZeroRun zc).emitAll (List.replicate zc b.zeroSymbol))

/-- `ENC` (R150). -/
def execEnc (s : State) : Host.Outcome State Fault Refusal := convert .lzscan encBody s

end Sys2Proof.Machine
end

