-- ==== Sys2Proof/Machine/Decoder.lean ====
section
/-! DEFINITION. `DEC` (`43_radix58_decoder.md`): base-58 symbols to decimal digits, by the fixed-width path or by
repeated mul-58-add sweeps over limbs, least significant limb first. -/

namespace Sys2Proof.Machine

/-- What a mul-58-add sweep leaves in the limbs, in `CARRY` and in `Y`. -/
structure MulSweep where
  limb : List Word
  carry : Word
  y : Word
  deriving DecidableEq, Repr

/-- The loop over limbs of one sweep (R185), least significant first, with the carry coming in. -/
def sweepMul58 (carry y : Word) : List Word → MulSweep
  | [] => { limb := [], carry := carry, y := y }
  | x :: rest =>
    let yv := x * Config.radixWord + carry
    if yv < Config.limbBaseWord then
      let r := sweepMul58 0#64 yv rest
      { r with limb := yv :: r.limb }
    else
      let r := sweepMul58 (yv / Config.limbBaseWord) yv rest
      { r with limb := yv % Config.limbBaseWord :: r.limb }

/-- The registers of the decoder's symbol loop (R183). -/
structure DecLoop where
  limb : List Word
  carry : Word
  y : Word
  v : Option (Fin 58)
  deriving DecidableEq, Repr

/-- One sweep (R185): multiply by 58, add `v`, and append a nonzero carry as the new most significant limb. -/
def DecLoop.absorb (r : DecLoop) (v : Fin 58) : DecLoop :=
  let w := sweepMul58 (BitVec.ofNat 64 v.val) r.y r.limb
  { limb := if w.carry = 0#64 then w.limb else w.limb ++ [w.carry], carry := w.carry, y := w.y, v := some v }

/-- The symbol loop (R184, R185) from index `i`: resolve the symbol, then sweep. -/
def DecLoop.run (rev : Vector (Option (Fin 58)) 256) (i : Nat) (r : DecLoop) :
    List (Option Byte) → Except Stop DecLoop
  | [] => .ok r
  | none :: _ => .error .noValue
  | some b :: rest =>
    match valueOf rev b with
    | none => .error (.raise (.invalidSymbol b i))
    | some v => DecLoop.run rev (i + 1) (r.absorb v) rest

/-- `RENDER` (R186) of limbs least significant first: the most significant limb plain, every other limb as 17
digits; no limb is the number 0. -/
def renderLimbs (limbs : List Word) : List Byte :=
  match limbs.reverse with
  | [] => [0x30#8]
  | top :: rest => decimal top ++ rest.flatMap pad17

/-- `FIXED` phase of `DEC` (R187): `fold58` of the remainder, then `emit10`. -/
def decFixed (s : State) : Except Stop State :=
  match fold58 s.rev s.scratch.zc { acc := 0#64, v := none } s.remainder with
  | .error e => .error e
  | .ok f => .ok (({ s with scratch := { s.scratch with v := f.v, i := s.inLen - 1 } }).emit10 f.acc)

/-- The limb path of `DEC` (R180, `M >= 11`): the sweeps from an empty limb sequence, then `RENDER`. -/
def decLimbPath (s : State) : Except Stop State :=
  match DecLoop.run s.rev s.scratch.zc { limb := [], carry := 0#64, y := 0#64, v := none } s.remainder with
  | .error e => .error e
  | .ok r =>
    .ok { s.emitAll (renderLimbs r.limb) with
            phase := .render,
            scratch := { s.scratch with limb := r.limb, nl := r.limb.length, carry := r.carry, y := r.y, v := r.v,
                                        i := s.inLen - 1, j := 0 } }

/-- `DISPATCH` of `DEC` (R213): by the remainder length alone. -/
def decDispatch (s : State) : Except Stop State :=
  if s.scratch.m ≤ Config.decFixedMax then decFixed s else decLimbPath s

/-- The body of `DEC` (R180): the empty input first, then the zero scan, one `'0'` per counted zero-symbol, the
dispatch. -/
def decBody (b : State) : Except Stop State :=
  if b.inLen = 0 then .ok b
  else
    match scanZeroSymbols b.zeroSymbol b.operand with
    | .error e => .error e
    | .ok zc => decDispatch ((b.noteZeroRun zc).emitAll (List.replicate zc 0x30#8))

/-- `DEC` (R180). -/
def execDec (s : State) : Host.Outcome State Fault Refusal := convert .lzscan decBody s

end Sys2Proof.Machine
end

