-- ==== Sys2Proof/Machine/Dispatch.lean ====
section
/-! DEFINITION. One arm per operation of the opcode table (R82). -/

namespace Sys2Proof.Machine

def exec (i : Instr) (s : State) : Host.Outcome State Fault Refusal :=
  match i with
  | .enc => Sys2Proof.Machine.execEnc s
  | .dec => Sys2Proof.Machine.execDec s
  | .encu64 => Sys2Proof.Machine.execEncu64 s
  | .decu64 => Sys2Proof.Machine.execDecu64 s
  | .alphasel p => Sys2Proof.Machine.execAlphasel p s
  | .alphaload => Sys2Proof.Machine.execAlphaload s

end Sys2Proof.Machine
end

