-- ==== Sys2Proof/Machine/HostPort.lean ====
section
/-! DEFINITION. The host port (R25, R50, R54, R60): reads and writes of the host registers and the buffers. -/

namespace Sys2Proof.Machine

/-- What the host must not do while `STATUS.BUSY = 1` (R60, R284): write `CMD`, `IN`, `IN_LEN`, `OP64`; read `OUT`,
`OUT_LEN`, `OP64`, `ERR_*`. -/
def forbiddenWhileBusy : HostEvent → Bool
  | .writeReg index _ => index == 0 || index == 2 || index == 4
  | .writeIn _ _ => true
  | .readReg index => 3 ≤ index && index ≤ 8
  | .readOut _ => true
  | .readIn _ | .waitDone | .reset => false

/-- What a host register reads as (R25); `CMD` reads as 0; indices above 8 do not exist. -/
def readRegister (s : State) : Nat → Option Nat
  | 0 => some 0
  | 1 => some s.status.toNat
  | 2 => some s.inLen
  | 3 => some s.outLen
  | 4 => some s.op64.toNat
  | 5 => some s.errByte.toNat
  | 6 => some s.errOff
  | 7 => some s.errLen
  | 8 => some s.errDetail.toNat
  | _ => none

/-- A write of `CMD` while idle (R26, R84): a reserved encoding is refused. -/
def writeCommand (s : State) (value : Nat) : Host.Outcome State Fault Refusal :=
  if value < 256 then
    match decode (BitVec.ofNat 8 value) with
    | .error why => .refused (.reservedCommand why)
    | .ok _ => .next (s.acceptCommand (BitVec.ofNat 8 value))
  else .refused .valueTooWide

/-- A host register write (R25, U8): `STATUS` ignores it; `OUT_LEN` and `ERR_*` refuse it; indices above 8 do not
exist. -/
def writeRegister (s : State) (value : Nat) : Nat → Host.Outcome State Fault Refusal
  | 0 => writeCommand s value
  | 1 => .next s
  | 2 => .next { s with inLen := value }
  | 4 => if value < 2 ^ 64 then .next { s with op64 := BitVec.ofNat 64 value } else .refused .valueTooWide
  | 3 | 5 | 6 | 7 | 8 => .refused .readOnlyRegister
  | _ => .refused .noSuchRegister

/-- Reset (R280, U16): the reset state, whatever was running. What the host does next is not the block's and
stays. -/
def State.applyReset (s : State) : State := { State.reset with host := s.host }

/-- One access of the host to the block. A read changes nothing but what the port returned (R55). DESIGN CHOICE
(assumption log 22): a read of `IN[i]` at or beyond `IN_LEN` returns the byte stored there, if one was written; R50
calls only `0 .. IN_LEN-1` valid and leaves such a read open. -/
def hostAccess (e : HostEvent) (s : State) : Host.Outcome State Fault Refusal :=
  if s.busy && forbiddenWhileBusy e then .refused .accessWhileBusy
  else
    match e with
    | .readReg index =>
      match readRegister s index with
      | some v => .next { s with readData := v }
      | none => .refused .noSuchRegister
    | .writeReg index value => writeRegister s value index
    | .readIn i =>
      match s.inMem.read i with
      | some b => .next { s with readData := b.toNat }
      | none => .fault .inNoValue
    | .writeIn i b => .next { s with inMem := s.inMem.write i b }
    | .readOut i =>
      match s.outMem.read i with
      | some b => .next { s with readData := b.toNat }
      | none => .fault .outNoValue
    | .waitDone => .next s
    | .reset => .next s.applyReset

end Sys2Proof.Machine
end

