-- ==== Sys2Proof/Machine/Engine.lean ====
section
/-! DEFINITION. The engine's turn: fetch the latched command, decode it, run it to completion (R20, R60). -/

namespace Sys2Proof.Machine

/-- The engine runs the latched command from start to completion; with none latched the block is idle and stays so
(R269). -/
def runEngine (s : State) : Host.Outcome State Fault Refusal :=
  match s.cmd with
  | none => .next s
  | some w =>
    match decode w with
    | .error why => .refused (.reservedCommand why)
    | .ok i => exec i s

end Sys2Proof.Machine
end

