-- ==== Sys2Proof/Machine/Step.lean ====
section
/-! DEFINITION. One step: the host's oldest access, or the engine's turn (assumption log 6, 7). -/

namespace Sys2Proof.Machine

/-- The host moves while it has an access to make; the engine moves when the host waits for it (R283) or has nothing
more to do. -/
def step (s : State) : Host.Outcome State Fault Refusal :=
  match s.host with
  | [] => runEngine s
  | .waitDone :: rest => runEngine { s with host := rest }
  | e :: rest => hostAccess e { s with host := rest }

/-- `s` with a command byte written to `CMD` and the host waiting for its end, so that the very next step fetches and
runs it (assumption log 7). -/
def State.withFetchWord (s : State) (nbits w : Nat) : State :=
  { s.acceptCommand (commandByte nbits w) with host := .waitDone :: s.host }

end Sys2Proof.Machine
end

