-- ==== Sys2Proof/Safety.lean ====
section
/-! DEFINITION. The terms claims are stated in: the mathematical helpers of R13, how an operation ended, the
invariant of the machine, and the host's protocol (R283, R284). None of it is hardware. -/

namespace Sys2Proof.Machine

/-! ### Notation of `00_scope.md` -/

/-- A decimal digit byte (R87), in plain numbers. -/
def isDecimal (b : Byte) : Prop := 0x30 ≤ b.toNat ∧ b.toNat ≤ 0x39

/-- `val10(d)` (R13). -/
def val10 (d : List Byte) : Nat := d.foldl (fun n b => n * 10 + (b.toNat - 0x30)) 0

/-- The value of a symbol, 0 for a byte that is none (`val58` is used of alphabet members only, R13). -/
def symbolValue (rev : Vector (Option (Fin 58)) 256) (b : Byte) : Nat :=
  match valueOf rev b with
  | some v => v.val
  | none => 0

/-- `val58(s)` (R13). -/
def val58 (rev : Vector (Option (Fin 58)) 256) (s : List Byte) : Nat :=
  s.foldl (fun n b => n * 58 + symbolValue rev b) 0

/-- `dec(n)` (R13): the decimal numeral with no leading zero; `"0"` for 0. -/
def dec (n : Nat) : List Byte :=
  if n = 0 then [0x30#8] else (Nat.digits 10 n).reverse.map fun q => BitVec.ofNat 8 (0x30 + q)

/-- `rep58(n)` (R13): the symbols of the base-58 digits, most significant first; empty for 0. -/
def rep58 (alpha : Vector Byte 58) (n : Nat) : List Byte :=
  (Nat.digits 58 n).reverse.map fun q => alpha[Fin.ofNat 58 q]

/-- `lz(s, b)` (R13): the number of leading bytes of `s` equal to `b`. -/
def lz (s : List Byte) (b : Byte) : Nat := (s.takeWhile (· == b)).length

/-- The number limbs hold, most significant limb first (R33, the encoder's order). -/
def limbsMsf (limbs : List Word) : Nat := limbs.foldl (fun n x => n * Config.limbBase + x.toNat) 0

/-- The number limbs hold, least significant limb first (R33, the decoder's order). -/
def limbsLsf : List Word → Nat
  | [] => 0
  | x :: rest => x.toNat + Config.limbBase * limbsLsf rest

/-- Every limb is below `10^17` (R33). -/
def limbsBounded (limbs : List Word) : Prop := ∀ x ∈ limbs, x.toNat < Config.limbBase

/-- A valid alphabet (R22, R23): 58 pairwise distinct symbols, and the reverse table agrees exactly. -/
def AlphabetOk (alpha : Vector Byte 58) (rev : Vector (Option (Fin 58)) 256) : Prop :=
  alpha.toList.Nodup ∧ ∀ (b : Byte) (v : Fin 58), valueOf rev b = some v ↔ alpha[v] = b

/-! ### How an operation ended -/

/-- The block is idle with `DONE` set, no error, and `ERR_*` 0 (R27, R30, R86). -/
structure State.Succeeded (t : State) : Prop where
  idle : t.phase = .idle
  done : t.done = true
  noCommand : t.cmd = none
  err : t.err = .none
  errByte : t.errByte = 0#8
  errOff : t.errOff = 0
  errLen : t.errLen = 0
  errDetail : t.errDetail = 0#8

/-- The block is idle with `DONE` set, and the error registers hold this error; `OUT_LEN` is 0 and no byte of `OUT`
holds a value (R35, R255). -/
structure State.FailedWith (t : State) (kind : ErrKind) (detail byte : Byte) (off len : Nat) : Prop where
  idle : t.phase = .idle
  done : t.done = true
  noCommand : t.cmd = none
  err : t.err = kind
  errByte : t.errByte = byte
  errOff : t.errOff = off
  errLen : t.errLen = len
  errDetail : t.errDetail = detail
  outLen : t.outLen = 0
  noOutput : ∀ a, t.outMem.read a = none

/-- `IN`, `IN_LEN` and what is the host's own are as before (R34, R39). -/
structure State.InputKept (s t : State) : Prop where
  inLen : t.inLen = s.inLen
  inMem : t.inMem = s.inMem
  inBytes : ∀ a, t.inMem.read a = s.inMem.read a
  host : t.host = s.host
  readData : t.readData = s.readData

/-- `ALPHA`, `REV`, `ALPHA_VALID` are as before (R22, R24). -/
structure State.AlphabetKept (s t : State) : Prop where
  alpha : t.alpha = s.alpha
  rev : t.rev = s.rev
  alphaValid : t.alphaValid = s.alphaValid

/-- What an operation leaves alone when it writes neither the alphabet nor `OP64` (R86), and `OUT` holds nothing
beyond `OUT_LEN` (R35). -/
structure State.ConversionKept (s t : State) : Prop extends State.InputKept s t, State.AlphabetKept s t where
  op64 : t.op64 = s.op64
  outBeyond : ∀ a, t.outLen ≤ a → t.outMem.read a = none

/-! ### The invariant -/

/-- What holds of the block between steps. -/
structure State.Inv (s : State) : Prop where
  /-- `IN` is in canonical form. -/
  inWf : s.inMem.wf
  /-- `OUT` is in canonical form. -/
  outWf : s.outMem.wf
  /-- Exactly the bytes below `OUT_LEN` hold a value (R35). -/
  outExact : s.outMem.map Prod.fst = List.range s.outLen
  /-- R22, R23, R24. -/
  alphabet : s.alphaValid = true → AlphabetOk s.alpha s.rev
  /-- R27: "`BUSY` and `DONE` are never both 1". -/
  busyDone : ¬(s.busy = true ∧ s.done = true)
  /-- A command is latched exactly while busy. -/
  busyCommand : s.busy = true ↔ s.cmd.isSome = true
  /-- The latched command is an operation (R84). -/
  commandLegal : ∀ w, s.cmd = some w → ∃ i, decode w = .ok i
  /-- R86: cleared when the command starts. -/
  busyClear : s.busy = true → s.err = .none ∧ s.outLen = 0
  /-- R256. -/
  errNoOutput : s.err ≠ .none → s.outLen = 0
  /-- `ERR` is written when an operation ends (R27). -/
  errDone : s.err ≠ .none → s.done = true
  /-- R30: 0 after a successful operation and while one runs. -/
  errClear : s.err = .none → s.errByte = 0#8 ∧ s.errOff = 0 ∧ s.errLen = 0 ∧ s.errDetail = 0#8
  /-- R91: `ERR_DETAIL` is one of the four causes exactly when `ERR = 3`. -/
  errDetail : s.err ≠ .configError → s.errDetail = 0#8
  errCause : s.err = .configError → 1 ≤ s.errDetail.toNat ∧ s.errDetail.toNat ≤ 4
  /-- R33: entries `0 .. NL-1` of the limb file hold a value. -/
  limbCount : s.scratch.nl = s.scratch.limb.length
  /-- R33: every limb in use is below `10^17`. -/
  limbBound : limbsBounded s.scratch.limb
  /-- R32: the value of `CARRY` is always `0..57`. -/
  carryBound : s.scratch.carry.toNat ≤ 57
  /-- R32: `FLEN` is at most 17. -/
  flenBound : s.scratch.flen.toNat ≤ 17

/-! ### The host's protocol -/

/-- The next host access keeps to R25, R60 and R84: an existing register, written only where it may be and with a
value it can hold, a command byte that names an operation, and nothing R60 forbids while busy. -/
def protocolOk (s : State) : Bool :=
  match s.host with
  | [] => true
  | .readReg index :: _ => index ≤ 8 && !(s.busy && 3 ≤ index)
  | .writeReg index value :: _ =>
    index == 1 ||
      (!s.busy &&
        (index == 2 || (index == 4 && value < 2 ^ 64) ||
          (index == 0 && value < 256 && (decodeTableWord 8 value).isSome)))
  | .readIn _ :: _ => true
  | .writeIn _ _ :: _ => !s.busy
  | .readOut _ :: _ => !s.busy
  | .waitDone :: _ => true
  | .reset :: _ => true

end Sys2Proof.Machine
end

