-- ==== Sys2Proof/Certificates/Slice0/Obligations.lean ====
section
/-! DEFINITION. The statements for the provers, from the numbered rules of `spec/`. -/

open Sys2Proof Sys2Proof.Machine

/-! ### Reset, encoding, the step -/

/-- R38 (`10_state.md`): the values the spec gives for reset. The values it gives none for are the model's (assumption
log 1 to 3) and are not claimed here. -/
def Obligations.ResetStateIsAsSpecified : Prop :=
  State.reset.status = 0x00#8 ∧ State.reset.busy = false ∧ State.reset.done = false ∧
  State.reset.alphaValid = false ∧ State.reset.err = .none ∧ readRegister State.reset 0 = some 0 ∧
  State.reset.inLen = 0 ∧ State.reset.outLen = 0 ∧ State.reset.errByte = 0#8 ∧ State.reset.errOff = 0 ∧
  State.reset.errLen = 0 ∧ State.reset.errDetail = 0#8 ∧ State.reset.phase = .idle ∧
  (∀ a, State.reset.inMem.read a = none) ∧ (∀ a, State.reset.outMem.read a = none) ∧
  State.reset.scratch.limb = []

/-- R82, R83 (`30_encoding.md`): each command byte of the opcode table decodes to its operation. -/
def Obligations.CommandBytesDecode : Prop :=
  decode 0x00#8 = .ok .enc ∧ decode 0x01#8 = .ok .dec ∧ decode 0x02#8 = .ok .encu64 ∧ decode 0x03#8 = .ok .decu64 ∧
  decode 0x04#8 = .ok (.alphasel .flickr) ∧ decode 0x0C#8 = .ok (.alphasel .ripple) ∧
  decode 0x14#8 = .ok (.alphasel .bitcoin) ∧ decode 0x1C#8 = .ok (.alphasel .other) ∧
  decode 0x05#8 = .ok .alphaload

/-- R84 (`30_encoding.md`), U1: every other byte names no operation, and a host write of it to `CMD` of an idle block
is refused. -/
def Obligations.ReservedCommandBytesAreRefused : Prop :=
  ∀ w : Byte,
    ((∃ i, decode w = .ok i) ↔
      w ∈ [0x00#8, 0x01#8, 0x02#8, 0x03#8, 0x04#8, 0x05#8, 0x0C#8, 0x14#8, 0x1C#8]) ∧
    (w ∉ [0x00#8, 0x01#8, 0x02#8, 0x03#8, 0x04#8, 0x05#8, 0x0C#8, 0x14#8, 0x1C#8] →
      ∀ s : State, s.busy = false →
        ∃ why, hostAccess (.writeReg 0 w.toNat) s = .refused (.reservedCommand why))

/-- R81 to R83: decoding an encoded operation gives it back, and a byte that decodes is the encoding of what it
decodes to. -/
def Obligations.EncodeAndDecodeAgree : Prop :=
  (∀ i : Instr, decode (encode i) = .ok i) ∧ ∀ (w : Byte) (i : Instr), decode w = .ok i → encode i = w

/-- R20, R60: a step runs the latched command from start to completion, as the operation its byte decodes to. That the
engine moves when the host waits, or has nothing more to do, is the model's choice (assumption log 6). -/
def Obligations.StepRunsLatchedCommand : Prop :=
  ∀ (s : State) (w : Byte) (i : Instr), s.cmd = some w → decode w = .ok i →
    (s.host = [] → step s = exec i s) ∧
    (∀ rest, s.host = .waitDone :: rest → step s = exec i { s with host := rest })

/-- Assumption log 6 (R20, R269): the host's oldest access comes first; an idle block with nothing to do stays as it
is. -/
def Obligations.HostAccessComesFirst : Prop :=
  (∀ (s : State) (e : HostEvent) (rest : List HostEvent), s.host = e :: rest → e ≠ .waitDone →
    step s = hostAccess e { s with host := rest }) ∧
  (∀ s : State, s.host = [] → s.cmd = none → step s = .next s) ∧
  (∀ (s : State) (rest : List HostEvent), s.host = .waitDone :: rest → s.cmd = none →
    step s = .next { s with host := rest })

/-- R26, R86: a write of `CMD` while idle starts the operation: `BUSY` is 1, `DONE`, `ERR`, `ERR_*` and `OUT_LEN` are
cleared, and nothing else the host can see changes. The model's choice, not those rules' (assumption log 6): the write is
the oldest event of the host's queue, the rest of the queue stays, and when its next event is a wait the next step is
the whole operation. That the port's last value stays is the model's too (assumption log 8). -/
def Obligations.CommandWriteStartsOperation : Prop :=
  ∀ (s : State) (w : Byte) (i : Instr) (rest : List HostEvent), s.busy = false → decode w = .ok i →
    s.host = .writeReg 0 w.toNat :: rest →
    ∃ t, step s = .next t ∧ t.cmd = some w ∧ t.busy = true ∧ t.done = false ∧ t.err = .none ∧
      t.errByte = 0#8 ∧ t.errOff = 0 ∧ t.errLen = 0 ∧ t.errDetail = 0#8 ∧ t.outLen = 0 ∧
      State.AlphabetKept s t ∧ t.op64 = s.op64 ∧ t.inLen = s.inLen ∧ t.inMem = s.inMem ∧
      t.readData = s.readData ∧ t.host = rest ∧
      (∀ rest', rest = .waitDone :: rest' → step t = exec i { t with host := rest' })

/-- R280, U16: a reset, also one while an operation is running, leaves the reset state. That what the host does next
stays is the model's choice (assumption log 19). -/
def Obligations.ResetAbandonsOperation : Prop :=
  ∀ (s : State) (rest : List HostEvent), s.host = .reset :: rest →
    step s = .next { State.reset with host := rest }

/-! ### The host port -/

/-- R27, R31, R91 (`10_state.md`, `30_encoding.md`): the bits of `STATUS`. -/
def Obligations.StatusBitsAreLaidOut : Prop :=
  ∀ s : State,
    (s.status.getLsbD 0 = true ↔ s.phase ≠ .idle) ∧ s.status.getLsbD 1 = s.done ∧ s.status.getLsbD 2 = s.alphaValid ∧
    (s.err = .none → s.status.extractLsb' 3 3 = 0#3) ∧ (s.err = .invalidDigit → s.status.extractLsb' 3 3 = 1#3) ∧
    (s.err = .invalidSymbol → s.status.extractLsb' 3 3 = 2#3) ∧
    (s.err = .configError → s.status.extractLsb' 3 3 = 3#3) ∧ s.status.extractLsb' 6 2 = 0#2

/-- R25 (`10_state.md`), U8: what each host register reads as; `CMD` reads as 0; indices above 8 are refused. That `CMD`
and `IN_LEN` read so while busy too is the model's choice (assumption log 9), and so is the field the value is returned
in (assumption log 8). -/
def Obligations.HostRegisterReads : Prop :=
  ∀ s : State,
    hostAccess (.readReg 0) s = .next { s with readData := 0 } ∧
    hostAccess (.readReg 1) s = .next { s with readData := s.status.toNat } ∧
    hostAccess (.readReg 2) s = .next { s with readData := s.inLen } ∧
    (s.busy = false →
      hostAccess (.readReg 3) s = .next { s with readData := s.outLen } ∧
      hostAccess (.readReg 4) s = .next { s with readData := s.op64.toNat } ∧
      hostAccess (.readReg 5) s = .next { s with readData := s.errByte.toNat } ∧
      hostAccess (.readReg 6) s = .next { s with readData := s.errOff } ∧
      hostAccess (.readReg 7) s = .next { s with readData := s.errLen } ∧
      hostAccess (.readReg 8) s = .next { s with readData := s.errDetail.toNat }) ∧
    (∀ index, 9 ≤ index → hostAccess (.readReg index) s = .refused .noSuchRegister)

/-- R25 (`10_state.md`), U8: `IN_LEN` and `OP64` take what is written, `STATUS` ignores a write, `OUT_LEN`, `ERR_*` and
indices above 8 refuse it. The model's choices: a value wider than `OP64` or `CMD` is refused (assumption log 8), a write
of `STATUS` is ignored while busy too (assumption log 9), and `IN_LEN` takes every value (assumption log 5). -/
def Obligations.HostRegisterWrites : Prop :=
  ∀ (s : State) (value : Nat),
    hostAccess (.writeReg 1 value) s = .next s ∧
    (s.busy = false → hostAccess (.writeReg 2 value) s = .next { s with inLen := value }) ∧
    (s.busy = false → value < 2 ^ 64 →
      hostAccess (.writeReg 4 value) s = .next { s with op64 := BitVec.ofNat 64 value }) ∧
    (s.busy = false → 2 ^ 64 ≤ value → hostAccess (.writeReg 4 value) s = .refused .valueTooWide) ∧
    (s.busy = false → 256 ≤ value → hostAccess (.writeReg 0 value) s = .refused .valueTooWide) ∧
    (∀ index ∈ [3, 5, 6, 7, 8], hostAccess (.writeReg index value) s = .refused .readOnlyRegister) ∧
    (∀ index, 9 ≤ index → hostAccess (.writeReg index value) s = .refused .noSuchRegister)

/-- R34, R35, R37, U2: a host write of `IN[i]` changes that byte and no other; a host read returns the byte, and
faults where it holds no value. The model's choices: `IN` can be read while busy too (assumption log 9) and at or beyond
`IN_LEN` (assumption log 22), every index exists (assumption log 5), and what holds no value faults (assumption log 4). -/
def Obligations.BufferAccesses : Prop :=
  ∀ (s : State) (i : Nat),
    (∀ b, s.busy = false → s.inMem.wf →
      ∃ m : Memory, hostAccess (.writeIn i b) s = .next { s with inMem := m } ∧ m.wf ∧ m.read i = some b ∧
        ∀ a, a ≠ i → m.read a = s.inMem.read a) ∧
    (∀ b, s.inMem.read i = some b → hostAccess (.readIn i) s = .next { s with readData := b.toNat }) ∧
    (s.inMem.read i = none → hostAccess (.readIn i) s = .fault .inNoValue) ∧
    (∀ b, s.busy = false → s.outMem.read i = some b →
      hostAccess (.readOut i) s = .next { s with readData := b.toNat }) ∧
    (s.busy = false → s.outMem.read i = none → hostAccess (.readOut i) s = .fault .outNoValue)

/-- R55 (`20_memory.md`): a read changes nothing, and reading again returns the same. That what the port returned stands
in a field of the state is the model's choice (assumption log 8). -/
def Obligations.ReadsHaveNoSideEffect : Prop :=
  ∀ (s t : State) (e : HostEvent), (∃ k, e = .readReg k ∨ e = .readIn k ∨ e = .readOut k) →
    hostAccess e s = .next t → t = { s with readData := t.readData } ∧ hostAccess e t = .next t

/-- R60 (`20_memory.md`), R284, U7: while `BUSY` the accesses R60 lists are refused and `STATUS` can be read, with its
`BUSY` bit 1. -/
def Obligations.BusyBlockRefusesAccess : Prop :=
  ∀ s : State, s.busy = true →
    (∀ index value, index = 0 ∨ index = 2 ∨ index = 4 →
      hostAccess (.writeReg index value) s = .refused .accessWhileBusy) ∧
    (∀ i b, hostAccess (.writeIn i b) s = .refused .accessWhileBusy) ∧
    (∀ i, hostAccess (.readOut i) s = .refused .accessWhileBusy) ∧
    (∀ index, 3 ≤ index → index ≤ 8 → hostAccess (.readReg index) s = .refused .accessWhileBusy) ∧
    hostAccess (.readReg 1) s = .next { s with readData := s.status.toNat } ∧ s.status.getLsbD 0 = true

/-! ### ENC -/

/-- R160 (`42_radix58_encoder.md`): `ENC` of decimal digits gives one zero-symbol per leading `'0'` and then the base-58
numeral of the rest; with the rule's consequences for the length and the leading zero-symbols. -/
def Obligations.EncComputesBase58 : Prop :=
  ∀ (s : State) (d : List Byte), s.alphaValid = true → s.operand = d.map some → (∀ b ∈ d, isDecimal b) →
    ∃ t, exec .enc s = .next t ∧ t.Succeeded ∧ State.ConversionKept s t ∧
      let z := lz d 0x30#8
      let n := val10 (d.drop z)
      t.output = (List.replicate z s.alpha[(0 : Fin 58)] ++ rep58 s.alpha n).map some ∧
      (d.drop z = [] → t.outLen = z) ∧
      (∀ k, 58 ^ k ≤ n → n < 58 ^ (k + 1) → t.outLen = z + (k + 1)) ∧
      (s.alpha.toList.Nodup → ∀ out, t.output = out.map some → lz out s.alpha[(0 : Fin 58)] = z)

/-- R163, R251 (the fixed-width path): a non-digit in a remainder of 1 to 19 bytes ends `ENC` with `InvalidDigit`, the
segment being the whole remainder. That extent is the spec's own decision D8 on a point the source leaves open (U4),
which the model follows (assumption log 12). -/
def Obligations.EncReportsWholeShortRemainder : Prop :=
  ∀ (s : State) (d : List Byte), s.alphaValid = true → s.operand = d.map some →
    let z := lz d 0x30#8
    let m := d.length - z
    1 ≤ m → m ≤ 19 → (∃ b ∈ d.drop z, ¬isDecimal b) →
    ∃ t, exec .enc s = .next t ∧ t.FailedWith .invalidDigit 0#8 0#8 z m ∧ State.ConversionKept s t

/-- R163, R251, R53 (the limb path): the segment reported is the most significant chunk that holds a non-digit. That
extent is the spec's own decision D8 on a point the source leaves open (U4), which the model follows (assumption
log 12). -/
def Obligations.EncReportsMostSignificantBadChunk : Prop :=
  ∀ (s : State) (d : List Byte), s.alphaValid = true → s.operand = d.map some →
    let z := lz d 0x30#8
    let m := d.length - z
    let nl := (m + 16) / 17
    let flen := m - 17 * (nl - 1)
    let start := fun j => if j = 0 then z else z + flen + 17 * (j - 1)
    let len := fun j => if j = 0 then flen else 17
    20 ≤ m →
    ∀ j, j < nl → (∀ k, k < j → ∀ b ∈ (d.drop (start k)).take (len k), isDecimal b) →
      (∃ b ∈ (d.drop (start j)).take (len j), ¬isDecimal b) →
      ∃ t, exec .enc s = .next t ∧ t.FailedWith .invalidDigit 0#8 0#8 (start j) (len j) ∧ State.ConversionKept s t

/-- R163, R251: `ENC` ends with `InvalidDigit` exactly when the remainder holds a non-digit; the segment then lies in
the remainder and holds one; otherwise it ends without error. -/
def Obligations.EncFailsExactlyOnNonDigit : Prop :=
  ∀ (s : State) (d : List Byte), s.alphaValid = true → s.operand = d.map some →
    ∃ t, exec .enc s = .next t ∧ (t.err = .none ∨ t.err = .invalidDigit) ∧
      (t.err = .invalidDigit ↔ ∃ b ∈ d.drop (lz d 0x30#8), ¬isDecimal b) ∧
      (t.err = .invalidDigit →
        lz d 0x30#8 ≤ t.errOff ∧ t.errOff + t.errLen ≤ d.length ∧
        ∃ b ∈ (d.drop t.errOff).take t.errLen, ¬isDecimal b)

/-- R213, R151, R152, R235: the remainder length alone chooses the path of `ENC`, and the limb path leaves the registers
of R152: all limbs divided down to 0, the last digit emitted nonzero. The model's choices: `NL = 0` on the fixed-width
path, where the spec gives `NL` no value (assumption log 3), and that the scratch registers keep their last value when
the operation has ended (assumption log 13). -/
def Obligations.EncPathByRemainderLength : Prop :=
  ∀ (s : State) (d : List Byte), s.alphaValid = true → s.operand = d.map some → (∀ b ∈ d, isDecimal b) →
    ∃ t, exec .enc s = .next t ∧
      t.scratch.zc = lz d 0x30#8 ∧ t.scratch.m = d.length - lz d 0x30#8 ∧
      (t.scratch.m ≤ 19 → t.scratch.nl = 0 ∧ t.scratch.limb = []) ∧
      (20 ≤ t.scratch.m →
        t.scratch.nl = (t.scratch.m + 16) / 17 ∧ t.scratch.flen.toNat = t.scratch.m - 17 * (t.scratch.nl - 1) ∧
        t.scratch.limb = List.replicate t.scratch.nl 0#64 ∧ 1 ≤ t.scratch.carry.toNat ∧ t.scratch.carry.toNat ≤ 57)

/-- R53 (`20_memory.md`): the chunks of the encoder: the first 1 to 17 bytes long, every other 17, together exactly the
remainder. -/
def Obligations.ChunksPartitionRemainder : Prop :=
  ∀ (operand : List (Option Byte)) (zc m : Nat), 20 ≤ m → operand.length = zc + m →
    let nl := chunkCount m
    let flen := firstChunkLen m
    17 * (nl - 1) < m ∧ m ≤ 17 * nl ∧ 1 ≤ flen ∧ flen ≤ 17 ∧ flen + 17 * (nl - 1) = m ∧
    chunkBytes operand zc flen 0 = (operand.drop zc).take flen ∧
    (∀ j, 1 ≤ j → j < nl →
      chunkBytes operand zc flen j = (operand.drop (zc + flen + 17 * (j - 1))).take 17 ∧
      (chunkBytes operand zc flen j).length = 17) ∧
    (List.range nl).flatMap (chunkBytes operand zc flen) = operand.drop zc

/-- R156, R233, R234: one div-58 sweep over bounded limbs, in 64-bit arithmetic, leaves the number divided by 58, the
remainder in `CARRY`, and every limb bounded. -/
def Obligations.DivSweepDividesBy58 : Prop :=
  ∀ (limbs : List Word) (t : Word), limbsBounded limbs →
    let r := sweepDiv58 0#64 t limbs
    r.limb.length = limbs.length ∧ limbsBounded r.limb ∧ limbsMsf r.limb = limbsMsf limbs / 58 ∧
    r.carry.toNat = limbsMsf limbs % 58

/-- R153, R161, R235: the encoder's loop ends within `M` passes on a number below `10^M`, every limb is then 0, and the
digits emitted are its base-58 digits, least significant first (so the model's bound on the passes cuts nothing off,
assumption log 15). -/
def Obligations.EncLoopEndsAtZero : Prop :=
  ∀ (m : Nat) (limbs : List Word) (ph : Phase), limbsBounded limbs → limbsMsf limbs < 10 ^ m →
    let r := EncLoop.run m { phase := ph, limb := limbs, head := 0, carry := 0#64, t := 0#64, emitted := [] }
    r.more = false ∧ (∀ x ∈ r.limb, x = 0#64) ∧ r.limb.length = limbs.length ∧
    r.emitted.map BitVec.toNat = Nat.digits 58 (limbsMsf limbs)

/-- R154 (`42_radix58_encoder.md`): trimming has no semantic effect: zero limbs at the most significant end stay zero
in a sweep and change neither the other limbs nor the carry. -/
def Obligations.TrimHasNoEffect : Prop :=
  ∀ (k : Nat) (limbs : List Word) (t : Word),
    (sweepDiv58 0#64 t (List.replicate k 0#64 ++ limbs)).limb =
      List.replicate k 0#64 ++ (sweepDiv58 0#64 t limbs).limb ∧
    (sweepDiv58 0#64 t (List.replicate k 0#64 ++ limbs)).carry = (sweepDiv58 0#64 t limbs).carry

/-! ### DEC -/

/-- R188 (`43_radix58_decoder.md`): `DEC` of alphabet members gives one `'0'` per counted leading zero-symbol (never
counting the last byte) and then the decimal numeral of the rest; the empty input gives the empty output. -/
def Obligations.DecComputesDecimal : Prop :=
  ∀ (s : State) (d : List Byte), s.alphaValid = true → s.operand = d.map some →
    (∀ b ∈ d, (valueOf s.rev b).isSome = true) →
    ∃ t, exec .dec s = .next t ∧ t.Succeeded ∧ State.ConversionKept s t ∧
      (d = [] → t.output = []) ∧
      (d ≠ [] →
        let z := min (lz d s.alpha[(0 : Fin 58)]) (d.length - 1)
        t.output = (List.replicate z 0x30#8 ++ dec (val58 s.rev (d.drop z))).map some)

/-- R213, R181, R183: the remainder length alone chooses the path of `DEC`; the limb path ends with bounded limbs, the
most significant one nonzero, holding the value of the remainder; `V` is the value of the last symbol. The model's
choices: `NL = 0` on the fixed-width path, where the spec gives `NL` no value (assumption log 3), and that `V`, `NL` and
the limbs keep their last value when the operation has ended (assumption log 13). -/
def Obligations.DecPathByRemainderLength : Prop :=
  ∀ (s : State) (d : List Byte), s.alphaValid = true → d ≠ [] → s.operand = d.map some →
    (∀ b ∈ d, (valueOf s.rev b).isSome = true) →
    ∃ t, exec .dec s = .next t ∧
      let z := min (lz d s.alpha[(0 : Fin 58)]) (d.length - 1)
      t.scratch.zc = z ∧ t.scratch.m = d.length - z ∧ t.scratch.v = d.getLast?.bind (valueOf s.rev) ∧
      (t.scratch.m ≤ 10 → t.scratch.nl = 0 ∧ t.scratch.limb = []) ∧
      (11 ≤ t.scratch.m →
        t.scratch.nl = t.scratch.limb.length ∧ limbsBounded t.scratch.limb ∧
        t.scratch.limb.getLast? ≠ some 0#64 ∧ limbsLsf t.scratch.limb = val58 s.rev (d.drop z))

/-- R185, R236: one mul-58-add sweep over bounded limbs, in 64-bit arithmetic, leaves `58 N + v`, every limb bounded and
the most significant one nonzero. -/
def Obligations.MulSweepMultipliesBy58 : Prop :=
  ∀ (r : DecLoop) (v : Fin 58), limbsBounded r.limb → r.limb.getLast? ≠ some 0#64 →
    let q := r.absorb v
    limbsBounded q.limb ∧ q.limb.getLast? ≠ some 0#64 ∧ limbsLsf q.limb = 58 * limbsLsf r.limb + v.val ∧
    q.carry.toNat ≤ 57 ∧ (q.limb.length = r.limb.length ∨ q.limb.length = r.limb.length + 1)

/-- R252, R189 (`60_exceptions.md`, `43_radix58_decoder.md`): `DEC` and `DECU64` end with `InvalidSymbol` at the leftmost
byte that is no symbol, whatever follows it, and only if there is one. -/
def Obligations.LeftmostAbsentSymbolIsReported : Prop :=
  ∀ (i : Instr) (s : State), i = .dec ∨ i = .decu64 → s.alphaValid = true → AlphabetOk s.alpha s.rev →
    (∀ (before : List Byte) (b : Byte) (rest : List (Option Byte)),
      s.operand = before.map some ++ some b :: rest → (∀ x ∈ before, (valueOf s.rev x).isSome = true) →
      valueOf s.rev b = none →
      ∃ t, exec i s = .next t ∧ t.FailedWith .invalidSymbol 0#8 b before.length 1 ∧ State.ConversionKept s t) ∧
    (∀ t, exec i s = .next t → t.err = .invalidSymbol → ∃ b, some b ∈ s.operand ∧ valueOf s.rev b = none)

/-! ### The two paths -/

/-- R214, R139 (`44_leading_zero_dispatch.md`, `41_fixed_width_u64.md`): below the thresholds the limb path would give
the same bytes as the fixed-width path. -/
def Obligations.PathsAgreeBelowThreshold : Prop :=
  ∀ (s : State) (d : List Byte), s.operand = d.map some → s.scratch.zc + s.scratch.m = d.length →
    (1 ≤ s.scratch.m → s.scratch.m ≤ 19 → (∀ b ∈ d.drop s.scratch.zc, isDecimal b) →
      ∃ t u, encFixed s = .ok t ∧ encLimbPath s = .ok u ∧ u.outLen = t.outLen ∧ u.outMem = t.outMem) ∧
    (s.scratch.m ≤ 10 → (∀ b ∈ d.drop s.scratch.zc, (valueOf s.rev b).isSome = true) →
      ∃ t u, decFixed s = .ok t ∧ decLimbPath s = .ok u ∧ u.outLen = t.outLen ∧ u.outMem = t.outMem)

/-- R58 (`20_memory.md`): how much room a result and its limbs can need. That `NL` can be read off when the operation
has ended, and is 0 where none was used, is the model's choice (assumption log 3, 13). -/
def Obligations.ResultFitsDerivedCapacity : Prop :=
  ∀ (s t : State) (d : List Byte), s.Inv → s.operand = d.map some →
    (exec .enc s = .next t → t.outLen ≤ s.inLen ∧ t.scratch.nl ≤ (s.inLen + 16) / 17) ∧
    (exec .dec s = .next t → t.outLen ≤ 2 * s.inLen ∧ t.scratch.nl ≤ (2 * s.inLen + 16) / 17) ∧
    (exec .encu64 s = .next t → t.outLen ≤ 11)

/-! ### ENCU64, DECU64 -/

/-- R131, R130: `ENCU64` gives the single zero-symbol for 0 and the base-58 numeral of `OP64` otherwise; `OP64` is not
modified. -/
def Obligations.Encu64ComputesBase58 : Prop :=
  ∀ s : State, s.alphaValid = true →
    ∃ t, exec .encu64 s = .next t ∧ t.Succeeded ∧ State.ConversionKept s t ∧
      t.output = (if s.op64 = 0#64 then [s.alpha[(0 : Fin 58)]] else rep58 s.alpha s.op64.toNat).map some

/-- R132 (`41_fixed_width_u64.md`): the length of the `ENCU64` result. -/
def Obligations.Encu64ResultLength : Prop :=
  ∀ s : State, s.alphaValid = true →
    ∃ t, exec .encu64 s = .next t ∧
      (s.op64.toNat ≤ 57 → t.outLen = 1) ∧
      (∀ k, 2 ≤ k → k ≤ 10 → 58 ^ (k - 1) ≤ s.op64.toNat → s.op64.toNat ≤ 58 ^ k - 1 → t.outLen = k) ∧
      (58 ^ 10 ≤ s.op64.toNat → t.outLen = 11) ∧ 1 ≤ t.outLen ∧ t.outLen ≤ 11

/-- R134, R133: `DECU64` of alphabet members leaves their value modulo `2^64` in `OP64`, no error, `OUT_LEN` 0. -/
def Obligations.Decu64FoldsModulo : Prop :=
  ∀ (s : State) (d : List Byte), s.alphaValid = true → s.operand = d.map some →
    (∀ b ∈ d, (valueOf s.rev b).isSome = true) →
    ∃ t, exec .decu64 s = .next t ∧ t.Succeeded ∧ State.InputKept s t ∧ State.AlphabetKept s t ∧
      t.op64.toNat = val58 s.rev d % 2 ^ 64 ∧ t.outLen = 0 ∧ ∀ a, t.outMem.read a = none

/-- R237: a symbol followed by 64 or more further symbols contributes nothing to the result of `DECU64`. -/
def Obligations.Decu64ForgetsFarSymbols : Prop :=
  ∀ (s u : State) (d e : List Byte), s.alphaValid = true → State.AlphabetKept s u → 64 ≤ e.length →
    s.operand = (d ++ e).map some → u.operand = e.map some → (∀ b ∈ d ++ e, (valueOf s.rev b).isSome = true) →
    ∃ t w, exec .decu64 s = .next t ∧ exec .decu64 u = .next w ∧ t.op64 = w.op64

/-! ### Round trips -/

/-- R137 (`41_fixed_width_u64.md`): `DECU64` of what `ENCU64` gives is the number again, and `ENC` of its decimal numeral
gives the same bytes as `ENCU64`. -/
def Obligations.U64RoundTripAndAgreement : Prop :=
  ∀ s : State, s.alphaValid = true → AlphabetOk s.alpha s.rev →
    ∃ t, exec .encu64 s = .next t ∧ t.Succeeded ∧
      (∀ u : State, State.AlphabetKept s u → u.operand = t.output →
        ∃ w, exec .decu64 u = .next w ∧ w.Succeeded ∧ w.op64 = s.op64) ∧
      (∀ u : State, State.AlphabetKept s u → u.operand = (dec s.op64.toNat).map some →
        ∃ w, exec .enc u = .next w ∧ w.Succeeded ∧ w.output = t.output)

/-- R162 (`42_radix58_encoder.md`): `DEC` of what `ENC` gives is the digit string again, leading zeros and the empty
string included. -/
def Obligations.DecUndoesEnc : Prop :=
  ∀ (s : State) (d : List Byte), s.alphaValid = true → AlphabetOk s.alpha s.rev → s.operand = d.map some →
    (∀ b ∈ d, isDecimal b) →
    ∃ t, exec .enc s = .next t ∧ t.Succeeded ∧
      ∀ u : State, State.AlphabetKept s u → u.operand = t.output →
        ∃ w, exec .dec u = .next w ∧ w.Succeeded ∧ w.output = s.operand

/-- R190 (`43_radix58_decoder.md`, "Conversely"): `ENC` of what `DEC` gives is the symbol string again. -/
def Obligations.EncUndoesDec : Prop :=
  ∀ (s : State) (d : List Byte), s.alphaValid = true → AlphabetOk s.alpha s.rev → s.operand = d.map some →
    (∀ b ∈ d, (valueOf s.rev b).isSome = true) →
    ∃ t, exec .dec s = .next t ∧ t.Succeeded ∧
      ∀ u : State, State.AlphabetKept s u → u.operand = t.output →
        ∃ w, exec .enc u = .next w ∧ w.Succeeded ∧ w.output = s.operand

/-! ### The alphabet -/

/-- R112 (`40_alphabet.md`): `ALPHASEL` of a preset loads its table, with the reverse table that agrees, and of any other
name fails with cause 1 and leaves the alphabet as it was. The tables themselves are general knowledge (assumption
log 10). -/
def Obligations.AlphaselSelectsPreset : Prop :=
  (∀ (s : State) (p : Preset), p ≠ .other →
    ∃ t, exec (.alphasel p) s = .next t ∧ t.Succeeded ∧ State.InputKept s t ∧ t.op64 = s.op64 ∧
      presetTable p = some t.alpha ∧ AlphabetOk t.alpha t.rev ∧ t.alphaValid = true ∧ t.status = 0x06#8 ∧
      t.outLen = 0 ∧ ∀ a, t.outMem.read a = none) ∧
  (∀ s : State, ∃ t, exec (.alphasel .other) s = .next t ∧ t.FailedWith .configError 1#8 0#8 0 0 ∧
    State.ConversionKept s t)

/-- R117 and the set of symbols of R115 (`40_alphabet.md`): the symbols of a preset are pairwise distinct, its reverse
table gives each value back, and they are the ASCII letters and digits less `'0'`, `'I'`, `'O'`, `'l'`. The tables
themselves are general knowledge (assumption log 10). -/
def Obligations.PresetTablesAreAlphabets : Prop :=
  ∀ (p : Preset) (table : Vector Byte 58), presetTable p = some table →
    table.toList.Nodup ∧ (∀ v : Fin 58, valueOf (reverseTable table) table[v] = some v) ∧
    ∀ b : Byte, b ∈ table.toList ↔
      ((0x30 ≤ b.toNat ∧ b.toNat ≤ 0x39) ∨ (0x41 ≤ b.toNat ∧ b.toNat ≤ 0x5A) ∨ (0x61 ≤ b.toNat ∧ b.toNat ≤ 0x7A)) ∧
      b ∉ [0x30#8, 0x49#8, 0x4F#8, 0x6C#8]

/-- R113: `ALPHALOAD` of 58 distinct bytes loads them in order, with the reverse table that agrees. -/
def Obligations.AlphaloadLoadsDistinctBytes : Prop :=
  ∀ (s : State) (d : List Byte), s.operand = d.map some → d.length = 58 → d.Nodup →
    ∃ t, exec .alphaload s = .next t ∧ t.Succeeded ∧ State.InputKept s t ∧ t.op64 = s.op64 ∧
      t.alpha.toList = d ∧ AlphabetOk t.alpha t.rev ∧ t.alphaValid = true ∧
      t.outLen = 0 ∧ ∀ a, t.outMem.read a = none

/-- R113, R253: `ALPHALOAD` tests the count first: with `IN_LEN` other than 58 it fails with cause 2 and `ERR_LEN =
IN_LEN`, whatever `IN` holds; the alphabet stays. -/
def Obligations.AlphaloadRefusesWrongCount : Prop :=
  ∀ s : State, s.inLen ≠ 58 →
    ∃ t, exec .alphaload s = .next t ∧ t.FailedWith .configError 2#8 0#8 0 s.inLen ∧ State.ConversionKept s t

/-- R113, R253: `ALPHALOAD` of 58 bytes with a repeated one fails with cause 3 at the smallest index whose byte occurred
before; the alphabet stays. -/
def Obligations.AlphaloadReportsFirstRepetition : Prop :=
  ∀ (s : State) (before : List Byte) (b : Byte) (rest : List (Option Byte)), s.inLen = 58 →
    s.operand = before.map some ++ some b :: rest → before.Nodup → b ∈ before →
    ∃ t, exec .alphaload s = .next t ∧ t.FailedWith .configError 3#8 b before.length 1 ∧ State.ConversionKept s t

/-- R114 (`40_alphabet.md`): the model's reverse table is the one the two loops of R114 build. -/
def Obligations.ReverseTableIsTwoLoops : Prop :=
  ∀ alpha : Vector Byte 58, alpha.toList.Nodup →
    reverseTable alpha =
      (List.finRange 58).foldl (fun r v => r.set alpha[v].toNat (some v) alpha[v].isLt) (Vector.replicate 256 none)

/-- R111: the laws of the lookups whenever `ALPHA_VALID = 1`, in every state the invariant allows. -/
def Obligations.AlphabetLookupLaws : Prop :=
  ∀ s : State, s.Inv → s.alphaValid = true →
    (∀ v : Fin 58, valueOf s.rev (s.symbolAt v) = some v) ∧
    (∀ (b : Byte) (v : Fin 58), valueOf s.rev b = some v → s.symbolAt v = b) ∧
    ((List.range 256).filter fun b => (valueOf s.rev (BitVec.ofNat 8 b)).isSome).length = 58

/-! ### Errors, frames, the whole machine -/

/-- R254 (`60_exceptions.md`): a conversion with `ALPHA_VALID = 0` ends with `ConfigError` cause 4, whatever `IN` and the
tables hold; nothing else changes. -/
def Obligations.ConversionsNeedAlphabet : Prop :=
  ∀ (i : Instr) (s : State), i = .enc ∨ i = .dec ∨ i = .encu64 ∨ i = .decu64 → s.alphaValid = false →
    ∃ t, exec i s = .next t ∧ t.FailedWith .configError 4#8 0#8 0 0 ∧ State.ConversionKept s t

/-- R250, R258: which operation can end with which error kind, and what `ERR_DETAIL` then is. -/
def Obligations.ErrorKindsPerOperation : Prop :=
  ∀ (i : Instr) (s t : State), exec i s = .next t →
    (t.err = .invalidDigit → i = .enc) ∧ (t.err = .invalidSymbol → i = .dec ∨ i = .decu64) ∧
    (t.err = .configError →
      (i = .alphasel .other ∧ t.errDetail = 1#8) ∨
      (i = .alphaload ∧ (t.errDetail = 2#8 ∨ t.errDetail = 3#8)) ∨
      ((i = .enc ∨ i = .dec ∨ i = .encu64 ∨ i = .decu64) ∧ s.alphaValid = false ∧ t.errDetail = 4#8))

/-- R255, R256: an operation that ends with an error leaves no output, and `OP64`, the alphabet and `IN` as they were. -/
def Obligations.ErrorLeavesNoResult : Prop :=
  ∀ (i : Instr) (s t : State), exec i s = .next t → t.err ≠ .none →
    t.outLen = 0 ∧ (∀ a, t.outMem.read a = none) ∧ State.ConversionKept s t

/-- R86, R39: what `ENC`, `DEC` and `ENCU64` leave alone (everything but `OUT`, `OUT_LEN`, `STATUS`, `ERR_*` and the
scratch state), and what `DECU64` leaves alone (`OP64` too unless it succeeds). -/
def Obligations.ConversionFrame : Prop :=
  (∀ (i : Instr) (s t : State), i = .enc ∨ i = .dec ∨ i = .encu64 → exec i s = .next t → State.ConversionKept s t) ∧
  (∀ s t : State, exec .decu64 s = .next t →
    State.InputKept s t ∧ State.AlphabetKept s t ∧ t.outLen = 0 ∧ (∀ a, t.outMem.read a = none) ∧
    (t.err ≠ .none → t.op64 = s.op64))

/-- R86, R24, R39: what `ALPHASEL` and `ALPHALOAD` leave alone: `IN`, `OP64`, and the alphabet too unless they
succeed; `OUT` holds nothing. -/
def Obligations.ConfigurationFrame : Prop :=
  ∀ (i : Instr) (s t : State), (∃ p, i = .alphasel p) ∨ i = .alphaload → exec i s = .next t →
    State.InputKept s t ∧ t.op64 = s.op64 ∧ t.outLen = 0 ∧ (∀ a, t.outMem.read a = none) ∧
    (t.err ≠ .none → State.AlphabetKept s t)

/-- R86, R216: an operation never ends in a refusal; it faults only when a byte of the operand holds no value (U2, U15;
assumption log 4); `ENCU64` and `ALPHASEL`, which read no byte of `IN`, always end; and at its end the block is idle with `DONE`
set. -/
def Obligations.OperationsEnd : Prop :=
  ∀ (i : Instr) (s : State),
    (∀ r, exec i s ≠ .refused r) ∧ (∀ f, exec i s = .fault f → f = .inNoValue ∧ none ∈ s.operand) ∧
    (i = .encu64 ∨ (∃ p, i = .alphasel p) → ∃ t, exec i s = .next t) ∧
    (∀ t, exec i s = .next t → t.phase = .idle ∧ t.busy = false ∧ t.done = true ∧ t.cmd = none)

/-- R37, U2, U15 (assumption log 4): an operation that reaches a byte of `IN` that holds no value stops there: every
byte before it was one the operation accepts. -/
def Obligations.UnwrittenInputByteFaults : Prop :=
  ∀ (s : State) (before : List Byte) (rest : List (Option Byte)), s.operand = before.map some ++ none :: rest →
    (s.alphaValid = true → (∀ b ∈ before, isDecimal b) → exec .enc s = .fault .inNoValue) ∧
    (s.alphaValid = true → (∀ b ∈ before, (valueOf s.rev b).isSome = true) →
      exec .dec s = .fault .inNoValue ∧ exec .decu64 s = .fault .inNoValue) ∧
    (s.inLen = 58 → before.Nodup → exec .alphaload s = .fault .inNoValue)

/-- R21 (`10_state.md`): the result of a conversion is a function of the alphabet configuration and the operands of that
command, and of nothing else. -/
def Obligations.ResultDependsOnlyOnOperands : Prop :=
  ∀ (i : Instr) (s u t : State), i = .enc ∨ i = .dec ∨ i = .encu64 ∨ i = .decu64 → State.AlphabetKept s u →
    (i = .encu64 → u.op64 = s.op64) → (i ≠ .encu64 → u.operand = s.operand) → exec i s = .next t →
    ∃ w, exec i u = .next w ∧ w.output = t.output ∧ w.outLen = t.outLen ∧ w.status = t.status ∧
      w.errByte = t.errByte ∧ w.errOff = t.errOff ∧ w.errLen = t.errLen ∧ w.errDetail = t.errDetail ∧
      (i = .decu64 → t.err = .none → w.op64 = t.op64)

/-- R60, R84, U1, U7, U8: a host that keeps to the protocol is never refused. What `protocolOk` lets a host do while
busy, and the values it lets it write, follow the model's choices (assumption log 8, 9). -/
def Obligations.ProtocolIsNeverRefused : Prop :=
  ∀ s : State, s.Inv → protocolOk s = true → ∀ r, step s ≠ .refused r

/-- The invariant of the machine holds right after reset. -/
def Obligations.InvariantHoldsAtReset : Prop := State.reset.Inv

/-- Every step keeps the invariant: canonical buffers, `OUT` exactly up to `OUT_LEN` (R35), the alphabet and its reverse
table (R22 to R24), `BUSY` and `DONE` (R27), the error registers (R30, R91, R256), the limbs, `CARRY` and `FLEN` (R32,
R33). The form of the buffers and the latched command are the model's (assumption log 4, 6), and so is that the scratch
registers keep a value between operations (assumption log 3, 13). -/
def Obligations.StepKeepsInvariant : Prop :=
  ∀ s t : State, s.Inv → step s = .next t → t.Inv
end

