-- ==== Sys2Proof/Laws/State.lean ====
section
/-! SUPPORT. One lemma per field per named update of the state, each true by rfl, so that no later proof unfolds a
record update. -/

namespace Sys2Proof.Machine

section
variable (s : State) (ph : Phase)

@[simp] theorem State.begin_alpha : (s.begin ph).alpha = s.alpha := rfl
@[simp] theorem State.begin_rev : (s.begin ph).rev = s.rev := rfl
@[simp] theorem State.begin_alphaValid : (s.begin ph).alphaValid = s.alphaValid := rfl
@[simp] theorem State.begin_cmd : (s.begin ph).cmd = s.cmd := rfl
@[simp] theorem State.begin_done : (s.begin ph).done = false := rfl
@[simp] theorem State.begin_err : (s.begin ph).err = .none := rfl
@[simp] theorem State.begin_inLen : (s.begin ph).inLen = s.inLen := rfl
@[simp] theorem State.begin_outLen : (s.begin ph).outLen = 0 := rfl
@[simp] theorem State.begin_op64 : (s.begin ph).op64 = s.op64 := rfl
@[simp] theorem State.begin_errByte : (s.begin ph).errByte = 0#8 := rfl
@[simp] theorem State.begin_errOff : (s.begin ph).errOff = 0 := rfl
@[simp] theorem State.begin_errLen : (s.begin ph).errLen = 0 := rfl
@[simp] theorem State.begin_errDetail : (s.begin ph).errDetail = 0#8 := rfl
@[simp] theorem State.begin_phase : (s.begin ph).phase = ph := rfl
@[simp] theorem State.begin_scratch : (s.begin ph).scratch = Scratch.reset := rfl
@[simp] theorem State.begin_inMem : (s.begin ph).inMem = s.inMem := rfl
@[simp] theorem State.begin_outMem : (s.begin ph).outMem = [] := rfl
@[simp] theorem State.begin_host : (s.begin ph).host = s.host := rfl
@[simp] theorem State.begin_readData : (s.begin ph).readData = s.readData := rfl
@[simp] theorem State.begin_operand : (s.begin ph).operand = s.operand := rfl
@[simp] theorem State.begin_symbolAt (v : Fin 58) : (s.begin ph).symbolAt v = s.symbolAt v := rfl
@[simp] theorem State.begin_zeroSymbol : (s.begin ph).zeroSymbol = s.zeroSymbol := rfl
@[simp] theorem State.begin_symbols (ds : List Word) : (s.begin ph).symbols ds = s.symbols ds := rfl

end

section
variable (s : State)

@[simp] theorem State.endOperation_alpha : (s.endOperation).alpha = s.alpha := rfl
@[simp] theorem State.endOperation_rev : (s.endOperation).rev = s.rev := rfl
@[simp] theorem State.endOperation_alphaValid : (s.endOperation).alphaValid = s.alphaValid := rfl
@[simp] theorem State.endOperation_cmd : (s.endOperation).cmd = none := rfl
@[simp] theorem State.endOperation_done : (s.endOperation).done = true := rfl
@[simp] theorem State.endOperation_err : (s.endOperation).err = s.err := rfl
@[simp] theorem State.endOperation_inLen : (s.endOperation).inLen = s.inLen := rfl
@[simp] theorem State.endOperation_outLen : (s.endOperation).outLen = s.outLen := rfl
@[simp] theorem State.endOperation_op64 : (s.endOperation).op64 = s.op64 := rfl
@[simp] theorem State.endOperation_errByte : (s.endOperation).errByte = s.errByte := rfl
@[simp] theorem State.endOperation_errOff : (s.endOperation).errOff = s.errOff := rfl
@[simp] theorem State.endOperation_errLen : (s.endOperation).errLen = s.errLen := rfl
@[simp] theorem State.endOperation_errDetail : (s.endOperation).errDetail = s.errDetail := rfl
@[simp] theorem State.endOperation_phase : (s.endOperation).phase = .idle := rfl
@[simp] theorem State.endOperation_scratch : (s.endOperation).scratch = s.scratch := rfl
@[simp] theorem State.endOperation_inMem : (s.endOperation).inMem = s.inMem := rfl
@[simp] theorem State.endOperation_outMem : (s.endOperation).outMem = s.outMem := rfl
@[simp] theorem State.endOperation_host : (s.endOperation).host = s.host := rfl
@[simp] theorem State.endOperation_readData : (s.endOperation).readData = s.readData := rfl
@[simp] theorem State.endOperation_operand : (s.endOperation).operand = s.operand := rfl
@[simp] theorem State.endOperation_symbolAt (v : Fin 58) : (s.endOperation).symbolAt v = s.symbolAt v := rfl
@[simp] theorem State.endOperation_zeroSymbol : (s.endOperation).zeroSymbol = s.zeroSymbol := rfl
@[simp] theorem State.endOperation_symbols (ds : List Word) : (s.endOperation).symbols ds = s.symbols ds := rfl

end

section
variable (s : State) (e : CodecError)

@[simp] theorem State.raise_alpha : (s.raise e).alpha = s.alpha := rfl
@[simp] theorem State.raise_rev : (s.raise e).rev = s.rev := rfl
@[simp] theorem State.raise_alphaValid : (s.raise e).alphaValid = s.alphaValid := rfl
@[simp] theorem State.raise_cmd : (s.raise e).cmd = none := rfl
@[simp] theorem State.raise_done : (s.raise e).done = true := rfl
@[simp] theorem State.raise_err : (s.raise e).err = e.kind := rfl
@[simp] theorem State.raise_inLen : (s.raise e).inLen = s.inLen := rfl
@[simp] theorem State.raise_outLen : (s.raise e).outLen = 0 := rfl
@[simp] theorem State.raise_op64 : (s.raise e).op64 = s.op64 := rfl
@[simp] theorem State.raise_errByte : (s.raise e).errByte = e.byte := rfl
@[simp] theorem State.raise_errOff : (s.raise e).errOff = e.off := rfl
@[simp] theorem State.raise_errLen : (s.raise e).errLen = e.len := rfl
@[simp] theorem State.raise_errDetail : (s.raise e).errDetail = e.detail := rfl
@[simp] theorem State.raise_phase : (s.raise e).phase = .idle := rfl
@[simp] theorem State.raise_scratch : (s.raise e).scratch = Scratch.reset := rfl
@[simp] theorem State.raise_inMem : (s.raise e).inMem = s.inMem := rfl
@[simp] theorem State.raise_outMem : (s.raise e).outMem = [] := rfl
@[simp] theorem State.raise_host : (s.raise e).host = s.host := rfl
@[simp] theorem State.raise_readData : (s.raise e).readData = s.readData := rfl
@[simp] theorem State.raise_operand : (s.raise e).operand = s.operand := rfl
@[simp] theorem State.raise_symbolAt (v : Fin 58) : (s.raise e).symbolAt v = s.symbolAt v := rfl
@[simp] theorem State.raise_zeroSymbol : (s.raise e).zeroSymbol = s.zeroSymbol := rfl
@[simp] theorem State.raise_symbols (ds : List Word) : (s.raise e).symbols ds = s.symbols ds := rfl

end

section
variable (s : State) (bs : List Byte)

@[simp] theorem State.emitAll_alpha : (s.emitAll bs).alpha = s.alpha := rfl
@[simp] theorem State.emitAll_rev : (s.emitAll bs).rev = s.rev := rfl
@[simp] theorem State.emitAll_alphaValid : (s.emitAll bs).alphaValid = s.alphaValid := rfl
@[simp] theorem State.emitAll_cmd : (s.emitAll bs).cmd = s.cmd := rfl
@[simp] theorem State.emitAll_done : (s.emitAll bs).done = s.done := rfl
@[simp] theorem State.emitAll_err : (s.emitAll bs).err = s.err := rfl
@[simp] theorem State.emitAll_inLen : (s.emitAll bs).inLen = s.inLen := rfl
@[simp] theorem State.emitAll_outLen : (s.emitAll bs).outLen = s.outLen + bs.length := rfl
@[simp] theorem State.emitAll_op64 : (s.emitAll bs).op64 = s.op64 := rfl
@[simp] theorem State.emitAll_errByte : (s.emitAll bs).errByte = s.errByte := rfl
@[simp] theorem State.emitAll_errOff : (s.emitAll bs).errOff = s.errOff := rfl
@[simp] theorem State.emitAll_errLen : (s.emitAll bs).errLen = s.errLen := rfl
@[simp] theorem State.emitAll_errDetail : (s.emitAll bs).errDetail = s.errDetail := rfl
@[simp] theorem State.emitAll_phase : (s.emitAll bs).phase = s.phase := rfl
@[simp] theorem State.emitAll_scratch : (s.emitAll bs).scratch = s.scratch := rfl
@[simp] theorem State.emitAll_inMem : (s.emitAll bs).inMem = s.inMem := rfl
@[simp] theorem State.emitAll_outMem : (s.emitAll bs).outMem = s.outMem.store s.outLen bs := rfl
@[simp] theorem State.emitAll_host : (s.emitAll bs).host = s.host := rfl
@[simp] theorem State.emitAll_readData : (s.emitAll bs).readData = s.readData := rfl
@[simp] theorem State.emitAll_operand : (s.emitAll bs).operand = s.operand := rfl
@[simp] theorem State.emitAll_symbolAt (v : Fin 58) : (s.emitAll bs).symbolAt v = s.symbolAt v := rfl
@[simp] theorem State.emitAll_zeroSymbol : (s.emitAll bs).zeroSymbol = s.zeroSymbol := rfl
@[simp] theorem State.emitAll_symbols (ds : List Word) : (s.emitAll bs).symbols ds = s.symbols ds := rfl

end

section
variable (s : State) (a : Vector Byte 58)

@[simp] theorem State.setAlphabet_alpha : (s.setAlphabet a).alpha = a := rfl
@[simp] theorem State.setAlphabet_rev : (s.setAlphabet a).rev = reverseTable a := rfl
@[simp] theorem State.setAlphabet_alphaValid : (s.setAlphabet a).alphaValid = true := rfl
@[simp] theorem State.setAlphabet_cmd : (s.setAlphabet a).cmd = s.cmd := rfl
@[simp] theorem State.setAlphabet_done : (s.setAlphabet a).done = s.done := rfl
@[simp] theorem State.setAlphabet_err : (s.setAlphabet a).err = s.err := rfl
@[simp] theorem State.setAlphabet_inLen : (s.setAlphabet a).inLen = s.inLen := rfl
@[simp] theorem State.setAlphabet_outLen : (s.setAlphabet a).outLen = s.outLen := rfl
@[simp] theorem State.setAlphabet_op64 : (s.setAlphabet a).op64 = s.op64 := rfl
@[simp] theorem State.setAlphabet_errByte : (s.setAlphabet a).errByte = s.errByte := rfl
@[simp] theorem State.setAlphabet_errOff : (s.setAlphabet a).errOff = s.errOff := rfl
@[simp] theorem State.setAlphabet_errLen : (s.setAlphabet a).errLen = s.errLen := rfl
@[simp] theorem State.setAlphabet_errDetail : (s.setAlphabet a).errDetail = s.errDetail := rfl
@[simp] theorem State.setAlphabet_phase : (s.setAlphabet a).phase = s.phase := rfl
@[simp] theorem State.setAlphabet_scratch : (s.setAlphabet a).scratch = s.scratch := rfl
@[simp] theorem State.setAlphabet_inMem : (s.setAlphabet a).inMem = s.inMem := rfl
@[simp] theorem State.setAlphabet_outMem : (s.setAlphabet a).outMem = s.outMem := rfl
@[simp] theorem State.setAlphabet_host : (s.setAlphabet a).host = s.host := rfl
@[simp] theorem State.setAlphabet_readData : (s.setAlphabet a).readData = s.readData := rfl
@[simp] theorem State.setAlphabet_operand : (s.setAlphabet a).operand = s.operand := rfl

end

section
variable (s : State) (zc : Nat)

@[simp] theorem State.noteZeroRun_alpha : (s.noteZeroRun zc).alpha = s.alpha := rfl
@[simp] theorem State.noteZeroRun_rev : (s.noteZeroRun zc).rev = s.rev := rfl
@[simp] theorem State.noteZeroRun_alphaValid : (s.noteZeroRun zc).alphaValid = s.alphaValid := rfl
@[simp] theorem State.noteZeroRun_cmd : (s.noteZeroRun zc).cmd = s.cmd := rfl
@[simp] theorem State.noteZeroRun_done : (s.noteZeroRun zc).done = s.done := rfl
@[simp] theorem State.noteZeroRun_err : (s.noteZeroRun zc).err = s.err := rfl
@[simp] theorem State.noteZeroRun_inLen : (s.noteZeroRun zc).inLen = s.inLen := rfl
@[simp] theorem State.noteZeroRun_outLen : (s.noteZeroRun zc).outLen = s.outLen := rfl
@[simp] theorem State.noteZeroRun_op64 : (s.noteZeroRun zc).op64 = s.op64 := rfl
@[simp] theorem State.noteZeroRun_errByte : (s.noteZeroRun zc).errByte = s.errByte := rfl
@[simp] theorem State.noteZeroRun_errOff : (s.noteZeroRun zc).errOff = s.errOff := rfl
@[simp] theorem State.noteZeroRun_errLen : (s.noteZeroRun zc).errLen = s.errLen := rfl
@[simp] theorem State.noteZeroRun_errDetail : (s.noteZeroRun zc).errDetail = s.errDetail := rfl
@[simp] theorem State.noteZeroRun_phase : (s.noteZeroRun zc).phase = .dispatch := rfl
@[simp] theorem State.noteZeroRun_scratch : (s.noteZeroRun zc).scratch = { s.scratch with zc := zc, m := s.inLen - zc, k := zc } := rfl
@[simp] theorem State.noteZeroRun_inMem : (s.noteZeroRun zc).inMem = s.inMem := rfl
@[simp] theorem State.noteZeroRun_outMem : (s.noteZeroRun zc).outMem = s.outMem := rfl
@[simp] theorem State.noteZeroRun_host : (s.noteZeroRun zc).host = s.host := rfl
@[simp] theorem State.noteZeroRun_readData : (s.noteZeroRun zc).readData = s.readData := rfl
@[simp] theorem State.noteZeroRun_operand : (s.noteZeroRun zc).operand = s.operand := rfl
@[simp] theorem State.noteZeroRun_symbolAt (v : Fin 58) : (s.noteZeroRun zc).symbolAt v = s.symbolAt v := rfl
@[simp] theorem State.noteZeroRun_zeroSymbol : (s.noteZeroRun zc).zeroSymbol = s.zeroSymbol := rfl
@[simp] theorem State.noteZeroRun_symbols (ds : List Word) : (s.noteZeroRun zc).symbols ds = s.symbols ds := rfl

end

section
variable (s : State) (w : Byte)

@[simp] theorem State.acceptCommand_alpha : (s.acceptCommand w).alpha = s.alpha := rfl
@[simp] theorem State.acceptCommand_rev : (s.acceptCommand w).rev = s.rev := rfl
@[simp] theorem State.acceptCommand_alphaValid : (s.acceptCommand w).alphaValid = s.alphaValid := rfl
@[simp] theorem State.acceptCommand_cmd : (s.acceptCommand w).cmd = some w := rfl
@[simp] theorem State.acceptCommand_done : (s.acceptCommand w).done = false := rfl
@[simp] theorem State.acceptCommand_err : (s.acceptCommand w).err = .none := rfl
@[simp] theorem State.acceptCommand_inLen : (s.acceptCommand w).inLen = s.inLen := rfl
@[simp] theorem State.acceptCommand_outLen : (s.acceptCommand w).outLen = 0 := rfl
@[simp] theorem State.acceptCommand_op64 : (s.acceptCommand w).op64 = s.op64 := rfl
@[simp] theorem State.acceptCommand_errByte : (s.acceptCommand w).errByte = 0#8 := rfl
@[simp] theorem State.acceptCommand_errOff : (s.acceptCommand w).errOff = 0 := rfl
@[simp] theorem State.acceptCommand_errLen : (s.acceptCommand w).errLen = 0 := rfl
@[simp] theorem State.acceptCommand_errDetail : (s.acceptCommand w).errDetail = 0#8 := rfl
@[simp] theorem State.acceptCommand_phase : (s.acceptCommand w).phase = startPhase w := rfl
@[simp] theorem State.acceptCommand_scratch : (s.acceptCommand w).scratch = Scratch.reset := rfl
@[simp] theorem State.acceptCommand_inMem : (s.acceptCommand w).inMem = s.inMem := rfl
@[simp] theorem State.acceptCommand_outMem : (s.acceptCommand w).outMem = [] := rfl
@[simp] theorem State.acceptCommand_host : (s.acceptCommand w).host = s.host := rfl
@[simp] theorem State.acceptCommand_readData : (s.acceptCommand w).readData = s.readData := rfl
@[simp] theorem State.acceptCommand_operand : (s.acceptCommand w).operand = s.operand := rfl
@[simp] theorem State.acceptCommand_symbolAt (v : Fin 58) : (s.acceptCommand w).symbolAt v = s.symbolAt v := rfl
@[simp] theorem State.acceptCommand_zeroSymbol : (s.acceptCommand w).zeroSymbol = s.zeroSymbol := rfl
@[simp] theorem State.acceptCommand_symbols (ds : List Word) : (s.acceptCommand w).symbols ds = s.symbols ds := rfl

end

section
variable (s : State) (n : Word)

@[simp] theorem State.emit58_alpha : (s.emit58 n).alpha = s.alpha := rfl
@[simp] theorem State.emit58_rev : (s.emit58 n).rev = s.rev := rfl
@[simp] theorem State.emit58_alphaValid : (s.emit58 n).alphaValid = s.alphaValid := rfl
@[simp] theorem State.emit58_cmd : (s.emit58 n).cmd = s.cmd := rfl
@[simp] theorem State.emit58_done : (s.emit58 n).done = s.done := rfl
@[simp] theorem State.emit58_err : (s.emit58 n).err = s.err := rfl
@[simp] theorem State.emit58_inLen : (s.emit58 n).inLen = s.inLen := rfl
@[simp] theorem State.emit58_outLen : (s.emit58 n).outLen = s.outLen + (s.symbols (digits58 n)).length := rfl
@[simp] theorem State.emit58_op64 : (s.emit58 n).op64 = s.op64 := rfl
@[simp] theorem State.emit58_errByte : (s.emit58 n).errByte = s.errByte := rfl
@[simp] theorem State.emit58_errOff : (s.emit58 n).errOff = s.errOff := rfl
@[simp] theorem State.emit58_errLen : (s.emit58 n).errLen = s.errLen := rfl
@[simp] theorem State.emit58_errDetail : (s.emit58 n).errDetail = s.errDetail := rfl
@[simp] theorem State.emit58_phase : (s.emit58 n).phase = .fixed := rfl
@[simp] theorem State.emit58_scratch : (s.emit58 n).scratch = { s.scratch with acc := 0#64 } := rfl
@[simp] theorem State.emit58_inMem : (s.emit58 n).inMem = s.inMem := rfl
@[simp] theorem State.emit58_outMem : (s.emit58 n).outMem = s.outMem.store s.outLen (s.symbols (digits58 n)) := rfl
@[simp] theorem State.emit58_host : (s.emit58 n).host = s.host := rfl
@[simp] theorem State.emit58_readData : (s.emit58 n).readData = s.readData := rfl
@[simp] theorem State.emit58_operand : (s.emit58 n).operand = s.operand := rfl
@[simp] theorem State.emit58_symbolAt (v : Fin 58) : (s.emit58 n).symbolAt v = s.symbolAt v := rfl
@[simp] theorem State.emit58_zeroSymbol : (s.emit58 n).zeroSymbol = s.zeroSymbol := rfl
@[simp] theorem State.emit58_symbols (ds : List Word) : (s.emit58 n).symbols ds = s.symbols ds := rfl

end

section
variable (s : State) (n : Word)

@[simp] theorem State.emit10_alpha : (s.emit10 n).alpha = s.alpha := rfl
@[simp] theorem State.emit10_rev : (s.emit10 n).rev = s.rev := rfl
@[simp] theorem State.emit10_alphaValid : (s.emit10 n).alphaValid = s.alphaValid := rfl
@[simp] theorem State.emit10_cmd : (s.emit10 n).cmd = s.cmd := rfl
@[simp] theorem State.emit10_done : (s.emit10 n).done = s.done := rfl
@[simp] theorem State.emit10_err : (s.emit10 n).err = s.err := rfl
@[simp] theorem State.emit10_inLen : (s.emit10 n).inLen = s.inLen := rfl
@[simp] theorem State.emit10_outLen : (s.emit10 n).outLen = s.outLen + (decimal n).length := rfl
@[simp] theorem State.emit10_op64 : (s.emit10 n).op64 = s.op64 := rfl
@[simp] theorem State.emit10_errByte : (s.emit10 n).errByte = s.errByte := rfl
@[simp] theorem State.emit10_errOff : (s.emit10 n).errOff = s.errOff := rfl
@[simp] theorem State.emit10_errLen : (s.emit10 n).errLen = s.errLen := rfl
@[simp] theorem State.emit10_errDetail : (s.emit10 n).errDetail = s.errDetail := rfl
@[simp] theorem State.emit10_phase : (s.emit10 n).phase = .fixed := rfl
@[simp] theorem State.emit10_scratch : (s.emit10 n).scratch = { s.scratch with acc := 0#64 } := rfl
@[simp] theorem State.emit10_inMem : (s.emit10 n).inMem = s.inMem := rfl
@[simp] theorem State.emit10_outMem : (s.emit10 n).outMem = s.outMem.store s.outLen (decimal n) := rfl
@[simp] theorem State.emit10_host : (s.emit10 n).host = s.host := rfl
@[simp] theorem State.emit10_readData : (s.emit10 n).readData = s.readData := rfl
@[simp] theorem State.emit10_operand : (s.emit10 n).operand = s.operand := rfl
@[simp] theorem State.emit10_symbolAt (v : Fin 58) : (s.emit10 n).symbolAt v = s.symbolAt v := rfl
@[simp] theorem State.emit10_zeroSymbol : (s.emit10 n).zeroSymbol = s.zeroSymbol := rfl
@[simp] theorem State.emit10_symbols (ds : List Word) : (s.emit10 n).symbols ds = s.symbols ds := rfl

end

section
variable (s : State) (xs : List Word)

@[simp] theorem State.loadLimbs_alpha : (s.loadLimbs xs).alpha = s.alpha := rfl
@[simp] theorem State.loadLimbs_rev : (s.loadLimbs xs).rev = s.rev := rfl
@[simp] theorem State.loadLimbs_alphaValid : (s.loadLimbs xs).alphaValid = s.alphaValid := rfl
@[simp] theorem State.loadLimbs_cmd : (s.loadLimbs xs).cmd = s.cmd := rfl
@[simp] theorem State.loadLimbs_done : (s.loadLimbs xs).done = s.done := rfl
@[simp] theorem State.loadLimbs_err : (s.loadLimbs xs).err = s.err := rfl
@[simp] theorem State.loadLimbs_inLen : (s.loadLimbs xs).inLen = s.inLen := rfl
@[simp] theorem State.loadLimbs_outLen : (s.loadLimbs xs).outLen = s.outLen := rfl
@[simp] theorem State.loadLimbs_op64 : (s.loadLimbs xs).op64 = s.op64 := rfl
@[simp] theorem State.loadLimbs_errByte : (s.loadLimbs xs).errByte = s.errByte := rfl
@[simp] theorem State.loadLimbs_errOff : (s.loadLimbs xs).errOff = s.errOff := rfl
@[simp] theorem State.loadLimbs_errLen : (s.loadLimbs xs).errLen = s.errLen := rfl
@[simp] theorem State.loadLimbs_errDetail : (s.loadLimbs xs).errDetail = s.errDetail := rfl
@[simp] theorem State.loadLimbs_phase : (s.loadLimbs xs).phase = .chunk := rfl
@[simp] theorem State.loadLimbs_inMem : (s.loadLimbs xs).inMem = s.inMem := rfl
@[simp] theorem State.loadLimbs_outMem : (s.loadLimbs xs).outMem = s.outMem := rfl
@[simp] theorem State.loadLimbs_host : (s.loadLimbs xs).host = s.host := rfl
@[simp] theorem State.loadLimbs_readData : (s.loadLimbs xs).readData = s.readData := rfl
@[simp] theorem State.loadLimbs_operand : (s.loadLimbs xs).operand = s.operand := rfl
@[simp] theorem State.loadLimbs_symbolAt (v : Fin 58) : (s.loadLimbs xs).symbolAt v = s.symbolAt v := rfl
@[simp] theorem State.loadLimbs_zeroSymbol : (s.loadLimbs xs).zeroSymbol = s.zeroSymbol := rfl
@[simp] theorem State.loadLimbs_symbols (ds : List Word) : (s.loadLimbs xs).symbols ds = s.symbols ds := rfl

end

section
variable (s : State)

@[simp] theorem State.divideOut_alpha : (s.divideOut).alpha = s.alpha := rfl
@[simp] theorem State.divideOut_rev : (s.divideOut).rev = s.rev := rfl
@[simp] theorem State.divideOut_alphaValid : (s.divideOut).alphaValid = s.alphaValid := rfl
@[simp] theorem State.divideOut_cmd : (s.divideOut).cmd = s.cmd := rfl
@[simp] theorem State.divideOut_done : (s.divideOut).done = s.done := rfl
@[simp] theorem State.divideOut_err : (s.divideOut).err = s.err := rfl
@[simp] theorem State.divideOut_inLen : (s.divideOut).inLen = s.inLen := rfl
@[simp] theorem State.divideOut_op64 : (s.divideOut).op64 = s.op64 := rfl
@[simp] theorem State.divideOut_errByte : (s.divideOut).errByte = s.errByte := rfl
@[simp] theorem State.divideOut_errOff : (s.divideOut).errOff = s.errOff := rfl
@[simp] theorem State.divideOut_errLen : (s.divideOut).errLen = s.errLen := rfl
@[simp] theorem State.divideOut_errDetail : (s.divideOut).errDetail = s.errDetail := rfl
@[simp] theorem State.divideOut_phase : (s.divideOut).phase = .reverse := rfl
@[simp] theorem State.divideOut_inMem : (s.divideOut).inMem = s.inMem := rfl
@[simp] theorem State.divideOut_host : (s.divideOut).host = s.host := rfl
@[simp] theorem State.divideOut_readData : (s.divideOut).readData = s.readData := rfl
@[simp] theorem State.divideOut_operand : (s.divideOut).operand = s.operand := rfl
@[simp] theorem State.divideOut_symbolAt (v : Fin 58) : (s.divideOut).symbolAt v = s.symbolAt v := rfl
@[simp] theorem State.divideOut_zeroSymbol : (s.divideOut).zeroSymbol = s.zeroSymbol := rfl
@[simp] theorem State.divideOut_symbols (ds : List Word) : (s.divideOut).symbols ds = s.symbols ds := rfl

end

/-- Only the host's remaining accesses survive a reset (R280). -/
@[simp] theorem State.applyReset_eq (s : State) : s.applyReset = { State.reset with host := s.host } := rfl

/-- Starting an operation twice is starting it once (R86). -/
@[simp] theorem State.begin_begin (s : State) (p q : Phase) : (s.begin p).begin q = s.begin q := rfl

/-- An operation that starts from an accepted command starts as from the state before it, but for the latch. -/
theorem State.begin_acceptCommand (s : State) (w : Byte) (p : Phase) :
    (s.acceptCommand w).begin p = { s.begin p with cmd := some w } := rfl

@[simp] theorem State.busy_begin (s : State) (p : Phase) : (s.begin p).busy = (p != .idle) := rfl

@[simp] theorem State.busy_endOperation (s : State) : s.endOperation.busy = false := rfl

@[simp] theorem State.busy_raise (s : State) (e : CodecError) : (s.raise e).busy = false := rfl

end Sys2Proof.Machine
end

