-- ==== Sys2Proof/Laws/Memory.lean ====
section
/-! SUPPORT. The laws of the byte buffers: read after write, the canonical form kept, and what appending does. -/

namespace Sys2Proof.Machine

@[simp] theorem Memory.read_nil (a : Nat) : Memory.read [] a = none := rfl

/-- A read after a write to the same index gives the byte written. -/
@[simp] theorem Memory.read_write_same (m : Memory) (a : Nat) (b : Byte) : (m.write a b).read a = some b := by
  induction m with
  | nil => simp [Memory.write, Memory.read]
  | cons c rest ih =>
    obtain ⟨k, v⟩ := c
    simp only [Memory.write]
    split_ifs with h1 h2
    · simp [Memory.read]
    · simp [Memory.read]
    · have : k ≠ a := fun h => h2 h.symm
      simp [Memory.read, this, ih]

/-- A write leaves every other index alone. -/
theorem Memory.read_write_other (m : Memory) {a c : Nat} (b : Byte) (h : c ≠ a) :
    (m.write a b).read c = m.read c := by
  have h' : a ≠ c := fun e => h e.symm
  induction m with
  | nil => simp [Memory.write, Memory.read, h']
  | cons x rest ih =>
    obtain ⟨k, v⟩ := x
    simp only [Memory.write]
    split_ifs with h1 h2
    · simp [Memory.read, h']
    · subst h2
      simp [Memory.read, h']
    · by_cases hk : k = c <;> simp [Memory.read, hk, ih]

theorem Memory.mem_keys_write (m : Memory) (a : Nat) (b : Byte) (c : Nat) :
    c ∈ (m.write a b).map Prod.fst ↔ c = a ∨ c ∈ m.map Prod.fst := by
  induction m with
  | nil => simp [Memory.write]
  | cons x rest ih =>
    obtain ⟨k, v⟩ := x
    simp only [Memory.write]
    split_ifs with h1 h2
    · simp
    · subst h2; simp
    · simp only [List.map_cons, List.mem_cons, ih]; tauto

/-- A write keeps the canonical form. -/
theorem Memory.write_wf (m : Memory) (a : Nat) (b : Byte) (h : m.wf) : (m.write a b).wf := by
  induction m with
  | nil => simp [Memory.write, Memory.wf]
  | cons x rest ih =>
    obtain ⟨k, v⟩ := x
    simp only [Memory.wf, List.map_cons, List.pairwise_cons] at h
    simp only [Memory.write]
    split_ifs with h1 h2
    · simp only [Memory.wf, List.map_cons, List.pairwise_cons, List.mem_cons]
      refine ⟨?_, h.1, h.2⟩
      rintro c (rfl | hc)
      · exact h1
      · exact h1.trans (h.1 c hc)
    · subst h2
      simpa [Memory.wf, List.pairwise_cons] using h
    · simp only [Memory.wf, List.map_cons, List.pairwise_cons]
      refine ⟨fun c hc => ?_, ih h.2⟩
      rcases (Memory.mem_keys_write rest a b c).1 hc with rfl | hc
      · omega
      · exact h.1 c hc

/-- Storing bytes keeps the canonical form. -/
theorem Memory.store_wf (m : Memory) (a : Nat) (bs : List Byte) (h : m.wf) : (m.store a bs).wf := by
  induction bs generalizing m a with
  | nil => exact h
  | cons b bs ih => exact ih _ _ (Memory.write_wf m a b h)

/-- What every index reads as after storing bytes at consecutive indices. -/
theorem Memory.read_store (m : Memory) (a : Nat) (bs : List Byte) (c : Nat) :
    (m.store a bs).read c = if a ≤ c ∧ c < a + bs.length then bs[c - a]? else m.read c := by
  induction bs generalizing m a with
  | nil =>
    have : ¬(a ≤ c ∧ c < a + ([] : List Byte).length) := by simp
    rw [if_neg this]; rfl
  | cons b bs ih =>
    simp only [Memory.store, ih, List.length_cons]
    by_cases hc : c = a
    · subst hc
      have h1 : ¬(c + 1 ≤ c ∧ c < c + 1 + bs.length) := by omega
      simp
    · by_cases h1 : a + 1 ≤ c ∧ c < a + 1 + bs.length
      · have h2 : a ≤ c ∧ c < a + (bs.length + 1) := by omega
        have h3 : c - a = (c - (a + 1)) + 1 := by omega
        rw [if_pos h1, if_pos h2, h3, List.getElem?_cons_succ]
      · have h2 : ¬(a ≤ c ∧ c < a + (bs.length + 1)) := by omega
        rw [if_neg h1, if_neg h2, Memory.read_write_other m b hc]

@[simp] theorem Memory.firstBytes_length (m : Memory) (n : Nat) : (m.firstBytes n).length = n := by
  simp [Memory.firstBytes]

@[simp] theorem Memory.firstBytes_zero (m : Memory) : m.firstBytes 0 = [] := rfl

theorem Memory.getElem?_firstBytes (m : Memory) {n i : Nat} (h : i < n) :
    (m.firstBytes n)[i]? = some (m.read i) := by
  simp [Memory.firstBytes, h]

/-- Appending bytes at the end of the first `n` (R57). -/
theorem Memory.firstBytes_store (m : Memory) (n : Nat) (bs : List Byte) :
    (m.store n bs).firstBytes (n + bs.length) = m.firstBytes n ++ bs.map some := by
  apply List.ext_getElem?
  intro i
  by_cases h1 : i < n
  · have : i < n + bs.length := by omega
    rw [Memory.getElem?_firstBytes _ this, Memory.read_store, if_neg (by omega),
      List.getElem?_append_left (by simpa using h1), Memory.getElem?_firstBytes _ h1]
  · rw [List.getElem?_append_right (by simpa using h1)]
    by_cases h2 : i < n + bs.length
    · rw [Memory.getElem?_firstBytes _ h2, Memory.read_store, if_pos (by omega)]
      have : i - n < bs.length := by omega
      simp [this]
    · rw [List.getElem?_eq_none (by simpa using h2), List.getElem?_eq_none (by simp; omega)]

/-- Where the listed indices are exactly those below `n`, appending at `n` keeps it so (R35). -/
theorem Memory.keys_store (m : Memory) (n : Nat) (bs : List Byte) (h : m.map Prod.fst = List.range n) :
    (m.store n bs).map Prod.fst = List.range (n + bs.length) := by
  have key : ∀ (m : Memory) (n : Nat) (b : Byte), (∀ c ∈ m.map Prod.fst, c < n) →
      (m.write n b).map Prod.fst = m.map Prod.fst ++ [n] := by
    intro m n b hm
    induction m with
    | nil => rfl
    | cons x rest ih =>
      obtain ⟨k, v⟩ := x
      have hk : k < n := hm k (by simp)
      have h1 : ¬n < k := by omega
      have h2 : n ≠ k := by omega
      simp only [Memory.write, h1, h2, if_false, List.map_cons, List.cons_append]
      rw [ih fun c hc => hm c (by simp at hc ⊢; tauto)]
  induction bs generalizing m n with
  | nil => simpa [Memory.store] using h
  | cons b bs ih =>
    have hw : (m.write n b).map Prod.fst = List.range (n + 1) := by
      rw [key m n b (by rw [h]; simp), h, List.range_succ]
    simp only [Memory.store, List.length_cons]
    rw [ih _ _ hw]
    congr 1
    omega

/-- An index outside the stored bytes of an empty buffer holds no value. -/
theorem Memory.read_store_nil_beyond (bs : List Byte) {a : Nat} (h : bs.length ≤ a) :
    (Memory.store [] 0 bs).read a = none := by
  rw [Memory.read_store, if_neg (by omega), Memory.read_nil]

/-- `emit` appends to the result (R57). -/
@[simp] theorem State.emitAll_output (s : State) (bs : List Byte) :
    (s.emitAll bs).output = s.output ++ bs.map some := Memory.firstBytes_store _ _ _

@[simp] theorem State.begin_output (s : State) (p : Phase) : (s.begin p).output = [] := rfl

@[simp] theorem State.endOperation_output (s : State) : s.endOperation.output = s.output := rfl

@[simp] theorem State.raise_output (s : State) (e : CodecError) : (s.raise e).output = [] := rfl

@[simp] theorem State.noteZeroRun_output (s : State) (zc : Nat) : (s.noteZeroRun zc).output = s.output := rfl

@[simp] theorem State.loadLimbs_output (s : State) (xs : List Word) : (s.loadLimbs xs).output = s.output := rfl

@[simp] theorem State.emit58_output (s : State) (n : Word) :
    (s.emit58 n).output = s.output ++ (s.symbols (digits58 n)).map some := Memory.firstBytes_store _ _ _

@[simp] theorem State.emit10_output (s : State) (n : Word) :
    (s.emit10 n).output = s.output ++ (decimal n).map some := Memory.firstBytes_store _ _ _

@[simp] theorem State.operand_length (s : State) : s.operand.length = s.inLen := Memory.firstBytes_length _ _

/-- An operand all of whose bytes are there fixes `IN_LEN` (R28). -/
theorem State.inLen_of_operand {s : State} {d : List Byte} (h : s.operand = d.map some) : s.inLen = d.length := by
  rw [← State.operand_length, h, List.length_map]

end Sys2Proof.Machine
end

