-- ==== Sys2Proof/Laws/Ops.lean ====
section
/-! SUPPORT. What the shared operations can do, said once: how an operation ends, what a step is. -/

namespace Sys2Proof.Machine

@[simp] theorem settle_ok (b t : State) : settle b (.ok t) = .next t.endOperation := rfl

@[simp] theorem settle_raise (b : State) (e : CodecError) : settle b (.error (.raise e)) = .next (b.raise e) := rfl

@[simp] theorem settle_noValue (b : State) : settle b (.error .noValue) = .fault .inNoValue := rfl

/-- An operation ends with its result or with an error. -/
theorem settle_next {b t : State} {r : Except Stop State} (h : settle b r = .next t) :
    (∃ u, r = .ok u ∧ t = u.endOperation) ∨ ∃ e, r = .error (.raise e) ∧ t = b.raise e := by
  rcases r with (e | _) | u
  · exact .inr ⟨e, rfl, by simpa using h.symm⟩
  · simp at h
  · exact .inl ⟨u, rfl, by simpa using h.symm⟩

/-- An operation faults only at a byte that holds no value. -/
theorem settle_fault {b : State} {r : Except Stop State} {f : Fault} (h : settle b r = .fault f) :
    r = .error .noValue ∧ f = .inNoValue := by
  rcases r with (e | _) | u
  · simp at h
  · exact ⟨rfl, by simpa using h.symm⟩
  · simp at h

/-- An operation is never refused. -/
theorem settle_refused (b : State) (r : Except Stop State) (x : Refusal) : settle b r ≠ .refused x := by
  rcases r with (e | _) | u <;> simp

/-- A conversion without an alphabet (R254). -/
theorem convert_no_alphabet {s : State} (ph : Phase) (body : State → Except Stop State) (h : s.alphaValid = false) :
    convert ph body s = .next ((s.begin ph).raise .noAlphabet) := by
  simp [convert, h]

/-- A conversion with an alphabet runs its body. -/
theorem convert_alphabet {s : State} (ph : Phase) (body : State → Except Stop State) (h : s.alphaValid = true) :
    convert ph body s = settle (s.begin ph) (body (s.begin ph)) := by
  simp [convert, h]

theorem configure_eq (body : State → Except Stop State) (s : State) :
    configure body s = settle (s.begin .cfg) (body (s.begin .cfg)) := rfl

/-- Every way a conversion can reach a next state. -/
theorem convert_next {ph : Phase} {body : State → Except Stop State} {s t : State}
    (h : convert ph body s = .next t) :
    (s.alphaValid = false ∧ t = (s.begin ph).raise .noAlphabet) ∨
    (s.alphaValid = true ∧ ∃ u, body (s.begin ph) = .ok u ∧ t = u.endOperation) ∨
    (s.alphaValid = true ∧ ∃ e, body (s.begin ph) = .error (.raise e) ∧ t = (s.begin ph).raise e) := by
  cases hv : s.alphaValid with
  | false =>
    rw [convert_no_alphabet ph body hv] at h
    exact .inl ⟨rfl, by simpa using h.symm⟩
  | true =>
    rw [convert_alphabet ph body hv] at h
    rcases settle_next h with hu | he
    · exact .inr (.inl ⟨rfl, hu⟩)
    · exact .inr (.inr ⟨rfl, he⟩)

/-- Every way a configuration operation can reach a next state. -/
theorem configure_next {body : State → Except Stop State} {s t : State} (h : configure body s = .next t) :
    (∃ u, body (s.begin .cfg) = .ok u ∧ t = u.endOperation) ∨
    ∃ e, body (s.begin .cfg) = .error (.raise e) ∧ t = (s.begin .cfg).raise e := settle_next h

@[simp] theorem exec_enc (s : State) : exec .enc s = convert .lzscan encBody s := rfl

@[simp] theorem exec_dec (s : State) : exec .dec s = convert .lzscan decBody s := rfl

@[simp] theorem exec_encu64 (s : State) : exec .encu64 s = convert .fixed encu64Body s := rfl

@[simp] theorem exec_decu64 (s : State) : exec .decu64 s = convert .fixed decu64Body s := rfl

@[simp] theorem exec_alphasel (p : Preset) (s : State) : exec (.alphasel p) s = configure (alphaselBody p) s := rfl

@[simp] theorem exec_alphaload (s : State) : exec .alphaload s = configure alphaloadBody s := rfl

/-- Everything a step that gives a next state can be. -/
theorem step_next {s t : State} (h : step s = .next t) :
    (∃ e rest, s.host = e :: rest ∧ e ≠ .waitDone ∧ hostAccess e { s with host := rest } = .next t) ∨
    (∃ rest, (s.host = [] ∧ rest = [] ∨ s.host = .waitDone :: rest) ∧
      ((s.cmd = none ∧ t = { s with host := rest }) ∨
        ∃ w i, s.cmd = some w ∧ decode w = .ok i ∧ exec i { s with host := rest } = .next t)) := by
  have engine : ∀ rest, runEngine { s with host := rest } = .next t →
      (s.cmd = none ∧ t = { s with host := rest }) ∨
        ∃ w i, s.cmd = some w ∧ decode w = .ok i ∧ exec i { s with host := rest } = .next t := by
    intro rest hr
    cases hc : s.cmd with
    | none => exact .inl ⟨rfl, by simpa [runEngine, hc] using hr.symm⟩
    | some w =>
      cases hd : decode w with
      | error why => simp [runEngine, hc, hd] at hr
      | ok i => exact .inr ⟨w, i, rfl, hd, by simpa [runEngine, hc, hd] using hr⟩
  cases hh : s.host with
  | nil =>
    have hs : ({ s with host := [] } : State) = s := by cases s; cases hh; rfl
    refine .inr ⟨[], .inl ⟨rfl, rfl⟩, engine [] ?_⟩
    rw [hs]
    simpa [step, hh] using h
  | cons e rest =>
    by_cases he : e = .waitDone
    · subst he
      exact .inr ⟨rest, .inr rfl, engine rest (by simpa [step, hh] using h)⟩
    · refine .inl ⟨e, rest, rfl, he, ?_⟩
      unfold step at h
      rw [hh] at h
      cases e <;> first | exact h | exact absurd rfl he

/-- Every way a host access can reach a next state. -/
theorem hostAccess_next {e : HostEvent} {s t : State} (h : hostAccess e s = .next t) :
    t = s ∨ (∃ v, t = { s with readData := v }) ∨
    (∃ i b, s.busy = false ∧ t = { s with inMem := s.inMem.write i b }) ∨
    (∃ v, s.busy = false ∧ t = { s with inLen := v }) ∨
    (∃ v, s.busy = false ∧ t = { s with op64 := v }) ∨
    (∃ w i, s.busy = false ∧ decode w = .ok i ∧ t = s.acceptCommand w) ∨
    t = s.applyReset := by
  unfold hostAccess at h
  split_ifs at h with hb
  have hidle : forbiddenWhileBusy e = true → s.busy = false := by
    intro hf
    simpa [hf] using hb
  cases e with
  | readReg index =>
    dsimp only at h
    split at h
    · exact .inr (.inl ⟨_, by simpa using h.symm⟩)
    · simp at h
  | writeReg index value =>
    dsimp only at h
    unfold writeRegister at h
    split at h
    · unfold writeCommand at h
      split_ifs at h with hv
      split at h
      · simp at h
      · rename_i i hd
        exact .inr (.inr (.inr (.inr (.inr (.inl ⟨_, i, hidle rfl, hd, by simpa using h.symm⟩)))))
    · exact .inl (by simpa using h.symm)
    · exact .inr (.inr (.inr (.inl ⟨_, hidle rfl, by simpa using h.symm⟩)))
    · split_ifs at h with hv
      exact .inr (.inr (.inr (.inr (.inl ⟨_, hidle rfl, by simpa using h.symm⟩))))
    all_goals simp at h
  | readIn i =>
    dsimp only at h
    split at h
    · exact .inr (.inl ⟨_, by simpa using h.symm⟩)
    · simp at h
  | writeIn i b => exact .inr (.inr (.inl ⟨i, b, hidle rfl, by simpa using h.symm⟩))
  | readOut i =>
    dsimp only at h
    split at h
    · exact .inr (.inl ⟨_, by simpa using h.symm⟩)
    · simp at h
  | waitDone => exact .inl (by simpa using h.symm)
  | reset => exact .inr (.inr (.inr (.inr (.inr (.inr (by simpa using h.symm))))))

end Sys2Proof.Machine
end

