-- ==== Sys2Proof/Laws/Operands.lean ====
section
/-! SUPPORT. One lemma per operand form: what parsing, folding, dividing and scanning give on bytes that are there. -/

namespace Sys2Proof.Machine

/-! ### Decimal digits -/

theorem isDigit_iff (b : Byte) : isDigit b = true ↔ isDecimal b := by
  simp [isDigit, isDecimal, BitVec.le_def]

theorem digitValue_toNat {b : Byte} (h : isDecimal b) : (digitValue b).toNat = b.toNat - 0x30 := by
  have h1 := h.1
  have h2 := h.2
  simp only [digitValue, BitVec.toNat_setWidth, BitVec.toNat_sub, BitVec.toNat_ofNat]
  omega

@[simp] theorem val10_nil : val10 [] = 0 := rfl

theorem val10_foldl (n : Nat) (d : List Byte) :
    d.foldl (fun n b => n * 10 + (b.toNat - 0x30)) n = n * 10 ^ d.length + val10 d := by
  induction d generalizing n with
  | nil => simp
  | cons b d ih =>
    have h : val10 (b :: d) = (0 * 10 + (b.toNat - 0x30)) * 10 ^ d.length + val10 d := by
      rw [val10, List.foldl_cons, ih]
    rw [List.foldl_cons, ih, h, List.length_cons]
    ring

theorem val10_cons (b : Byte) (d : List Byte) : val10 (b :: d) = (b.toNat - 0x30) * 10 ^ d.length + val10 d := by
  have := val10_foldl (b.toNat - 0x30) d
  simpa [val10] using this

theorem val10_append (d e : List Byte) : val10 (d ++ e) = val10 d * 10 ^ e.length + val10 e := by
  have := val10_foldl (val10 d) e
  simpa [val10, List.foldl_append] using this

/-- A numeral of `k` digits is below `10^k` (R232). -/
theorem val10_lt (d : List Byte) (h : ∀ b ∈ d, isDecimal b) : val10 d < 10 ^ d.length := by
  induction d with
  | nil => simp
  | cons b d ih =>
    have hb := (h b (by simp)).2
    have hd := ih fun x hx => h x (by simp [hx])
    rw [val10_cons, List.length_cons, pow_succ]
    have : (b.toNat - 0x30) * 10 ^ d.length ≤ 9 * 10 ^ d.length := Nat.mul_le_mul_right _ (by omega)
    omega

/-- `parse10` reads past digits with the accumulator the numeral gives (R89, R232). -/
theorem parse10_digits (off len : Nat) (d : List Byte) (hd : ∀ b ∈ d, isDecimal b) (acc : Word) :
    ∃ w : Word, (acc.toNat * 10 ^ d.length + val10 d < 2 ^ 64 → w.toNat = acc.toNat * 10 ^ d.length + val10 d) ∧
      ∀ rest, parse10 off len acc (d.map some ++ rest) = parse10 off len w rest := by
  induction d generalizing acc with
  | nil => exact ⟨acc, by simp, fun rest => rfl⟩
  | cons b d ih =>
    have hb := hd b (by simp)
    obtain ⟨w, hw, hr⟩ := ih (fun x hx => hd x (by simp [hx])) (acc * 10#64 + digitValue b)
    refine ⟨w, fun hlt => ?_, fun rest => ?_⟩
    · rw [val10_cons, List.length_cons] at hlt ⊢
      have hp : 1 ≤ 10 ^ d.length := Nat.one_le_pow _ _ (by norm_num)
      have e : acc.toNat * 10 ^ (d.length + 1) + ((b.toNat - 0x30) * 10 ^ d.length + val10 d)
          = (acc.toNat * 10 + (b.toNat - 0x30)) * 10 ^ d.length + val10 d := by ring
      rw [e] at hlt ⊢
      have hs : acc.toNat * 10 + (b.toNat - 0x30) < 2 ^ 64 :=
        lt_of_le_of_lt (Nat.le_trans (Nat.le_mul_of_pos_right _ hp) (Nat.le_add_right _ _)) hlt
      have hv : (acc * 10#64 + digitValue b).toNat = acc.toNat * 10 + (b.toNat - 0x30) := by
        rw [BitVec.toNat_add, BitVec.toNat_mul, digitValue_toNat hb]
        simp only [BitVec.toNat_ofNat]
        omega
      rw [hv] at hw
      exact hw hlt
    · simp only [List.map_cons, List.cons_append, parse10, (isDigit_iff b).2 hb, if_true]
      exact hr rest

/-- `parse10` of digits gives their value when it fits in 64 bits (R89, R232). -/
theorem parse10_value (off len : Nat) (d : List Byte) (hd : ∀ b ∈ d, isDecimal b) (hlt : val10 d < 2 ^ 64) :
    ∃ w : Word, parse10 off len 0#64 (d.map some) = .ok w ∧ w.toNat = val10 d := by
  obtain ⟨w, hw, hr⟩ := parse10_digits off len d hd 0#64
  refine ⟨w, by simpa [parse10] using hr [], ?_⟩
  simpa using hw (by simpa using hlt)

/-- `parse10` raises at the first non-digit, whatever follows it (R89, R163). -/
theorem parse10_nonDigit (off len : Nat) (d : List Byte) (hd : ∀ b ∈ d, isDecimal b) {b : Byte} (hb : ¬isDecimal b)
    (acc : Word) (rest : List (Option Byte)) :
    parse10 off len acc (d.map some ++ some b :: rest) = .error (.raise (.invalidDigit off len)) := by
  obtain ⟨w, -, hr⟩ := parse10_digits off len d hd acc
  have : isDigit b = false := by simpa using fun h => hb ((isDigit_iff b).1 h)
  simp [hr, parse10, this]

/-- `parse10` stops at a byte that holds no value, if every byte before it is a digit (U2). -/
theorem parse10_noValue (off len : Nat) (d : List Byte) (hd : ∀ b ∈ d, isDecimal b) (acc : Word)
    (rest : List (Option Byte)) : parse10 off len acc (d.map some ++ none :: rest) = .error .noValue := by
  obtain ⟨w, -, hr⟩ := parse10_digits off len d hd acc
  simp [hr, parse10]

/-- Everything `parse10` of bytes that are there can answer. -/
theorem parse10_cases (off len : Nat) (acc : Word) (d : List Byte) :
    ((∀ b ∈ d, isDecimal b) ∧ ∃ w, parse10 off len acc (d.map some) = .ok w) ∨
    ((∃ b ∈ d, ¬isDecimal b) ∧ parse10 off len acc (d.map some) = .error (.raise (.invalidDigit off len))) := by
  induction d generalizing acc with
  | nil => exact .inl ⟨by simp, acc, rfl⟩
  | cons b d ih =>
    by_cases hb : isDecimal b
    · rcases ih (acc * 10#64 + digitValue b) with ⟨hd, w, hw⟩ | ⟨hd, hw⟩
      · exact .inl ⟨by simpa [hb] using hd, w, by simpa [parse10, (isDigit_iff b).2 hb] using hw⟩
      · exact .inr ⟨by simpa [hb] using hd, by simpa [parse10, (isDigit_iff b).2 hb] using hw⟩
    · have : isDigit b = false := by simpa using fun h => hb ((isDigit_iff b).1 h)
      exact .inr ⟨⟨b, by simp, hb⟩, by simp [parse10, this]⟩

/-! ### The divide loop -/

/-- The remainders of the divide loop are the digits of the number, and the bound on the passes cuts nothing off
(R130, R136; assumption log 15). -/
theorem divideDigits_toNat (radix : Word) (hr : 1 < radix.toNat) (passes : Nat) (n : Word)
    (hn : n.toNat < radix.toNat ^ passes) :
    (divideDigits radix passes n).map BitVec.toNat = Nat.digits radix.toNat n.toNat := by
  induction passes generalizing n with
  | zero =>
    have : n.toNat = 0 := by simpa using hn
    simp [divideDigits, this]
  | succ passes ih =>
    by_cases h0 : n = 0#64
    · subst h0; simp [divideDigits]
    · have hpos : 0 < n.toNat := by
        rcases Nat.eq_zero_or_pos n.toNat with h | h
        · exact absurd (BitVec.eq_of_toNat_eq (by simpa using h)) h0
        · exact h
      have hdiv : (n / radix).toNat < radix.toNat ^ passes := by
        rw [BitVec.toNat_udiv, Nat.div_lt_iff_lt_mul (by omega)]
        simpa [pow_succ] using hn
      rw [divideDigits, if_neg h0, List.map_cons, ih _ hdiv, Nat.digits_def' hr hpos, BitVec.toNat_umod,
        BitVec.toNat_udiv]

theorem divideDigits58 (n : Word) : (divideDigits Config.radixWord 11 n).map BitVec.toNat = Nat.digits 58 n.toNat :=
  divideDigits_toNat Config.radixWord (by decide) 11 n (lt_trans n.isLt (by norm_num))

theorem divideDigits10 (n : Word) : (divideDigits 10#64 20 n).map BitVec.toNat = Nat.digits 10 n.toNat :=
  divideDigits_toNat 10#64 (by decide) 20 n (lt_trans n.isLt (by norm_num))

/-- Symbols of digits held in registers, as symbols of numbers. -/
theorem State.symbols_eq (s : State) (ds : List Word) :
    s.symbols ds = (ds.map BitVec.toNat).map fun q => s.alpha[Fin.ofNat 58 q] := by
  simp [State.symbols, State.symbolAt, digitIndex]

/-- `emit58(n)` appends `rep58(n)` (R130). -/
theorem State.symbols_digits58 (s : State) (n : Word) : s.symbols (digits58 n) = rep58 s.alpha n.toNat := by
  rw [State.symbols_eq, digits58, List.map_reverse, divideDigits58, rep58]

theorem digitByte_eq (d : Word) : digitByte d = BitVec.ofNat 8 (0x30 + d.toNat) := by
  apply BitVec.eq_of_toNat_eq
  simp [digitByte, BitVec.toNat_add, BitVec.toNat_setWidth]

/-- `emit10(n)` appends `dec(n)` (R136). -/
theorem decimal_eq (n : Word) : decimal n = dec n.toNat := by
  have h : n = 0#64 ↔ n.toNat = 0 := ⟨fun h => by simp [h], fun h => BitVec.eq_of_toNat_eq (by simpa using h)⟩
  simp only [decimal, dec, h]
  split_ifs
  · rfl
  · rw [← divideDigits10, ← List.map_reverse, List.map_map]
    exact List.map_congr_left fun d _ => digitByte_eq d

/-! ### Symbols -/

@[simp] theorem val58_nil (rev : Vector (Option (Fin 58)) 256) : val58 rev [] = 0 := rfl

theorem val58_foldl (rev : Vector (Option (Fin 58)) 256) (n : Nat) (d : List Byte) :
    d.foldl (fun n b => n * 58 + symbolValue rev b) n = n * 58 ^ d.length + val58 rev d := by
  induction d generalizing n with
  | nil => simp
  | cons b d ih =>
    have h : val58 rev (b :: d) = (0 * 58 + symbolValue rev b) * 58 ^ d.length + val58 rev d := by
      rw [val58, List.foldl_cons, ih]
    rw [List.foldl_cons, ih, h, List.length_cons]
    ring

theorem val58_append (rev : Vector (Option (Fin 58)) 256) (d e : List Byte) :
    val58 rev (d ++ e) = val58 rev d * 58 ^ e.length + val58 rev e := by
  have := val58_foldl rev (val58 rev d) e
  simpa [val58, List.foldl_append] using this

theorem val58_cons (rev : Vector (Option (Fin 58)) 256) (b : Byte) (d : List Byte) :
    val58 rev (b :: d) = symbolValue rev b * 58 ^ d.length + val58 rev d := by
  simpa [val58] using val58_append rev [b] d

theorem symbolValue_lt (rev : Vector (Option (Fin 58)) 256) (b : Byte) : symbolValue rev b < 58 := by
  unfold symbolValue
  split
  · exact Fin.isLt _
  · norm_num

/-- A string of `k` symbols is below `58^k` (R187). -/
theorem val58_lt (rev : Vector (Option (Fin 58)) 256) (d : List Byte) : val58 rev d < 58 ^ d.length := by
  induction d with
  | nil => simp
  | cons b d ih =>
    have hb := symbolValue_lt rev b
    rw [val58_cons, List.length_cons, pow_succ]
    have : symbolValue rev b * 58 ^ d.length ≤ 57 * 58 ^ d.length := Nat.mul_le_mul_right _ (by omega)
    omega

/-- `fold58` reads past symbols with the accumulator their value gives modulo `2^64` (R133, R237). -/
theorem fold58_symbols (rev : Vector (Option (Fin 58)) 256) (d : List Byte)
    (hd : ∀ b ∈ d, (valueOf rev b).isSome = true) (i : Nat) (f : Fold) :
    ∃ g : Fold, g.acc.toNat = (f.acc.toNat * 58 ^ d.length + val58 rev d) % 2 ^ 64 ∧
      (g.v = if d = [] then f.v else d.getLast?.bind (valueOf rev)) ∧
      ∀ rest, fold58 rev i f (d.map some ++ rest) = fold58 rev (i + d.length) g rest := by
  induction d generalizing i f with
  | nil => exact ⟨f, by simp [Nat.mod_eq_of_lt f.acc.isLt], by simp, fun rest => rfl⟩
  | cons b d ih =>
    obtain ⟨v, hv⟩ := Option.isSome_iff_exists.1 (hd b (by simp))
    obtain ⟨g, hg, hgv, hr⟩ := ih (fun x hx => hd x (by simp [hx])) (i + 1)
      { acc := f.acc * Config.radixWord + BitVec.ofNat 64 v.val, v := some v }
    have hs : symbolValue rev b = v.val := by simp [symbolValue, hv]
    refine ⟨g, ?_, ?_, fun rest => ?_⟩
    · rw [hg, val58_cons, hs, List.length_cons]
      have hvl : v.val < 2 ^ 64 := lt_trans v.isLt (by norm_num)
      have : (f.acc * Config.radixWord + BitVec.ofNat 64 v.val).toNat = (f.acc.toNat * 58 + v.val) % 2 ^ 64 := by
        simp [BitVec.toNat_add, BitVec.toNat_mul]
      rw [this]
      have e : f.acc.toNat * 58 ^ (d.length + 1) + (v.val * 58 ^ d.length + val58 rev d)
          = (f.acc.toNat * 58 + v.val) * 58 ^ d.length + val58 rev d := by ring
      rw [e, Nat.add_mod, Nat.mod_mul_mod, ← Nat.add_mod]
    · rw [hgv]
      cases d with
      | nil => simp [hv]
      | cons c d => simp
    · simp only [List.map_cons, List.cons_append, fold58, hv, hr rest, List.length_cons]
      congr 1
      omega

/-- `fold58` of symbols gives their value modulo `2^64` (R133). -/
theorem fold58_value (rev : Vector (Option (Fin 58)) 256) (d : List Byte)
    (hd : ∀ b ∈ d, (valueOf rev b).isSome = true) (i : Nat) :
    ∃ g : Fold, fold58 rev i { acc := 0#64, v := none } (d.map some) = .ok g ∧ g.acc.toNat = val58 rev d % 2 ^ 64 ∧
      g.v = d.getLast?.bind (valueOf rev) := by
  obtain ⟨g, hg, hgv, hr⟩ := fold58_symbols rev d hd i { acc := 0#64, v := none }
  refine ⟨g, by simpa [fold58] using hr [], by simpa using hg, ?_⟩
  rw [hgv]
  cases d <;> simp

/-- `fold58` raises at the first absent byte, whatever follows it (R133). -/
theorem fold58_absent (rev : Vector (Option (Fin 58)) 256) (d : List Byte)
    (hd : ∀ b ∈ d, (valueOf rev b).isSome = true) {b : Byte} (hb : valueOf rev b = none) (i : Nat) (f : Fold)
    (rest : List (Option Byte)) :
    fold58 rev i f (d.map some ++ some b :: rest) = .error (.raise (.invalidSymbol b (i + d.length))) := by
  obtain ⟨g, -, -, hr⟩ := fold58_symbols rev d hd i f
  simp [hr, fold58, hb]

/-- `fold58` stops at a byte that holds no value, if every byte before it is a symbol (U2). -/
theorem fold58_noValue (rev : Vector (Option (Fin 58)) 256) (d : List Byte)
    (hd : ∀ b ∈ d, (valueOf rev b).isSome = true) (i : Nat) (f : Fold) (rest : List (Option Byte)) :
    fold58 rev i f (d.map some ++ none :: rest) = .error .noValue := by
  obtain ⟨g, -, -, hr⟩ := fold58_symbols rev d hd i f
  simp [hr, fold58]

/-- Everything that can end `fold58` early lies in what it reads. -/
theorem fold58_error {rev : Vector (Option (Fin 58)) 256} {i : Nat} {f : Fold} {xs : List (Option Byte)} {e : Stop}
    (h : fold58 rev i f xs = .error e) :
    (e = .noValue ∧ none ∈ xs) ∨
    ∃ b j, e = .raise (.invalidSymbol b j) ∧ some b ∈ xs ∧ valueOf rev b = none := by
  induction xs generalizing i f with
  | nil => simp [fold58] at h
  | cons x xs ih =>
    cases x with
    | none => exact .inl ⟨by simpa [fold58] using h.symm, by simp⟩
    | some b =>
      cases hv : valueOf rev b with
      | none => exact .inr ⟨b, i, by simpa [fold58, hv] using h.symm, by simp, hv⟩
      | some v =>
        rcases ih (by simpa [fold58, hv] using h) with ⟨he, hm⟩ | ⟨c, j, he, hm, hc⟩
        · exact .inl ⟨he, by simp [hm]⟩
        · exact .inr ⟨c, j, he, by simp [hm], hc⟩

/-- The decoder's symbol loop reads past symbols (R185). -/
theorem DecLoop.run_symbols (rev : Vector (Option (Fin 58)) 256) (d : List Byte)
    (hd : ∀ b ∈ d, (valueOf rev b).isSome = true) (i : Nat) (r : DecLoop) (rest : List (Option Byte)) :
    DecLoop.run rev i r (d.map some ++ rest) =
      DecLoop.run rev (i + d.length) (d.foldl (fun r b => ((valueOf rev b).map r.absorb).getD r) r) rest := by
  induction d generalizing i r with
  | nil => rfl
  | cons b d ih =>
    obtain ⟨v, hv⟩ := Option.isSome_iff_exists.1 (hd b (by simp))
    simp only [List.map_cons, List.cons_append, DecLoop.run, hv, List.foldl_cons, Option.map_some, Option.getD_some,
      List.length_cons, ih fun x hx => hd x (by simp [hx])]
    congr 1
    omega

/-- Everything that can end the decoder's symbol loop early lies in what it reads. -/
theorem DecLoop.run_error {rev : Vector (Option (Fin 58)) 256} {i : Nat} {r : DecLoop} {xs : List (Option Byte)}
    {e : Stop} (h : DecLoop.run rev i r xs = .error e) :
    (e = .noValue ∧ none ∈ xs) ∨
    ∃ b j, e = .raise (.invalidSymbol b j) ∧ some b ∈ xs ∧ valueOf rev b = none := by
  induction xs generalizing i r with
  | nil => simp [DecLoop.run] at h
  | cons x xs ih =>
    cases x with
    | none => exact .inl ⟨by simpa [DecLoop.run] using h.symm, by simp⟩
    | some b =>
      cases hv : valueOf rev b with
      | none => exact .inr ⟨b, i, by simpa [DecLoop.run, hv] using h.symm, by simp, hv⟩
      | some v =>
        rcases ih (by simpa [DecLoop.run, hv] using h) with ⟨he, hm⟩ | ⟨c, j, he, hm, hc⟩
        · exact .inl ⟨he, by simp [hm]⟩
        · exact .inr ⟨c, j, he, by simp [hm], hc⟩

/-! ### The zero scans -/

theorem lz_cons (b c : Byte) (d : List Byte) : lz (b :: d) c = if b = c then lz d c + 1 else 0 := by
  by_cases h : b = c <;> simp [lz, h]

theorem lz_le (d : List Byte) (c : Byte) : lz d c ≤ d.length := (List.takeWhile_prefix _).length_le

/-- `LZSCAN` of `ENC` counts the leading `'0'` bytes (R211). -/
theorem scanZeroDigits_eq (d : List Byte) : scanZeroDigits (d.map some) = .ok (lz d 0x30#8) := by
  induction d with
  | nil => rfl
  | cons b d ih =>
    by_cases h : b = 0x30#8 <;> simp [scanZeroDigits, lz_cons, h, ih]

/-- `LZSCAN` of `DEC` counts the leading zero-symbols but never the last byte (R212). -/
theorem scanZeroSymbols_eq (z : Byte) (d : List Byte) :
    scanZeroSymbols z (d.map some) = .ok (min (lz d z) (d.length - 1)) := by
  induction d with
  | nil => rfl
  | cons b d ih =>
    cases d with
    | nil => simp [scanZeroSymbols]
    | cons c d =>
      by_cases h : b = z
      · simp only [List.map_cons] at ih
        rw [List.map_cons, List.map_cons, scanZeroSymbols, if_pos h, ih, lz_cons b z, if_pos h]
        simp only [List.length_cons, Except.ok.injEq]
        omega
      · simp [scanZeroSymbols, lz_cons, h]

/-- The zero scan of `ENC` ends early only at a byte that holds no value. -/
theorem scanZeroDigits_error {xs : List (Option Byte)} {e : Stop} (h : scanZeroDigits xs = .error e) :
    e = .noValue ∧ none ∈ xs := by
  induction xs with
  | nil => simp [scanZeroDigits] at h
  | cons x xs ih =>
    cases x with
    | none => exact ⟨by simpa [scanZeroDigits] using h.symm, by simp⟩
    | some b =>
      simp only [scanZeroDigits] at h
      split_ifs at h
      split at h
      · simp at h
      · rename_i e' he
        cases h
        exact ⟨(ih he).1, by simp [(ih he).2]⟩

/-- The zero scan of `DEC` ends early only at a byte that holds no value. -/
theorem scanZeroSymbols_error {z : Byte} {xs : List (Option Byte)} {e : Stop} (h : scanZeroSymbols z xs = .error e) :
    e = .noValue ∧ none ∈ xs := by
  induction xs with
  | nil => simp [scanZeroSymbols] at h
  | cons x xs ih =>
    cases xs with
    | nil => simp [scanZeroSymbols] at h
    | cons y ys =>
      cases x with
      | none => exact ⟨by simpa [scanZeroSymbols] using h.symm, by simp⟩
      | some b =>
        simp only [scanZeroSymbols] at h
        split_ifs at h
        split at h
        · simp at h
        · rename_i e' he
          cases h
          exact ⟨(ih he).1, List.mem_cons_of_mem _ (ih he).2⟩

/-! ### The first chunk's length and its register -/

theorem firstChunkLen_le (m : Nat) : firstChunkLen m ≤ 17 := by unfold firstChunkLen chunkCount; omega

/-- `FLEN` (5 bits, R32) holds the length of the first chunk whole. -/
@[simp] theorem flen_toNat (m : Nat) : (BitVec.ofNat 5 (firstChunkLen m)).toNat = firstChunkLen m := by
  have := firstChunkLen_le m
  rw [BitVec.toNat_ofNat, Nat.mod_eq_of_lt (by omega)]

end Sys2Proof.Machine
end

