-- ==== Sys2Proof/Laws/Alphabet.lean ====
section
/-! SUPPORT. The alphabet tables: what the rebuilt reverse table answers, what 58 bytes make as a table, what the
duplicate test answers. -/

namespace Sys2Proof.Machine

/-- What the rebuilt reverse table answers: the first value whose symbol is `b` (R23). -/
theorem valueOf_reverseTable (alpha : Vector Byte 58) (b : Byte) :
    valueOf (reverseTable alpha) b = (List.finRange 58).find? fun v => alpha[v] == b := by
  have h : BitVec.ofNat 8 b.toNat = b := by simp
  simp [valueOf, reverseTable, h]

/-- Distinct symbols sit at distinct values (R22). -/
theorem alpha_injective {alpha : Vector Byte 58} (h : alpha.toList.Nodup) {v w : Fin 58} (e : alpha[v] = alpha[w]) :
    v = w := by
  have hv : v.val < alpha.toList.length := by simp
  have hw : w.val < alpha.toList.length := by simp
  have := (List.Nodup.getElem_inj_iff h (hi := hv) (hj := hw)).1 (by simpa using e)
  exact Fin.ext this

/-- The rebuilt reverse table of distinct symbols agrees exactly with the forward table (R23, R114). -/
theorem alphabetOk_reverseTable {alpha : Vector Byte 58} (h : alpha.toList.Nodup) :
    AlphabetOk alpha (reverseTable alpha) := by
  refine ⟨h, fun b v => ?_⟩
  rw [valueOf_reverseTable]
  constructor
  · intro hf
    simpa using List.find?_some hf
  · intro hv
    cases hf : (List.finRange 58).find? fun v => alpha[v] == b with
    | none =>
      have := List.find?_eq_none.1 hf v (List.mem_finRange v)
      simp [hv] at this
    | some w =>
      have hw : alpha[w] = b := by simpa using List.find?_some hf
      rw [alpha_injective h (hw.trans hv.symm)]

/-- Selecting an alphabet of distinct symbols leaves a valid one (R112, R113). -/
theorem State.setAlphabet_ok {a : Vector Byte 58} (h : a.toList.Nodup) (s : State) :
    AlphabetOk (s.setAlphabet a).alpha (s.setAlphabet a).rev := alphabetOk_reverseTable h

/-- The zero-symbol of a valid alphabet has the value 0 (R11). -/
theorem AlphabetOk.zero {alpha : Vector Byte 58} {rev : Vector (Option (Fin 58)) 256} (h : AlphabetOk alpha rev) :
    valueOf rev alpha[(0 : Fin 58)] = some 0 := (h.2 _ _).2 rfl

theorem AlphabetOk.symbol {alpha : Vector Byte 58} {rev : Vector (Option (Fin 58)) 256} (h : AlphabetOk alpha rev)
    (v : Fin 58) : valueOf rev alpha[v] = some v := (h.2 _ _).2 rfl

/-- 58 bytes make the table that lists them (R113). -/
theorem tableOf_toList {bytes : List Byte} (h : bytes.length = 58) : (tableOf bytes).toList = bytes := by
  apply List.ext_getElem
  · simp [h]
  · intro i h1 h2
    simp [tableOf, h2]

/-- The duplicate test passes bytes that are distinct from each other and from those before (R113). -/
theorem scanDistinct_append (seen d : List Byte) (h : (seen ++ d).Nodup) (rest : List (Option Byte)) :
    scanDistinct seen (d.map some ++ rest) = scanDistinct (seen ++ d) rest := by
  induction d generalizing seen with
  | nil => simp
  | cons b d ih =>
    have hb : b ∉ seen := by
      intro hm
      exact (List.nodup_append.1 h).2.2 b hm b (by simp) rfl
    simp only [List.map_cons, List.cons_append, scanDistinct, hb, if_false]
    rw [ih (seen ++ [b]) (by simpa using h)]
    simp

/-- What the duplicate test answers on distinct bytes (R113). -/
theorem scanDistinct_ok (d : List Byte) (h : d.Nodup) : scanDistinct [] (d.map some) = .ok d := by
  simpa [scanDistinct] using scanDistinct_append [] d (by simpa using h) []

/-- A table the duplicate test lets through is one of distinct bytes, as many as were read (R113). -/
theorem scanDistinct_nodup {seen : List Byte} {xs : List (Option Byte)} {out : List Byte} (hs : seen.Nodup)
    (h : scanDistinct seen xs = .ok out) : out.Nodup ∧ out.length = seen.length + xs.length := by
  induction xs generalizing seen with
  | nil =>
    have : seen = out := by simpa [scanDistinct] using h
    subst this
    exact ⟨hs, by simp⟩
  | cons x xs ih =>
    cases x with
    | none => simp [scanDistinct] at h
    | some b =>
      by_cases hb : b ∈ seen
      · simp [scanDistinct, hb] at h
      · obtain ⟨h1, h2⟩ := ih (seen := seen ++ [b])
          (List.nodup_append.2 ⟨hs, by simp, fun x hx y hy => by
            have : y = b := by simpa using hy
            subst this
            intro hxy
            exact hb (hxy ▸ hx)⟩)
          (by simpa [scanDistinct, hb] using h)
        exact ⟨h1, by simp at h2 ⊢; omega⟩

/-- The duplicate test ends early only at a byte that holds no value or at a repeated byte. -/
theorem scanDistinct_error {seen : List Byte} {xs : List (Option Byte)} {e : Stop}
    (h : scanDistinct seen xs = .error e) :
    (e = .noValue ∧ none ∈ xs) ∨ ∃ b k, e = .raise (.duplicate b k) := by
  induction xs generalizing seen with
  | nil => simp [scanDistinct] at h
  | cons x xs ih =>
    cases x with
    | none => exact .inl ⟨by simpa [scanDistinct] using h.symm, by simp⟩
    | some b =>
      by_cases hb : b ∈ seen
      · exact .inr ⟨b, seen.length, by simpa [scanDistinct, hb] using h.symm⟩
      · rcases ih (by simpa [scanDistinct, hb] using h) with ⟨he, hm⟩ | hx
        · exact .inl ⟨he, by simp [hm]⟩
        · exact .inr hx

end Sys2Proof.Machine
end

