-- ==== Sys2Proof/Laws/Bodies.lean ====
section
/-! SUPPORT. Everything the body of an operation can do, said once per operation: what a success wrote and left alone,
and which errors it can end with. -/

namespace Sys2Proof.Machine

/-- Storing bytes and then more bytes behind them is storing them all. -/
theorem Memory.store_append (m : Memory) (a : Nat) (xs ys : List Byte) :
    m.store a (xs ++ ys) = (m.store a xs).store (a + xs.length) ys := by
  induction xs generalizing m a with
  | nil => rfl
  | cons x xs ih => simp only [List.cons_append, Memory.store, ih, List.length_cons]; congr 1; omega

/-- From `b` to `u`: these bytes were appended to `OUT`, and nothing else the host can see changed (`OP64` apart). -/
structure State.Wrote (b u : State) (bytes : List Byte) : Prop where
  alpha : u.alpha = b.alpha
  rev : u.rev = b.rev
  alphaValid : u.alphaValid = b.alphaValid
  err : u.err = b.err
  errByte : u.errByte = b.errByte
  errOff : u.errOff = b.errOff
  errLen : u.errLen = b.errLen
  errDetail : u.errDetail = b.errDetail
  inLen : u.inLen = b.inLen
  inMem : u.inMem = b.inMem
  host : u.host = b.host
  readData : u.readData = b.readData
  outMem : u.outMem = b.outMem.store b.outLen bytes
  outLen : u.outLen = b.outLen + bytes.length

theorem State.Wrote.trans {a b c : State} {xs ys : List Byte} (h : State.Wrote a b xs) (g : State.Wrote b c ys) :
    State.Wrote a c (xs ++ ys) where
  alpha := g.alpha.trans h.alpha
  rev := g.rev.trans h.rev
  alphaValid := g.alphaValid.trans h.alphaValid
  err := g.err.trans h.err
  errByte := g.errByte.trans h.errByte
  errOff := g.errOff.trans h.errOff
  errLen := g.errLen.trans h.errLen
  errDetail := g.errDetail.trans h.errDetail
  inLen := g.inLen.trans h.inLen
  inMem := g.inMem.trans h.inMem
  host := g.host.trans h.host
  readData := g.readData.trans h.readData
  outMem := by rw [g.outMem, h.outMem, h.outLen, Memory.store_append]
  outLen := by rw [g.outLen, h.outLen, List.length_append]; omega

theorem State.Wrote.refl (b : State) : State.Wrote b b [] := by constructor <;> rfl

theorem State.noteZeroRun_wrote (b : State) (zc : Nat) : State.Wrote b (b.noteZeroRun zc) [] := by
  constructor <;> rfl

theorem State.emitAll_wrote (b : State) (bs : List Byte) : State.Wrote b (b.emitAll bs) bs := by constructor <;> rfl

theorem State.emit58_wrote (b : State) (n : Word) : State.Wrote b (b.emit58 n) (b.symbols (digits58 n)) := by
  constructor <;> rfl

theorem State.emit10_wrote (b : State) (n : Word) : State.Wrote b (b.emit10 n) (decimal n) := by constructor <;> rfl

theorem State.loadLimbs_wrote (b : State) (xs : List Word) : State.Wrote b (b.loadLimbs xs) [] := by
  constructor <;> rfl

theorem State.divideOut_wrote (b : State) : ∃ bytes, State.Wrote b b.divideOut bytes :=
  ⟨_, by constructor <;> rfl⟩

/-! ### `ENC` -/

/-- A successful `ENC` dispatch only appends to `OUT`. -/
theorem encDispatch_ok {s u : State} (h : encDispatch s = .ok u) :
    u.op64 = s.op64 ∧ ∃ bytes, State.Wrote s u bytes := by
  unfold encDispatch at h
  split_ifs at h with h0 h1
  · cases h; exact ⟨rfl, [], State.Wrote.refl s⟩
  · unfold encFixed at h
    split at h
    · simp at h
    · cases h; exact ⟨rfl, _, by constructor <;> rfl⟩
  · unfold encLimbPath at h
    split at h
    · simp at h
    · cases h
      obtain ⟨bytes, hb⟩ := State.divideOut_wrote (s.loadLimbs ‹_›)
      exact ⟨rfl, _, (State.loadLimbs_wrote s _).trans hb⟩

/-- A successful `ENC` body only appends to `OUT`. -/
theorem encBody_ok {b u : State} (h : encBody b = .ok u) : u.op64 = b.op64 ∧ ∃ bytes, State.Wrote b u bytes := by
  unfold encBody at h
  split at h
  · simp at h
  · obtain ⟨ho, bytes, hw⟩ := encDispatch_ok h
    exact ⟨ho, _, ((State.noteZeroRun_wrote b _).trans (State.emitAll_wrote _ _)).trans hw⟩

/-- Everything that can end `parse10` early. -/
theorem parse10_error {off len : Nat} {acc : Word} {xs : List (Option Byte)} {e : Stop}
    (h : parse10 off len acc xs = .error e) :
    (e = .noValue ∧ none ∈ xs) ∨ e = .raise (.invalidDigit off len) := by
  induction xs generalizing acc with
  | nil => simp [parse10] at h
  | cons x xs ih =>
    cases x with
    | none => exact .inl ⟨by simpa [parse10] using h.symm, by simp⟩
    | some b =>
      simp only [parse10] at h
      split_ifs at h
      · exact (ih h).imp (fun g => ⟨g.1, by simp [g.2]⟩) id
      · exact .inr (by simpa using h.symm)

/-- Everything that can end `CHUNK` early. -/
theorem parseChunks_error {xs : List (Option Byte)} {zc flen j n : Nat} {e : Stop}
    (h : parseChunks xs zc flen j n = .error e) :
    (e = .noValue ∧ none ∈ xs) ∨ ∃ off len, e = .raise (.invalidDigit off len) := by
  induction n generalizing j with
  | zero => simp [parseChunks] at h
  | succ n ih =>
    simp only [parseChunks] at h
    split at h
    · rename_i e' he
      cases h
      refine (parse10_error he).imp (fun g => ⟨g.1, ?_⟩) fun g => ⟨_, _, g⟩
      exact List.mem_of_mem_drop (List.mem_of_mem_take g.2)
    · split at h
      · rename_i e' he
        cases h
        exact ih he
      · simp at h

/-- Everything that can end the body of `ENC` early (R163, R258(b)). -/
theorem encBody_error {b : State} {e : Stop} (h : encBody b = .error e) :
    (e = .noValue ∧ none ∈ b.operand) ∨ ∃ off len, e = .raise (.invalidDigit off len) := by
  unfold encBody at h
  split at h
  · rename_i e' he
    cases h
    exact .inl (scanZeroDigits_error he)
  · unfold encDispatch at h
    split_ifs at h with h0 h1
    · unfold encFixed at h
      split at h
      · rename_i e' he
        cases h
        exact (parse10_error he).imp (fun g => ⟨g.1, List.mem_of_mem_drop g.2⟩) fun g => ⟨_, _, g⟩
      · simp at h
    · unfold encLimbPath at h
      split at h
      · rename_i e' he
        cases h
        exact parseChunks_error he
      · simp at h

/-! ### `DEC` -/

/-- A successful `DEC` body only appends to `OUT`. -/
theorem decBody_ok {b u : State} (h : decBody b = .ok u) : u.op64 = b.op64 ∧ ∃ bytes, State.Wrote b u bytes := by
  unfold decBody at h
  split_ifs at h with h0
  · cases h; exact ⟨rfl, [], State.Wrote.refl b⟩
  split at h
  · simp at h
  rename_i zc hz
  have hp := (State.noteZeroRun_wrote b zc).trans (State.emitAll_wrote (b.noteZeroRun zc) (List.replicate zc 0x30#8))
  unfold decDispatch at h
  split_ifs at h with h1
  · unfold decFixed at h
    split at h
    · simp at h
    · cases h
      exact ⟨rfl, _, hp.trans (by constructor <;> rfl)⟩
  · unfold decLimbPath at h
    split at h
    · simp at h
    · cases h
      exact ⟨rfl, _, hp.trans (by constructor <;> rfl)⟩

/-- Everything that can end the body of `DEC` early (R189, R258(c)). -/
theorem decBody_error {b : State} {e : Stop} (h : decBody b = .error e) :
    (e = .noValue ∧ none ∈ b.operand) ∨
    ∃ c j, e = .raise (.invalidSymbol c j) ∧ some c ∈ b.operand ∧ valueOf b.rev c = none := by
  unfold decBody at h
  split_ifs at h with h0
  split at h
  · rename_i e' he
    cases h
    exact .inl (scanZeroSymbols_error he)
  · unfold decDispatch at h
    split_ifs at h with h1
    · unfold decFixed at h
      split at h
      · rename_i e' he
        cases h
        refine (fold58_error he).imp (fun g => ⟨g.1, List.mem_of_mem_drop g.2⟩) ?_
        rintro ⟨c, j, g, hm, hv⟩
        exact ⟨c, j, g, List.mem_of_mem_drop hm, hv⟩
      · simp at h
    · unfold decLimbPath at h
      split at h
      · rename_i e' he
        cases h
        refine (DecLoop.run_error he).imp (fun g => ⟨g.1, List.mem_of_mem_drop g.2⟩) ?_
        rintro ⟨c, j, g, hm, hv⟩
        exact ⟨c, j, g, List.mem_of_mem_drop hm, hv⟩
      · simp at h

/-! ### `ENCU64`, `DECU64` -/

/-- The body of `ENCU64` always succeeds, and only appends to `OUT` (R131). -/
theorem encu64Body_ok (b : State) : ∃ u bytes, encu64Body b = .ok u ∧ u.op64 = b.op64 ∧ State.Wrote b u bytes := by
  unfold encu64Body
  split_ifs
  · exact ⟨_, _, rfl, rfl, State.emitAll_wrote b _⟩
  · exact ⟨_, _, rfl, rfl, State.emit58_wrote b _⟩

/-- A successful `DECU64` body writes `OP64` and nothing else the host can see (R134). -/
theorem decu64Body_ok {b u : State} (h : decu64Body b = .ok u) : State.Wrote b u [] := by
  unfold decu64Body at h
  split at h
  · simp at h
  · cases h; constructor <;> rfl

/-- Everything that can end the body of `DECU64` early (R134). -/
theorem decu64Body_error {b : State} {e : Stop} (h : decu64Body b = .error e) :
    (e = .noValue ∧ none ∈ b.operand) ∨
    ∃ c j, e = .raise (.invalidSymbol c j) ∧ some c ∈ b.operand ∧ valueOf b.rev c = none := by
  unfold decu64Body at h
  split at h
  · rename_i e' he
    cases h
    exact fold58_error he
  · simp at h

/-! ### `ALPHASEL`, `ALPHALOAD` -/

/-- Everything the body of `ALPHASEL` can answer (R112). -/
theorem alphaselBody_cases (p : Preset) (b : State) :
    (p = .other ∧ alphaselBody p b = .error (.raise .unknownName)) ∨
    ∃ table, presetTable p = some table ∧ alphaselBody p b = .ok (b.setAlphabet table) := by
  cases p
  · exact .inr ⟨_, rfl, rfl⟩
  · exact .inr ⟨_, rfl, rfl⟩
  · exact .inr ⟨_, rfl, rfl⟩
  · exact .inl ⟨rfl, rfl⟩

/-- A successful `ALPHALOAD` body loads 58 distinct bytes (R113). -/
theorem alphaloadBody_ok {b u : State} (h : alphaloadBody b = .ok u) :
    ∃ bytes k, bytes.Nodup ∧ bytes.length = 58 ∧
      u = { b.setAlphabet (tableOf bytes) with scratch := { b.scratch with k := k } } := by
  unfold alphaloadBody at h
  split_ifs at h with h0
  split at h
  · simp at h
  · rename_i bytes hs
    cases h
    obtain ⟨h1, h2⟩ := scanDistinct_nodup List.nodup_nil hs
    refine ⟨bytes, 57, h1, ?_, rfl⟩
    rw [h2, State.operand_length]
    simp only [ne_eq, not_not] at h0
    simp [h0]

/-- Everything that can end the body of `ALPHALOAD` early (R113, R253). -/
theorem alphaloadBody_error {b : State} {e : Stop} (h : alphaloadBody b = .error e) :
    (e = .noValue ∧ none ∈ b.operand) ∨ e = .raise (.wrongCount b.inLen) ∨ ∃ c k, e = .raise (.duplicate c k) := by
  unfold alphaloadBody at h
  split_ifs at h with h0
  · exact .inr (.inl (by simpa using h.symm))
  split at h
  · rename_i e' he
    cases h
    exact (scanDistinct_error he).imp id .inr
  · simp at h

end Sys2Proof.Machine
end

