-- ==== Sys2Proof/Laws/PerInstr.lean ====
section
/-! SUPPORT. Facts stated once per constructor of `Instr`: its row of `spec/opcode_table.json` and its command word. -/

namespace Sys2Proof.Laws.TableRow

/-- The row's `match`. -/
def rowMatch : Instr → Byte
  | .enc => 0x00#8
  | .dec => 0x01#8
  | .encu64 => 0x02#8
  | .decu64 => 0x03#8
  | .alphasel _ => 0x04#8
  | .alphaload => 0x05#8

/-- The row's `mask`: the command bits that are no operand field. -/
def rowMask : Instr → Byte
  | .enc | .dec | .encu64 | .decu64 | .alphaload => 0xFF#8
  | .alphasel _ => 0xE7#8

/-- The encoding of an instruction has the bits its row fixes, and its fields pass every check of R84. -/
def Statement (i : Instr) : Prop :=
  encode i &&& rowMask i = rowMatch i ∧ (commandFields (encode i)).wellFormed = true ∧ i.wellFormed = true

theorem enc : Statement .enc := by unfold Statement; decide

theorem dec : Statement .dec := by unfold Statement; decide

theorem encu64 : Statement .encu64 := by unfold Statement; decide

theorem decu64 : Statement .decu64 := by unfold Statement; decide

theorem alphasel (p : Preset) : Statement (.alphasel p) := by unfold Statement; cases p <;> decide

theorem alphaload : Statement .alphaload := by unfold Statement; decide

end Sys2Proof.Laws.TableRow
end

