-- ==== Sys2Proof/Tests/Slice0.lean ====
section
/-! SUPPORT. Own tests: the checks of WellFormed, command bytes written out from R81 to R83, vectors of
`95_test_vectors.md`, and for every statement with hypotheses a state and operands that meet them. -/

namespace Sys2Proof.Tests

open Sys2Proof.Machine

/-! ### WellFormed: each check refuses an ill-formed term (R84, R113) -/

theorem test_wf_rsv : (CommandFields.mk 0b001#3 0b00#2 0b000#3).wellFormed = false := by decide

theorem test_wf_op : (CommandFields.mk 0b000#3 0b00#2 0b110#3).wellFormed = false := by decide

theorem test_wf_preset : (CommandFields.mk 0b000#3 0b01#2 0b001#3).wellFormed = false := by decide

theorem test_wf_preset_alphasel : (CommandFields.mk 0b000#3 0b11#2 0b100#3).wellFormed = true := by decide

theorem test_wf_alphabet_count : alphabetWellFormed (flickrSymbols.drop 1) = false := by decide +kernel

theorem test_wf_alphabet_duplicate : alphabetWellFormed (0x32#8 :: flickrSymbols.drop 1) = false := by decide +kernel

theorem test_wf_alphabet : alphabetWellFormed flickrSymbols = true := by decide +kernel

/-! ### Command bytes, bit by bit: `RSV` 7:5, `PRESET` 4:3, `OP` 2:0 (R81 to R83) -/

theorem test_decode_enc : decode 0b00000000#8 = .ok .enc := by decide

theorem test_decode_dec : decode 0b00000001#8 = .ok .dec := by decide

theorem test_decode_encu64 : decode 0b00000010#8 = .ok .encu64 := by decide

theorem test_decode_decu64 : decode 0b00000011#8 = .ok .decu64 := by decide

theorem test_decode_alphasel_flickr : decode 0b00000100#8 = .ok (.alphasel .flickr) := by decide

theorem test_decode_alphasel_ripple : decode 0b00001100#8 = .ok (.alphasel .ripple) := by decide

theorem test_decode_alphasel_bitcoin : decode 0b00010100#8 = .ok (.alphasel .bitcoin) := by decide

theorem test_decode_alphasel_other : decode 0b00011100#8 = .ok (.alphasel .other) := by decide

theorem test_decode_alphaload : decode 0b00000101#8 = .ok .alphaload := by decide

theorem test_decode_reserved_rsv : decode 0b00100000#8 = .error .rsvBits := by decide

theorem test_decode_reserved_op : decode 0b00000110#8 = .error .opCode := by decide

theorem test_decode_reserved_preset : decode 0b00001101#8 = .error .presetBits := by decide

/-! ### Small states -/

/-- `IN` and `IN_LEN` hold these bytes. -/
def withInput (s : State) (bs : List Byte) : State := { s with inMem := Memory.store [] 0 bs, inLen := bs.length }

/-- Right after `ALPHASEL` of a preset's symbols. -/
def withSymbols (symbols : List Byte) : State := State.reset.setAlphabet (tableOf symbols)

theorem withInput_operand (s : State) (bs : List Byte) : (withInput s bs).operand = bs.map some := by
  simpa [withInput, State.operand] using Memory.firstBytes_store [] 0 bs

/-- What the host reads when a command has ended. -/
structure Ended where
  out : List (Option Byte)
  status : Byte
  errByte : Byte
  errOff : Nat
  errLen : Nat
  errDetail : Byte
  op64 : Word
  deriving DecidableEq, Repr

/-- What one step that runs command `w` leaves. -/
def runCommand (w : Nat) (s : State) : Option Ended :=
  match step (s.withFetchWord 8 w) with
  | .next t => some ⟨t.output, t.status, t.errByte, t.errOff, t.errLen, t.errDetail, t.op64⟩
  | .fault _ => none
  | .refused _ => none

/-! ### One step on a vector of `95_test_vectors.md` -/

/-- `"0018446744073709551616"`. -/
def digits22 : List Byte :=
  [0x30#8, 0x30#8, 0x31#8, 0x38#8, 0x34#8, 0x34#8, 0x36#8, 0x37#8, 0x34#8, 0x34#8, 0x30#8] ++
  [0x37#8, 0x33#8, 0x37#8, 0x30#8, 0x39#8, 0x35#8, 0x35#8, 0x31#8, 0x36#8, 0x31#8, 0x36#8]

/-- `"11JPwcyDCgEuq"`. -/
def symbols13 : List Byte :=
  [0x31#8, 0x31#8, 0x4A#8, 0x50#8, 0x77#8, 0x63#8, 0x79#8, 0x44#8, 0x43#8, 0x67#8, 0x45#8, 0x75#8, 0x71#8]

/-- V-E14 (limb path, two leading zeros). -/
theorem test_enc_limb_path :
    runCommand 0x00 (withInput (withSymbols flickrSymbols) digits22) =
      some ⟨symbols13.map some, 0x06#8, 0#8, 0, 0, 0#8, 0#64⟩ := by decide +kernel

/-- V-E24 and P4: `"00x1"` ends with `InvalidDigit` at 2, length 2. -/
theorem test_enc_invalid_digit :
    runCommand 0x00 (withInput (withSymbols flickrSymbols) [0x30#8, 0x30#8, 0x78#8, 0x31#8]) =
      some ⟨[], 0x0E#8, 0#8, 2, 2, 0#8, 0#64⟩ := by decide +kernel

/-- V-F17 (limb path, two leading zero-symbols). -/
theorem test_dec_limb_path :
    runCommand 0x01 (withInput (withSymbols flickrSymbols) symbols13) =
      some ⟨digits22.map some, 0x06#8, 0#8, 0, 0, 0#8, 0#64⟩ := by decide +kernel

/-- V-F27, S5, P4: `"FOO"` in the bitcoin preset ends with `InvalidSymbol` `'O'` at 1. -/
theorem test_dec_invalid_symbol :
    runCommand 0x01 (withInput (withSymbols bitcoinSymbols) [0x46#8, 0x4F#8, 0x4F#8]) =
      some ⟨[], 0x16#8, 0x4F#8, 1, 1, 0#8, 0#64⟩ := by decide +kernel

/-- V-U4: 58 in the ripple preset is `"pr"`. -/
theorem test_encu64_58 :
    runCommand 0x02 { withSymbols rippleSymbols with op64 := 58#64 } =
      some ⟨[some 0x70#8, some 0x72#8], 0x06#8, 0#8, 0, 0, 0#8, 58#64⟩ := by decide +kernel

/-- V-U1: 0 is the single zero-symbol, `"r"` in the ripple preset. -/
theorem test_encu64_zero :
    runCommand 0x02 (withSymbols rippleSymbols) = some ⟨[some 0x72#8], 0x06#8, 0#8, 0, 0, 0#8, 0#64⟩ := by
  decide +kernel

/-- V-D6: eleven `'z'` in the bitcoin preset wrap to 6539899926455986175, without an error. -/
theorem test_decu64_wraps :
    runCommand 0x03 (withInput (withSymbols bitcoinSymbols) (List.replicate 11 0x7A#8)) =
      some ⟨[], 0x06#8, 0#8, 0, 0, 0#8, 6539899926455986175#64⟩ := by decide +kernel

/-- V-D12: a failed `DECU64` leaves `OP64`. -/
theorem test_decu64_invalid_symbol :
    runCommand 0x03 { withInput (withSymbols bitcoinSymbols) [0x46#8, 0x4F#8, 0x4F#8] with op64 := 7#64 } =
      some ⟨[], 0x16#8, 0x4F#8, 1, 1, 0#8, 7#64⟩ := by decide +kernel

/-- R112's example: selecting bitcoin leaves `STATUS = 0x06`. -/
theorem test_alphasel_bitcoin :
    runCommand 0x14 State.reset = some ⟨[], 0x06#8, 0#8, 0, 0, 0#8, 0#64⟩ := by decide +kernel

/-- P4, second command: an unknown name before any alphabet. -/
theorem test_alphasel_other :
    runCommand 0x1C State.reset = some ⟨[], 0x1A#8, 0#8, 0, 0, 1#8, 0#64⟩ := by decide +kernel

/-- R113's example: the 58 bytes of the bitcoin preset load. -/
theorem test_alphaload :
    runCommand 0x05 (withInput State.reset bitcoinSymbols) = some ⟨[], 0x06#8, 0#8, 0, 0, 0#8, 0#64⟩ := by
  decide +kernel

/-- V-A9: the last byte replaced by `'1'` is a duplicate at 57. -/
theorem test_alphaload_duplicate :
    runCommand 0x05 (withInput State.reset (bitcoinSymbols.take 57 ++ [0x31#8])) =
      some ⟨[], 0x1A#8, 0x31#8, 57, 1, 3#8, 0#64⟩ := by decide +kernel

/-! ### Witnesses: states and operands that meet the hypotheses of the statements -/

theorem reset_memory_wf : State.reset.inMem.wf ∧ State.reset.outMem.wf := ⟨List.Pairwise.nil, List.Pairwise.nil⟩

theorem flickr_nodup : (tableOf flickrSymbols).toList.Nodup := by
  rw [tableOf_toList rfl]; decide +kernel

theorem flickr_ok : AlphabetOk (withSymbols flickrSymbols).alpha (withSymbols flickrSymbols).rev :=
  alphabetOk_reverseTable flickr_nodup

/-- The invariant holds of a block with an alphabet and an operand, whatever the host does next. -/
theorem inv_flickr (bs : List Byte) (l : List HostEvent) :
    ({ withInput (withSymbols flickrSymbols) bs with host := l } : State).Inv where
  inWf := Memory.store_wf _ _ _ List.Pairwise.nil
  outWf := List.Pairwise.nil
  outExact := rfl
  alphabet := fun _ => flickr_ok
  busyDone := by rintro ⟨h, -⟩; cases h
  busyCommand := ⟨fun h => (by cases h), fun h => (by cases h)⟩
  commandLegal := fun w h => (by cases h)
  busyClear := fun h => (by cases h)
  errNoOutput := fun h => absurd rfl h
  errDone := fun h => absurd rfl h
  errClear := fun _ => ⟨rfl, rfl, rfl, rfl⟩
  errDetail := fun _ => rfl
  errCause := fun h => (by cases h)
  limbCount := rfl
  limbBound := fun x hx => (by cases hx)
  carryBound := Nat.zero_le _
  flenBound := Nat.zero_le _

/-- The flickr block with this operand: the form of most witnesses below. -/
abbrev flickrWith (bs : List Byte) : State := withInput (withSymbols flickrSymbols) bs

/-- A block in which `ENC` has just been started. -/
abbrev busyState : State := (flickrWith [0x35#8]).acceptCommand 0x00#8

theorem decimal_of {d : List Byte} (h : d.all isDigit = true) : ∀ b ∈ d, isDecimal b :=
  fun b hb => (isDigit_iff b).1 (List.all_eq_true.1 h b hb)

theorem symbols_of {rev : Vector (Option (Fin 58)) 256} {d : List Byte}
    (h : (d.all fun b => (valueOf rev b).isSome) = true) : ∀ b ∈ d, (valueOf rev b).isSome = true :=
  fun b hb => List.all_eq_true.1 h b hb

theorem witness_ReservedCommandBytesAreRefused :
    0x06#8 ∉ [0x00#8, 0x01#8, 0x02#8, 0x03#8, 0x04#8, 0x05#8, 0x0C#8, 0x14#8, 0x1C#8] ∧ State.reset.busy = false := by
  decide

theorem witness_StepRunsLatchedCommand :
    busyState.cmd = some 0x00#8 ∧ decode 0x00#8 = .ok .enc ∧ busyState.host = [] ∧
    ({ busyState with host := [.waitDone] } : State).host = .waitDone :: [] := ⟨rfl, by decide, rfl, rfl⟩

theorem witness_HostAccessComesFirst :
    ({ State.reset with host := [.readReg 1] } : State).host = .readReg 1 :: [] ∧ HostEvent.readReg 1 ≠ .waitDone ∧
    State.reset.host = [] ∧ State.reset.cmd = none ∧
    ({ State.reset with host := [.waitDone] } : State).host = .waitDone :: [] := ⟨rfl, by decide, rfl, rfl, rfl⟩

theorem witness_CommandWriteStartsOperation :
    ({ State.reset with host := [.writeReg 0 5, .waitDone] } : State).busy = false ∧ decode 5#8 = .ok .alphaload ∧
    ({ State.reset with host := [.writeReg 0 5, .waitDone] } : State).host = .writeReg 0 (5#8).toNat :: [.waitDone] :=
  ⟨rfl, by decide, rfl⟩

theorem witness_ResetAbandonsOperation :
    ({ busyState with host := [.reset] } : State).host = .reset :: [] ∧ busyState.busy = true := ⟨rfl, rfl⟩

theorem witness_StatusBitsAreLaidOut :
    busyState.phase ≠ .idle ∧ State.reset.err = .none ∧
    ({ State.reset with err := .invalidDigit } : State).err = .invalidDigit ∧
    ({ State.reset with err := .invalidSymbol } : State).err = .invalidSymbol ∧
    ({ State.reset with err := .configError } : State).err = .configError := ⟨by decide, rfl, rfl, rfl, rfl⟩

theorem witness_HostRegisterReads : State.reset.busy = false ∧ 9 ≤ 9 := by decide

theorem witness_HostRegisterWrites :
    State.reset.busy = false ∧ 2 ^ 64 - 1 < 2 ^ 64 ∧ 2 ^ 64 ≤ 2 ^ 64 ∧ 256 ≤ 256 ∧ 9 ≤ 9 ∧ 8 ∈ [3, 5, 6, 7, 8] := by
  decide

theorem witness_BufferAccesses :
    (flickrWith [0x35#8]).busy = false ∧ (flickrWith [0x35#8]).inMem.wf ∧
    (flickrWith [0x35#8]).inMem.read 0 = some 0x35#8 ∧ (flickrWith [0x35#8]).inMem.read 1 = none ∧
    (State.reset.emitAll [0x31#8]).busy = false ∧ (State.reset.emitAll [0x31#8]).outMem.read 0 = some 0x31#8 ∧
    (State.reset.emitAll [0x31#8]).outMem.read 1 = none :=
  ⟨rfl, Memory.store_wf _ _ _ List.Pairwise.nil, rfl, rfl, rfl, rfl, rfl⟩

theorem witness_ReadsHaveNoSideEffect :
    (∃ t, hostAccess (.readReg 8) State.reset = .next t) ∧
    (∃ t, hostAccess (.readIn 0) (flickrWith [0x35#8]) = .next t) ∧
    ∃ t, hostAccess (.readOut 0) (State.reset.emitAll [0x31#8]) = .next t := ⟨⟨_, rfl⟩, ⟨_, rfl⟩, ⟨_, rfl⟩⟩

theorem witness_BusyBlockRefusesAccess : busyState.busy = true ∧ 3 ≤ 8 ∧ 8 ≤ 8 := ⟨rfl, by decide, by decide⟩

/-- A number, all zeros, and the empty input. -/
theorem witness_EncComputesBase58 :
    ((flickrWith digits22).alphaValid = true ∧ (flickrWith digits22).operand = digits22.map some ∧
      (∀ b ∈ digits22, isDecimal b) ∧ 58 ^ 10 ≤ val10 (digits22.drop (lz digits22 0x30#8)) ∧
      val10 (digits22.drop (lz digits22 0x30#8)) < 58 ^ (10 + 1) ∧ (flickrWith digits22).alpha.toList.Nodup) ∧
    ((flickrWith [0x30#8]).operand = [0x30#8].map some ∧ (∀ b ∈ [0x30#8], isDecimal b) ∧
      [0x30#8].drop (lz [0x30#8] 0x30#8) = []) ∧
    (flickrWith []).operand = [].map some :=
  ⟨⟨rfl, withInput_operand _ _, decimal_of (by decide), by decide +kernel, by decide +kernel, flickr_nodup⟩,
    ⟨withInput_operand _ _, decimal_of (by decide), by decide⟩, withInput_operand _ _⟩

/-- A remainder of 1 byte and one of 19. -/
theorem witness_EncReportsWholeShortRemainder :
    ((flickrWith [0x78#8]).operand = [0x78#8].map some ∧ (flickrWith [0x78#8]).alphaValid = true ∧
      1 ≤ [0x78#8].length - lz [0x78#8] 0x30#8 ∧ ∃ b ∈ [0x78#8].drop (lz [0x78#8] 0x30#8), ¬isDecimal b) ∧
    ((List.replicate 19 0x78#8).length - lz (List.replicate 19 0x78#8) 0x30#8 = 19 ∧
      ∃ b ∈ (List.replicate 19 0x78#8).drop (lz (List.replicate 19 0x78#8) 0x30#8), ¬isDecimal b) :=
  ⟨⟨withInput_operand _ _, rfl, by decide, 0x78#8, by decide, by simp [isDecimal]⟩,
    by decide, 0x78#8, by decide, by simp [isDecimal]⟩

/-- 19 digits and then `'x'` (as V-E25): chunk 1 of 2, at 3, length 17; and `'x'` in front: chunk 0, length 3. -/
theorem witness_EncReportsMostSignificantBadChunk :
    let d := List.replicate 19 0x31#8 ++ [0x78#8]
    let e := 0x78#8 :: List.replicate 19 0x31#8
    ((flickrWith d).operand = d.map some ∧ (flickrWith d).alphaValid = true ∧ 20 ≤ d.length - lz d 0x30#8 ∧
      (∀ b ∈ (d.drop 0).take 3, isDecimal b) ∧ ∃ b ∈ (d.drop 3).take 17, ¬isDecimal b) ∧
    (flickrWith e).operand = e.map some ∧ 20 ≤ e.length - lz e 0x30#8 ∧ ∃ b ∈ (e.drop 0).take 3, ¬isDecimal b :=
  ⟨⟨withInput_operand _ _, rfl, by decide, decimal_of (by decide), 0x78#8, by decide, by simp [isDecimal]⟩,
    withInput_operand _ _, by decide, 0x78#8, by decide, by simp [isDecimal]⟩

theorem witness_EncFailsExactlyOnNonDigit :
    (flickrWith [0x35#8]).operand = [0x35#8].map some ∧ (flickrWith [0x35#8]).alphaValid = true ∧
    (∃ t, exec .enc (flickrWith [0x78#8]) = .next t ∧ t.err = .invalidDigit) ∧
    ∃ b ∈ [0x78#8].drop (lz [0x78#8] 0x30#8), ¬isDecimal b :=
  ⟨withInput_operand _ _, rfl, ⟨_, rfl, rfl⟩, 0x78#8, by decide, by simp [isDecimal]⟩

/-- Remainders of 19 and of 20 digits. -/
theorem witness_EncPathByRemainderLength :
    ((flickrWith (List.replicate 19 0x39#8)).operand = (List.replicate 19 0x39#8).map some ∧
      ∀ b ∈ List.replicate 19 0x39#8, isDecimal b) ∧
    (flickrWith (List.replicate 20 0x39#8)).operand = (List.replicate 20 0x39#8).map some ∧
    ∀ b ∈ List.replicate 20 0x39#8, isDecimal b :=
  ⟨⟨withInput_operand _ _, decimal_of (by decide)⟩, withInput_operand _ _, decimal_of (by decide)⟩

/-- The shortest remainder, after one stripped byte; chunk 1 of 2. -/
theorem witness_ChunksPartitionRemainder :
    20 ≤ 20 ∧ (List.replicate 21 (some 0x31#8)).length = 1 + 20 ∧ 1 ≤ 1 ∧ 1 < chunkCount 20 := by decide

/-- The limbs of R156's example, and the largest ones. -/
theorem witness_DivSweepDividesBy58 :
    limbsBounded [184#64, 46744073709551616#64] ∧ limbsBounded [99999999999999999#64] := by
  constructor <;> simp [limbsBounded, Config.limbBase]

theorem witness_EncLoopEndsAtZero :
    limbsBounded [184#64, 46744073709551616#64] ∧ limbsMsf [184#64, 46744073709551616#64] < 10 ^ 20 :=
  ⟨witness_DivSweepDividesBy58.1, by decide +kernel⟩

/-- The empty input, one zero-symbol, and a number behind a zero-symbol. -/
theorem witness_DecComputesDecimal :
    (flickrWith []).operand = [].map some ∧ (flickrWith [0x31#8]).operand = [0x31#8].map some ∧
    (flickrWith [0x31#8, 0x32#8]).operand = [0x31#8, 0x32#8].map some ∧
    (flickrWith [0x31#8, 0x32#8]).alphaValid = true ∧
    ∀ b ∈ [0x31#8, 0x32#8], (valueOf (flickrWith [0x31#8, 0x32#8]).rev b).isSome = true :=
  ⟨withInput_operand _ _, withInput_operand _ _, withInput_operand _ _, rfl, symbols_of (by decide +kernel)⟩

/-- Remainders of 10 and of 11 symbols. -/
theorem witness_DecPathByRemainderLength :
    (List.replicate 10 0x32#8).length - min (lz (List.replicate 10 0x32#8) 0x31#8) 9 = 10 ∧
    (List.replicate 11 0x32#8).length - min (lz (List.replicate 11 0x32#8) 0x31#8) 10 = 11 ∧
    List.replicate 11 0x32#8 ≠ [] ∧
    (flickrWith (List.replicate 10 0x32#8)).operand = (List.replicate 10 0x32#8).map some ∧
    (flickrWith (List.replicate 11 0x32#8)).operand = (List.replicate 11 0x32#8).map some ∧
    ∀ b ∈ List.replicate 11 0x32#8, (valueOf (withSymbols flickrSymbols).rev b).isSome = true :=
  ⟨by decide, by decide, by decide, withInput_operand _ _, withInput_operand _ _, symbols_of (by decide +kernel)⟩

/-- No limb yet, and the largest limb. -/
theorem witness_MulSweepMultipliesBy58 :
    limbsBounded ([] : List Word) ∧ ([] : List Word).getLast? ≠ some 0#64 ∧ limbsBounded [99999999999999999#64] ∧
    [99999999999999999#64].getLast? ≠ some 0#64 :=
  ⟨fun _ h => (by cases h), by decide, witness_DivSweepDividesBy58.2, by decide⟩

/-- `'l'` is no flickr symbol. -/
theorem witness_LeftmostAbsentSymbolIsReported :
    (flickrWith [0x32#8, 0x6C#8]).alphaValid = true ∧
    AlphabetOk (flickrWith [0x32#8, 0x6C#8]).alpha (flickrWith [0x32#8, 0x6C#8]).rev ∧
    (flickrWith [0x32#8, 0x6C#8]).operand = [0x32#8].map some ++ some 0x6C#8 :: [] ∧
    (∀ x ∈ [0x32#8], (valueOf (flickrWith [0x32#8, 0x6C#8]).rev x).isSome = true) ∧
    valueOf (flickrWith [0x32#8, 0x6C#8]).rev 0x6C#8 = none :=
  ⟨rfl, flickr_ok, withInput_operand _ _, symbols_of (by decide +kernel), by decide +kernel⟩

/-- Remainders of 1 and 19 digits, and of 10 symbols. -/
theorem witness_PathsAgreeBelowThreshold :
    ((flickrWith [0x35#8]).noteZeroRun 0).operand = [0x35#8].map some ∧
    ((flickrWith [0x35#8]).noteZeroRun 0).scratch.zc + ((flickrWith [0x35#8]).noteZeroRun 0).scratch.m =
      [0x35#8].length ∧
    (∀ b ∈ [0x35#8], isDecimal b) ∧ (∀ b ∈ List.replicate 19 0x39#8, isDecimal b) ∧
    ((flickrWith (List.replicate 19 0x39#8)).noteZeroRun 0).operand = (List.replicate 19 0x39#8).map some ∧
    ((flickrWith (List.replicate 19 0x39#8)).noteZeroRun 0).scratch.m = 19 ∧
    ((flickrWith (List.replicate 10 0x32#8)).noteZeroRun 0).operand = (List.replicate 10 0x32#8).map some ∧
    ((flickrWith (List.replicate 10 0x32#8)).noteZeroRun 0).scratch.m = 10 ∧
    ∀ b ∈ List.replicate 10 0x32#8, (valueOf (withSymbols flickrSymbols).rev b).isSome = true :=
  ⟨withInput_operand (withSymbols flickrSymbols) _, rfl, decimal_of (by decide), decimal_of (by decide), withInput_operand (withSymbols flickrSymbols) _, rfl,
    withInput_operand (withSymbols flickrSymbols) _, rfl, symbols_of (by decide +kernel)⟩

theorem witness_ResultFitsDerivedCapacity :
    ({ flickrWith [0x30#8] with host := [] } : State).Inv ∧ (flickrWith [0x30#8]).operand = [0x30#8].map some ∧
    (∃ t, exec .enc (flickrWith [0x30#8]) = .next t ∧ t.outLen = 1) ∧
    (∃ t, exec .dec (flickrWith []) = .next t) ∧ ∃ t, exec .encu64 (flickrWith [0x30#8]) = .next t ∧ t.outLen = 1 :=
  ⟨inv_flickr _ _, withInput_operand _ _, ⟨_, rfl, rfl⟩, ⟨_, rfl⟩, _, rfl, rfl⟩

theorem witness_Encu64ComputesBase58 :
    (withSymbols flickrSymbols).alphaValid = true ∧ (withSymbols flickrSymbols).op64 = 0#64 ∧
    ({ withSymbols flickrSymbols with op64 := 1#64 } : State).op64 ≠ 0#64 := ⟨rfl, rfl, by decide⟩

/-- The numbers at the ends of the ranges of R132. -/
theorem witness_Encu64ResultLength :
    (57#64).toNat ≤ 57 ∧ 58 ^ (2 - 1) ≤ (58#64).toNat ∧ (58#64).toNat ≤ 58 ^ 2 - 1 ∧
    58 ^ (10 - 1) ≤ (430804206899405823#64).toNat ∧ (430804206899405823#64).toNat ≤ 58 ^ 10 - 1 ∧
    58 ^ 10 ≤ (430804206899405824#64).toNat := by decide

theorem witness_Decu64FoldsModulo :
    (flickrWith [0x32#8]).alphaValid = true ∧ (flickrWith [0x32#8]).operand = [0x32#8].map some ∧
    ∀ b ∈ [0x32#8], (valueOf (flickrWith [0x32#8]).rev b).isSome = true :=
  ⟨rfl, withInput_operand _ _, symbols_of (by decide +kernel)⟩

/-- V-D11: `'2'` and 64 zero-symbols, against the 64 zero-symbols alone. -/
theorem witness_Decu64ForgetsFarSymbols :
    State.AlphabetKept (flickrWith ([0x32#8] ++ List.replicate 64 0x31#8)) (flickrWith (List.replicate 64 0x31#8)) ∧
    64 ≤ (List.replicate 64 0x31#8).length ∧
    (flickrWith ([0x32#8] ++ List.replicate 64 0x31#8)).operand = ([0x32#8] ++ List.replicate 64 0x31#8).map some ∧
    (flickrWith (List.replicate 64 0x31#8)).operand = (List.replicate 64 0x31#8).map some ∧
    ∀ b ∈ [0x32#8] ++ List.replicate 64 0x31#8, (valueOf (withSymbols flickrSymbols).rev b).isSome = true := by
  refine ⟨⟨rfl, rfl, rfl⟩, by simp, withInput_operand _ _, withInput_operand _ _, fun b hb => ?_⟩
  rcases List.mem_append.1 hb with h | h
  · exact symbols_of (d := [0x32#8]) (by decide +kernel) b h
  · rw [List.eq_of_mem_replicate h]; decide +kernel

/-- Whatever bytes an operation left in `OUT` can be put in `IN` under the same alphabet. -/
theorem witness_round_trips (s : State) (bs : List Byte) :
    ∃ u : State, State.AlphabetKept s u ∧ u.operand = bs.map some :=
  ⟨withInput s bs, ⟨rfl, rfl, rfl⟩, withInput_operand s bs⟩

theorem witness_U64RoundTripAndAgreement :
    (withSymbols flickrSymbols).alphaValid = true ∧
    AlphabetOk (withSymbols flickrSymbols).alpha (withSymbols flickrSymbols).rev ∧
    (∃ u : State, State.AlphabetKept (withSymbols flickrSymbols) u ∧ u.operand = [0x31#8].map some) ∧
    ∃ u : State, State.AlphabetKept (withSymbols flickrSymbols) u ∧ u.operand = (dec 0).map some :=
  ⟨rfl, flickr_ok, witness_round_trips _ _, witness_round_trips _ _⟩

theorem witness_DecUndoesEnc :
    (flickrWith digits22).alphaValid = true ∧ AlphabetOk (flickrWith digits22).alpha (flickrWith digits22).rev ∧
    (flickrWith digits22).operand = digits22.map some ∧ (∀ b ∈ digits22, isDecimal b) ∧
    ∃ u : State, State.AlphabetKept (flickrWith digits22) u ∧ u.operand = symbols13.map some :=
  ⟨rfl, flickr_ok, withInput_operand _ _, decimal_of (by decide), witness_round_trips _ _⟩

theorem witness_EncUndoesDec :
    (flickrWith symbols13).alphaValid = true ∧ AlphabetOk (flickrWith symbols13).alpha (flickrWith symbols13).rev ∧
    (flickrWith symbols13).operand = symbols13.map some ∧
    (∀ b ∈ symbols13, (valueOf (flickrWith symbols13).rev b).isSome = true) ∧
    ∃ u : State, State.AlphabetKept (flickrWith symbols13) u ∧ u.operand = digits22.map some :=
  ⟨rfl, flickr_ok, withInput_operand _ _, symbols_of (by decide +kernel), witness_round_trips _ _⟩

theorem witness_AlphaselSelectsPreset : Preset.flickr ≠ .other ∧ Preset.bitcoin ≠ .other := by decide

theorem witness_PresetTablesAreAlphabets : presetTable .flickr = some (tableOf flickrSymbols) := rfl

theorem witness_AlphaloadLoadsDistinctBytes :
    (withInput State.reset flickrSymbols).operand = flickrSymbols.map some ∧ flickrSymbols.length = 58 ∧
    flickrSymbols.Nodup := ⟨withInput_operand _ _, rfl, by decide +kernel⟩

theorem witness_AlphaloadRefusesWrongCount :
    (withInput State.reset (flickrSymbols.take 57)).inLen ≠ 58 ∧
    (withInput State.reset (flickrSymbols ++ [0x30#8])).inLen ≠ 58 ∧ State.reset.inLen ≠ 58 := by decide

theorem witness_AlphaloadReportsFirstRepetition :
    (withInput State.reset (flickrSymbols.take 57 ++ [0x31#8])).inLen = 58 ∧
    (withInput State.reset (flickrSymbols.take 57 ++ [0x31#8])).operand =
      (flickrSymbols.take 57).map some ++ some 0x31#8 :: [] ∧
    (flickrSymbols.take 57).Nodup ∧ 0x31#8 ∈ flickrSymbols.take 57 :=
  ⟨rfl, by rw [withInput_operand]; simp, by decide +kernel, by decide +kernel⟩

theorem witness_ReverseTableIsTwoLoops : (tableOf flickrSymbols).toList.Nodup := flickr_nodup

theorem witness_AlphabetLookupLaws :
    ({ flickrWith [] with host := [] } : State).Inv ∧ ({ flickrWith [] with host := [] } : State).alphaValid = true ∧
    valueOf (withSymbols flickrSymbols).rev 0x4A#8 = some 42 := ⟨inv_flickr _ _, rfl, by decide +kernel⟩

theorem witness_ConversionsNeedAlphabet : State.reset.alphaValid = false := rfl

/-- Every error kind, and every cause of `ConfigError`, occurs. -/
theorem witness_ErrorKindsPerOperation :
    (∃ t, exec .enc (flickrWith [0x78#8]) = .next t ∧ t.err = .invalidDigit) ∧
    (∃ t, exec .dec (flickrWith [0x6C#8]) = .next t ∧ t.err = .invalidSymbol) ∧
    (∃ t, exec (.alphasel .other) State.reset = .next t ∧ t.err = .configError ∧ t.errDetail = 1#8) ∧
    (∃ t, exec .alphaload State.reset = .next t ∧ t.err = .configError ∧ t.errDetail = 2#8) ∧
    ∃ t, exec .encu64 State.reset = .next t ∧ t.err = .configError ∧ t.errDetail = 4#8 := by
  refine ⟨⟨_, rfl, rfl⟩, ?_, ⟨_, rfl, rfl, rfl⟩, ⟨_, rfl, rfl, rfl⟩, ⟨_, rfl, rfl, rfl⟩⟩
  have h : decBody ((flickrWith [0x6C#8]).begin .lzscan) = .error (.raise (.invalidSymbol 0x6C#8 0)) := by
    have hv : valueOf ((flickrWith [0x6C#8]).begin .lzscan).rev 0x6C#8 = none := by decide +kernel
    have := fold58_absent _ [] (by simp) hv 0 { acc := 0#64, v := none } []
    unfold decBody
    exact congrArg (fun r => match r with
      | .error e => Except.error e
      | .ok f => .ok (State.emit10 f.acc (State.begin .lzscan (flickrWith [])))) this
  exact ⟨_, by rw [exec_dec, convert_alphabet _ _ rfl, h, settle_raise], rfl⟩

theorem witness_ErrorLeavesNoResult :
    ∃ t, exec .enc (flickrWith [0x78#8]) = .next t ∧ t.err ≠ .none := ⟨_, rfl, by decide⟩

theorem witness_ConversionFrame :
    (∃ t, exec .enc (flickrWith []) = .next t) ∧ (∃ t, exec .dec (flickrWith []) = .next t) ∧
    (∃ t, exec .encu64 (flickrWith []) = .next t) ∧ (∃ t, exec .decu64 (flickrWith []) = .next t) ∧
    ∃ t, exec .decu64 State.reset = .next t ∧ t.err ≠ .none :=
  ⟨⟨_, rfl⟩, ⟨_, rfl⟩, ⟨_, rfl⟩, ⟨_, rfl⟩, ⟨_, rfl, by decide⟩⟩

theorem witness_ConfigurationFrame :
    (∃ t, exec (.alphasel .flickr) State.reset = .next t) ∧
    (∃ t, exec (.alphasel .other) State.reset = .next t ∧ t.err ≠ .none) ∧
    ∃ t, exec .alphaload State.reset = .next t ∧ t.err ≠ .none := ⟨⟨_, rfl⟩, ⟨_, rfl, by decide⟩, ⟨_, rfl, by decide⟩⟩

/-- `IN_LEN` is 1 and `IN[0]` was never written. -/
theorem witness_OperationsEnd :
    exec .enc { withSymbols flickrSymbols with inLen := 1 } = .fault .inNoValue ∧
    ∃ t, exec .enc (flickrWith []) = .next t := ⟨rfl, _, rfl⟩

/-- One byte written, then none: with a longer `IN_LEN`, and with `IN_LEN` 58 for `ALPHALOAD`. -/
theorem witness_UnwrittenInputByteFaults :
    ({ flickrWith [0x32#8] with inLen := 2 } : State).operand = [0x32#8].map some ++ none :: [] ∧
    ({ flickrWith [0x32#8] with inLen := 2 } : State).alphaValid = true ∧ (∀ b ∈ [0x32#8], isDecimal b) ∧
    (∀ b ∈ [0x32#8], (valueOf (withSymbols flickrSymbols).rev b).isSome = true) ∧
    ({ flickrWith [0x32#8] with inLen := 58 } : State).inLen = 58 ∧
    ({ flickrWith [0x32#8] with inLen := 58 } : State).operand = [0x32#8].map some ++ none :: List.replicate 56 none ∧
    [0x32#8].Nodup :=
  ⟨rfl, rfl, decimal_of (by decide), symbols_of (by decide +kernel), rfl, rfl, by decide⟩

/-- Two blocks that differ in `OUT`, the scratch registers and bytes of `IN` beyond `IN_LEN`. -/
theorem witness_ResultDependsOnlyOnOperands :
    let s := flickrWith []
    let u : State := { (flickrWith [0x35#8]).emitAll [0x31#8] with inLen := 0, scratch := { Scratch.reset with acc := 9#64 } }
    State.AlphabetKept s u ∧ u.op64 = s.op64 ∧ u.operand = s.operand ∧ u ≠ s ∧ ∃ t, exec .enc s = .next t :=
  ⟨⟨rfl, rfl, rfl⟩, rfl, rfl, fun h => (by have := congrArg State.outLen h; cases this), _, rfl⟩

/-- The largest `OP64`, the last register, the last command byte, and an access to each buffer. -/
theorem witness_ProtocolIsNeverRefused :
    (∀ l, ({ flickrWith [] with host := l } : State).Inv) ∧
    protocolOk { flickrWith [] with host := [.writeReg 4 (2 ^ 64 - 1)] } = true ∧
    protocolOk { flickrWith [] with host := [.readReg 8] } = true ∧
    protocolOk { flickrWith [] with host := [.writeReg 0 0x1C] } = true ∧
    protocolOk { flickrWith [] with host := [.writeReg 1 0] } = true ∧
    protocolOk { flickrWith [] with host := [.writeIn 3 0x31#8] } = true ∧
    protocolOk { flickrWith [] with host := [.readOut 0] } = true ∧
    protocolOk { busyState with host := [.readReg 1] } = true ∧
    protocolOk { busyState with host := [.writeReg 2 0] } = false :=
  ⟨fun l => inv_flickr [] l, rfl, rfl, rfl, rfl, rfl, rfl, rfl, rfl⟩

theorem witness_StepKeepsInvariant :
    ({ flickrWith [0x35#8] with host := [.writeReg 0 0, .waitDone] } : State).Inv ∧
    ∃ t, step { flickrWith [0x35#8] with host := [.writeReg 0 0, .waitDone] } = .next t := ⟨inv_flickr _ _, _, rfl⟩

end Sys2Proof.Tests
end

section
/-! PROOFS. Reset, the turn-taking of host and engine, and the host port: one rule per way a step can go and for
the accesses to host registers, then the statements about them. -/

namespace Sys2Proof.Machine

/-! ### The turn-taking (assumption log 6) -/

theorem runEngine_idle {s : State} (hc : s.cmd = none) : runEngine s = .next s := by rw [runEngine, hc]

theorem runEngine_latched {s : State} {w : Byte} {i : Instr} (hc : s.cmd = some w) (hd : decode w = .ok i) :
    runEngine s = exec i s := by
  simp only [runEngine, hc, hd]

theorem step_noHost {s : State} (hh : s.host = []) : step s = runEngine s := by rw [step, hh]

theorem step_waitDone {s : State} {rest : List HostEvent} (hh : s.host = .waitDone :: rest) :
    step s = runEngine { s with host := rest } := by
  rw [step, hh]

theorem step_access {s : State} {e : HostEvent} {rest : List HostEvent} (hh : s.host = e :: rest)
    (he : e ≠ .waitDone) : step s = hostAccess e { s with host := rest } := by
  unfold step
  rw [hh]
  cases e with
  | waitDone => exact absurd rfl he
  | _ => rfl

/-- Settles O5: with a command latched the engine's turn is `exec` of it. -/
theorem stepRunsLatchedCommand : Obligations.StepRunsLatchedCommand := by
  intro s w i hc hd
  refine ⟨fun hh => ?_, fun rest hh => ?_⟩
  · rw [step_noHost hh, runEngine_latched hc hd]
  · rw [step_waitDone hh, runEngine_latched (s := { s with host := rest }) hc hd]

/-- Settles O6: the clauses are the rules of the turn-taking. -/
theorem hostAccessComesFirst : Obligations.HostAccessComesFirst := by
  refine ⟨fun s e rest hh he => step_access hh he, fun s hh hc => ?_, fun s rest hh hc => ?_⟩
  · rw [step_noHost hh, runEngine_idle hc]
  · rw [step_waitDone hh, runEngine_idle (s := { s with host := rest }) hc]

/-! ### Host accesses -/

theorem hostAccess_readReg {s : State} {index v : Nat} (hb : s.busy = false ∨ index < 3)
    (hv : readRegister s index = some v) : hostAccess (.readReg index) s = .next { s with readData := v } := by
  have hok : (s.busy && forbiddenWhileBusy (.readReg index)) = false := by
    rcases hb with hb | hb
    · simp [hb]
    · simp [forbiddenWhileBusy, hb]
  simp only [hostAccess, hok, hv, Bool.false_eq_true, if_false]

theorem hostAccess_writeReg {s : State} {index : Nat} (value : Nat)
    (hb : s.busy = false ∨ forbiddenWhileBusy (.writeReg index value) = false) :
    hostAccess (.writeReg index value) s = writeRegister s value index := by
  have hok : (s.busy && forbiddenWhileBusy (.writeReg index value)) = false := by
    rcases hb with hb | hb <;> simp [hb]
  simp only [hostAccess, hok, Bool.false_eq_true, if_false]

/-- Registers above index 8 do not exist (R25, U8). -/
theorem readRegister_eq_none (s : State) {index : Nat} (h : 9 ≤ index) : readRegister s index = none := by
  obtain ⟨k, rfl⟩ := Nat.exists_eq_add_of_le' h
  rfl

theorem hostAccess_readReg_noSuchRegister (s : State) {index : Nat} (h : 9 ≤ index) :
    hostAccess (.readReg index) s = .refused .noSuchRegister := by
  have hf : forbiddenWhileBusy (.readReg index) = false := by simp [forbiddenWhileBusy]; omega
  simp only [hostAccess, hf, Bool.and_false, readRegister_eq_none s h, Bool.false_eq_true, if_false]

theorem hostAccess_writeReg_noSuchRegister (s : State) (value : Nat) {index : Nat} (h : 9 ≤ index) :
    hostAccess (.writeReg index value) s = .refused .noSuchRegister := by
  have hf : forbiddenWhileBusy (.writeReg index value) = false := by simp [forbiddenWhileBusy]; omega
  rw [hostAccess_writeReg value (.inr hf)]
  obtain ⟨k, rfl⟩ := Nat.exists_eq_add_of_le' h
  rfl

/-- A write of a command byte that names an operation latches it (R26). -/
theorem writeCommand_operation (s : State) {w : Byte} {i : Instr} (hd : decode w = .ok i) :
    writeCommand s w.toNat = .next (s.acceptCommand w) := by
  have hw : BitVec.ofNat 8 w.toNat = w := by simp
  have hlt : w.toNat < 256 := w.isLt
  simp only [writeCommand, hlt, hw, hd, if_true]

theorem startPhase_ne_idle (w : Byte) : startPhase w ≠ .idle := by
  unfold startPhase
  dsimp only
  split_ifs <;> simp

@[simp] theorem State.busy_acceptCommand (s : State) (w : Byte) : (s.acceptCommand w).busy = true := by
  simpa [State.busy] using startPhase_ne_idle w

/-- Settles O10: `CMD`, `STATUS` and `IN_LEN` lie below the indices R60 forbids, the others need an idle block. -/
theorem hostRegisterReads : Obligations.HostRegisterReads := by
  intro s
  refine ⟨hostAccess_readReg (.inr (by decide)) rfl, hostAccess_readReg (.inr (by decide)) rfl,
    hostAccess_readReg (.inr (by decide)) rfl, fun hb => ?_, fun index h => hostAccess_readReg_noSuchRegister s h⟩
  exact ⟨hostAccess_readReg (.inl hb) rfl, hostAccess_readReg (.inl hb) rfl, hostAccess_readReg (.inl hb) rfl,
    hostAccess_readReg (.inl hb) rfl, hostAccess_readReg (.inl hb) rfl, hostAccess_readReg (.inl hb) rfl⟩

/-- Settles O11: each write is `writeRegister`, whose clause for the index and the value answers. -/
theorem hostRegisterWrites : Obligations.HostRegisterWrites := by
  intro s value
  refine ⟨hostAccess_writeReg value (.inr rfl), fun hb => hostAccess_writeReg value (.inl hb), fun hb hv => ?_,
    fun hb hv => ?_, fun hb hv => ?_, fun index hi => ?_, fun index h => hostAccess_writeReg_noSuchRegister s value h⟩
  · rw [hostAccess_writeReg value (.inl hb), writeRegister, if_pos hv]
  · rw [hostAccess_writeReg value (.inl hb), writeRegister, if_neg (Nat.not_lt.2 hv)]
  · rw [hostAccess_writeReg value (.inl hb), writeRegister, writeCommand, if_neg (Nat.not_lt.2 hv)]
  · simp only [List.mem_cons, List.not_mem_nil, or_false] at hi
    rcases hi with rfl | rfl | rfl | rfl | rfl <;> exact hostAccess_writeReg value (.inr rfl)

/-- Settles O7: the write latches the byte, and the wait that may follow lets the engine run it. -/
theorem commandWriteStartsOperation : Obligations.CommandWriteStartsOperation := by
  intro s w i rest hb hd hh
  have hstep : step s = .next (({ s with host := rest } : State).acceptCommand w) := by
    rw [step_access hh nofun, hostAccess_writeReg (s := { s with host := rest }) _ (.inl hb)]
    exact writeCommand_operation _ hd
  refine ⟨_, hstep, rfl, State.busy_acceptCommand _ w, rfl, rfl, rfl, rfl, rfl, rfl, rfl, ⟨rfl, rfl, rfl⟩, rfl, rfl,
    rfl, rfl, rfl, fun rest' hrest => ?_⟩
  rw [step_waitDone (s := ({ s with host := rest } : State).acceptCommand w) hrest]
  exact runEngine_latched rfl hd

/-- Settles O12 by the laws of the byte buffers. -/
theorem bufferAccesses : Obligations.BufferAccesses := by
  intro s i
  refine ⟨fun b hb hwf => ?_, fun b h => ?_, fun h => ?_, fun b hb h => ?_, fun hb h => ?_⟩
  · exact ⟨s.inMem.write i b, by simp [hostAccess, hb], Memory.write_wf _ i b hwf, Memory.read_write_same _ i b,
      fun a ha => Memory.read_write_other _ b ha⟩
  · simp [hostAccess, forbiddenWhileBusy, h]
  · simp [hostAccess, forbiddenWhileBusy, h]
  · simp [hostAccess, hb, h]
  · simp [hostAccess, hb, h]

/-! ### Reset and `STATUS` -/

/-- Settles O1: each value is read off the reset state. -/
theorem resetStateIsAsSpecified : Obligations.ResetStateIsAsSpecified :=
  ⟨by decide, rfl, rfl, rfl, rfl, rfl, rfl, rfl, rfl, rfl, rfl, rfl, rfl, Memory.read_nil, Memory.read_nil, rfl⟩

/-- The fields of a byte put together as `STATUS` is (R27). -/
theorem status_fields : ∀ (code : BitVec 3) (valid done busy : Bool),
    let w := 0#2 ++ code ++ BitVec.ofBool valid ++ BitVec.ofBool done ++ BitVec.ofBool busy
    w.getLsbD 0 = busy ∧ w.getLsbD 1 = done ∧ w.getLsbD 2 = valid ∧ w.extractLsb' 3 3 = code ∧
      w.extractLsb' 6 2 = 0#2 := by
  decide

/-- Settles O9 by the layout of `STATUS` for arbitrary field values. -/
theorem statusBitsAreLaidOut : Obligations.StatusBitsAreLaidOut := by
  intro s
  obtain ⟨hbusy, hdone, hvalid, hcode, hrsv⟩ := status_fields s.err.code s.alphaValid s.done s.busy
  have hcode : s.status.extractLsb' 3 3 = s.err.code := hcode
  refine ⟨?_, hdone, hvalid, fun h => ?_, fun h => ?_, fun h => ?_, fun h => ?_, hrsv⟩
  · rw [State.status, hbusy, State.busy, bne_iff_ne]
  all_goals rw [hcode, h]; rfl

end Sys2Proof.Machine
end

section
/-! PROOFS. Every step keeps the invariant (`StepKeepsInvariant`): the bounds on the scratch registers first, then the
ways a state can meet the invariant, then the step. -/

namespace Sys2Proof.Machine

/-! ### The scratch registers (R32, R33) -/

/-- The clauses of `State.Inv` about the scratch registers. -/
structure Scratch.Ok (c : Scratch) : Prop where
  limbCount : c.nl = c.limb.length
  limbBound : limbsBounded c.limb
  carryBound : c.carry.toNat ≤ 57
  flenBound : c.flen.toNat ≤ 17

@[simp] theorem limbsBounded_nil : limbsBounded [] := by simp [limbsBounded]

@[simp] theorem limbsBounded_cons (x : Word) (xs : List Word) :
    limbsBounded (x :: xs) ↔ x.toNat < Config.limbBase ∧ limbsBounded xs := by simp [limbsBounded]

@[simp] theorem limbsBounded_append (xs ys : List Word) :
    limbsBounded (xs ++ ys) ↔ limbsBounded xs ∧ limbsBounded ys := by
  simp [limbsBounded, or_imp, forall_and]

theorem limbsBounded.take {xs : List Word} (h : limbsBounded xs) (n : Nat) : limbsBounded (xs.take n) :=
  fun x hx => h x (List.mem_of_mem_take hx)

theorem limbsBounded.drop {xs : List Word} (h : limbsBounded xs) (n : Nat) : limbsBounded (xs.drop n) :=
  fun x hx => h x (List.mem_of_mem_drop hx)

theorem Scratch.reset_ok : Scratch.reset.Ok := ⟨rfl, limbsBounded_nil, by decide, by decide⟩

/-! ### The encoder's limbs -/

theorem radixWord_toNat : Config.radixWord.toNat = 58 := rfl

theorem limbBaseWord_toNat : Config.limbBaseWord.toNat = Config.limbBase := rfl

/-- The 64-bit dividend of one limb of a div-58 sweep does not wrap (R234). -/
theorem divDividend_toNat {carry x : Word} (hc : carry.toNat ≤ 57) (hx : x.toNat < Config.limbBase) :
    (carry * Config.limbBaseWord + x).toNat = carry.toNat * Config.limbBase + x.toNat := by
  rw [BitVec.toNat_add, BitVec.toNat_mul, limbBaseWord_toNat, Nat.mod_add_mod, Nat.mod_eq_of_lt]
  simp only [Config.limbBase] at *
  omega

/-- A div-58 sweep of bounded limbs with a remainder of 58 coming in leaves as many bounded limbs, and such a remainder
in `CARRY` (R156). -/
theorem sweepDiv58_bounds {carry : Word} (t : Word) {limbs : List Word} (hc : carry.toNat ≤ 57)
    (hl : limbsBounded limbs) :
    (sweepDiv58 carry t limbs).limb.length = limbs.length ∧ limbsBounded (sweepDiv58 carry t limbs).limb ∧
      (sweepDiv58 carry t limbs).carry.toNat ≤ 57 := by
  induction limbs generalizing carry t with
  | nil => exact ⟨rfl, limbsBounded_nil, hc⟩
  | cons x rest ih =>
    obtain ⟨hx, hrest⟩ := (limbsBounded_cons x rest).1 hl
    have hv := divDividend_toNat hc hx
    have hmod : ((carry * Config.limbBaseWord + x) % Config.radixWord).toNat ≤ 57 := by
      rw [BitVec.toNat_umod]
      exact Nat.le_of_lt_succ (Nat.mod_lt _ (by decide))
    have hdiv : ((carry * Config.limbBaseWord + x) / Config.radixWord).toNat < Config.limbBase := by
      rw [BitVec.toNat_udiv, hv, radixWord_toNat]
      simp only [Config.limbBase] at *
      omega
    obtain ⟨h1, h2, h3⟩ := ih (carry * Config.limbBaseWord + x) hmod hrest
    exact ⟨by simp [sweepDiv58, h1], (limbsBounded_cons _ _).2 ⟨hdiv, h2⟩, h3⟩

/-- One pass of the encoder's loop keeps the number of limbs, their bound and that of `CARRY`. -/
theorem EncLoop.pass_bounds {r : EncLoop} (hl : limbsBounded r.limb) :
    r.trim.sweep.emit.limb.length = r.limb.length ∧ limbsBounded r.trim.sweep.emit.limb ∧
      r.trim.sweep.emit.carry.toNat ≤ 57 := by
  obtain ⟨h1, h2, h3⟩ := sweepDiv58_bounds (carry := 0#64) r.t (by simp) (hl.drop r.trim.head)
  refine ⟨?_, (limbsBounded_append _ _).2 ⟨hl.take _, h2⟩, h3⟩
  change (r.limb.take r.trim.head ++ (sweepDiv58 0#64 r.t (r.limb.drop r.trim.head)).limb).length = r.limb.length
  rw [List.length_append, h1, ← List.length_append, List.take_append_drop]

/-- The encoder's loop keeps the number of limbs, their bound and that of `CARRY` (R153). -/
theorem EncLoop.run_bounds (passes : Nat) {r : EncLoop} (hl : limbsBounded r.limb) (hc : r.carry.toNat ≤ 57) :
    (EncLoop.run passes r).limb.length = r.limb.length ∧ limbsBounded (EncLoop.run passes r).limb ∧
      (EncLoop.run passes r).carry.toNat ≤ 57 := by
  induction passes generalizing r with
  | zero => exact ⟨rfl, hl, hc⟩
  | succ passes ih =>
    rw [EncLoop.run]
    split
    · obtain ⟨h1, h2, h3⟩ := EncLoop.pass_bounds hl
      obtain ⟨g1, g2, g3⟩ := ih h2 h3
      exact ⟨g1.trans h1, g2, g3⟩
    · exact ⟨rfl, hl, hc⟩

/-- What `parse10` accepts is digits. -/
theorem parse10_ok {off len : Nat} {acc w : Word} {xs : List (Option Byte)} (h : parse10 off len acc xs = .ok w) :
    ∃ d : List Byte, xs = d.map some ∧ ∀ b ∈ d, isDecimal b := by
  induction xs generalizing acc with
  | nil => exact ⟨[], rfl, by simp⟩
  | cons x xs ih =>
    cases x with
    | none => simp [parse10] at h
    | some b =>
      simp only [parse10] at h
      split_ifs at h with hb
      obtain ⟨d, rfl, hd⟩ := ih h
      exact ⟨b :: d, rfl, by simpa using ⟨(isDigit_iff b).1 hb, hd⟩⟩

/-- A chunk of at most 17 bytes parses to a number below the limb base (R152, R232). -/
theorem parse10_lt_limbBase {off len : Nat} {w : Word} {xs : List (Option Byte)} (hn : xs.length ≤ 17)
    (h : parse10 off len 0#64 xs = .ok w) : w.toNat < Config.limbBase := by
  obtain ⟨d, rfl, hd⟩ := parse10_ok h
  have hv : val10 d < Config.limbBase := calc
    val10 d < 10 ^ d.length := val10_lt d hd
    _ ≤ 10 ^ 17 := Nat.pow_le_pow_right (by decide) (by simpa using hn)
    _ = Config.limbBase := by norm_num
  obtain ⟨w', hw', hval⟩ := parse10_value off len d hd (hv.trans (by norm_num))
  obtain rfl : w' = w := by simpa [hw'] using h
  omega

/-- `CHUNK` makes one bounded limb per chunk, if no chunk is longer than 17 bytes (R33, R152). -/
theorem parseChunks_bounds {xs : List (Option Byte)} {zc flen : Nat} (hf : flen ≤ 17) {j n : Nat} {limbs : List Word}
    (h : parseChunks xs zc flen j n = .ok limbs) : limbs.length = n ∧ limbsBounded limbs := by
  induction n generalizing j limbs with
  | zero =>
    obtain rfl : [] = limbs := by simpa [parseChunks] using h
    exact ⟨rfl, limbsBounded_nil⟩
  | succ n ih =>
    simp only [parseChunks] at h
    split at h
    · simp at h
    rename_i x hx
    split at h
    · simp at h
    rename_i rest hrest
    cases h
    obtain ⟨h1, h2⟩ := ih hrest
    have hlen : (chunkBytes xs zc flen j).length ≤ 17 := by
      refine (List.length_take_le _ _).trans ?_
      unfold chunkLen
      split
      · exact hf
      · exact le_rfl
    exact ⟨by simp [h1], (limbsBounded_cons _ _).2 ⟨parse10_lt_limbBase hlen hx, h2⟩⟩

theorem State.loadLimbs_scratch_ok (s : State) {limbs : List Word} (hs : s.scratch.Ok)
    (hn : limbs.length = chunkCount s.scratch.m) (hl : limbsBounded limbs) : (s.loadLimbs limbs).scratch.Ok where
  limbCount := hn.symm
  limbBound := hl
  carryBound := hs.carryBound
  flenBound := (flen_toNat _).trans_le (firstChunkLen_le _)

theorem State.divideOut_scratch_ok {s : State} (hs : s.scratch.Ok) : s.divideOut.scratch.Ok := by
  obtain ⟨h1, h2, h3⟩ := EncLoop.run_bounds s.scratch.m
    (r := { phase := s.phase, limb := s.scratch.limb, head := s.scratch.head, carry := 0#64, t := 0#64, emitted := [] })
    hs.limbBound (by simp)
  exact ⟨hs.limbCount.trans h1.symm, h2, h3, hs.flenBound⟩

theorem encDispatch_scratch_ok {s u : State} (h : encDispatch s = .ok u) (hs : s.scratch.Ok) : u.scratch.Ok := by
  unfold encDispatch at h
  split_ifs at h
  · cases h; exact hs
  · unfold encFixed at h
    split at h
    · simp at h
    · cases h; exact { hs with }
  · unfold encLimbPath at h
    split at h
    · simp at h
    · rename_i limbs hl
      cases h
      obtain ⟨hn, hb⟩ := parseChunks_bounds (firstChunkLen_le _) hl
      exact State.divideOut_scratch_ok (State.loadLimbs_scratch_ok s hs hn hb)

theorem encBody_scratch_ok {b u : State} (h : encBody b = .ok u) (hb : b.scratch.Ok) : u.scratch.Ok := by
  unfold encBody at h
  split at h
  · simp at h
  · exact encDispatch_scratch_ok h { hb with }

/-! ### The decoder's limbs -/

/-- The 64-bit product of one limb of a mul-58-add sweep does not wrap (R236). -/
theorem mulProduct_toNat {x carry : Word} (hc : carry.toNat ≤ 57) (hx : x.toNat < Config.limbBase) :
    (x * Config.radixWord + carry).toNat = x.toNat * 58 + carry.toNat := by
  rw [BitVec.toNat_add, BitVec.toNat_mul, radixWord_toNat, Nat.mod_add_mod, Nat.mod_eq_of_lt]
  simp only [Config.limbBase] at *
  omega

/-- A mul-58-add sweep of bounded limbs with a carry of at most 57 coming in leaves bounded limbs and such a carry
(R185, R236). -/
theorem sweepMul58_bounds {carry : Word} (y : Word) {limbs : List Word} (hc : carry.toNat ≤ 57)
    (hl : limbsBounded limbs) :
    limbsBounded (sweepMul58 carry y limbs).limb ∧ (sweepMul58 carry y limbs).carry.toNat ≤ 57 := by
  induction limbs generalizing carry y with
  | nil => exact ⟨limbsBounded_nil, hc⟩
  | cons x rest ih =>
    obtain ⟨hx, hrest⟩ := (limbsBounded_cons x rest).1 hl
    have hv := mulProduct_toNat hc hx
    simp only [sweepMul58]
    split_ifs with hlt
    · obtain ⟨h1, h2⟩ := ih (carry := 0#64) (x * Config.radixWord + carry) (by simp) hrest
      exact ⟨(limbsBounded_cons _ _).2 ⟨by simpa [BitVec.lt_def] using hlt, h1⟩, h2⟩
    · have hdiv : ((x * Config.radixWord + carry) / Config.limbBaseWord).toNat ≤ 57 := by
        rw [BitVec.toNat_udiv, hv, limbBaseWord_toNat]
        simp only [Config.limbBase] at *
        omega
      have hmod : ((x * Config.radixWord + carry) % Config.limbBaseWord).toNat < Config.limbBase := by
        rw [BitVec.toNat_umod]
        exact Nat.mod_lt _ (by decide)
      obtain ⟨h1, h2⟩ := ih (x * Config.radixWord + carry) hdiv hrest
      exact ⟨(limbsBounded_cons _ _).2 ⟨hmod, h1⟩, h2⟩

/-- Absorbing a symbol keeps the limbs bounded, also when the carry becomes a new limb (R185). -/
theorem DecLoop.absorb_bounds {r : DecLoop} (v : Fin 58) (hl : limbsBounded r.limb) :
    limbsBounded (r.absorb v).limb ∧ (r.absorb v).carry.toNat ≤ 57 := by
  have hv : (BitVec.ofNat 64 v.val).toNat ≤ 57 := by simp; omega
  obtain ⟨h1, h2⟩ := sweepMul58_bounds r.y hv hl
  refine ⟨?_, h2⟩
  simp only [DecLoop.absorb]
  split_ifs
  · exact h1
  · exact (limbsBounded_append _ _).2 ⟨h1, by simpa using h2.trans_lt (by decide)⟩

/-- The decoder's symbol loop keeps the limbs and `CARRY` bounded (R184). -/
theorem DecLoop.run_bounds {rev : Vector (Option (Fin 58)) 256} {i : Nat} {r q : DecLoop} {xs : List (Option Byte)}
    (hl : limbsBounded r.limb) (hc : r.carry.toNat ≤ 57) (h : DecLoop.run rev i r xs = .ok q) :
    limbsBounded q.limb ∧ q.carry.toNat ≤ 57 := by
  induction xs generalizing i r with
  | nil =>
    obtain rfl : r = q := by simpa [DecLoop.run] using h
    exact ⟨hl, hc⟩
  | cons x xs ih =>
    cases x with
    | none => simp [DecLoop.run] at h
    | some b =>
      cases hv : valueOf rev b with
      | none => simp [DecLoop.run, hv] at h
      | some v =>
        obtain ⟨h1, h2⟩ := DecLoop.absorb_bounds v hl
        exact ih h1 h2 (by simpa [DecLoop.run, hv] using h)

theorem decDispatch_scratch_ok {s u : State} (h : decDispatch s = .ok u) (hs : s.scratch.Ok) : u.scratch.Ok := by
  unfold decDispatch at h
  split_ifs at h
  · unfold decFixed at h
    split at h
    · simp at h
    · cases h; exact { hs with }
  · unfold decLimbPath at h
    split at h
    · simp at h
    · rename_i r hr
      cases h
      obtain ⟨hb, hc⟩ := DecLoop.run_bounds limbsBounded_nil (by simp) hr
      exact ⟨rfl, hb, hc, hs.flenBound⟩

theorem decBody_scratch_ok {b u : State} (h : decBody b = .ok u) (hb : b.scratch.Ok) : u.scratch.Ok := by
  unfold decBody at h
  split_ifs at h
  · cases h; exact hb
  split at h
  · simp at h
  · exact decDispatch_scratch_ok h { hb with }

theorem encu64Body_scratch_ok {b u : State} (h : encu64Body b = .ok u) (hb : b.scratch.Ok) : u.scratch.Ok := by
  unfold encu64Body at h
  split_ifs at h <;> cases h
  · exact hb
  · exact { hb with }

theorem decu64Body_scratch_ok {b u : State} (h : decu64Body b = .ok u) (hb : b.scratch.Ok) : u.scratch.Ok := by
  unfold decu64Body at h
  split at h
  · simp at h
  · cases h; exact { hb with }

/-! ### States that meet the invariant -/

/-- Indices that are exactly those below `n` are in canonical form. -/
theorem Memory.wf_of_keys {m : Memory} {n : Nat} (h : m.map Prod.fst = List.range n) : m.wf := by
  unfold Memory.wf
  rw [h]
  exact List.pairwise_lt_range

/-- The state an operation ends in with success meets the invariant, if `OUT`, the alphabet and the scratch registers
are as it says. -/
theorem State.Succeeded.inv {t : State} (h : t.Succeeded) (hin : t.inMem.wf)
    (hout : t.outMem.map Prod.fst = List.range t.outLen) (ha : t.alphaValid = true → AlphabetOk t.alpha t.rev)
    (hs : t.scratch.Ok) : t.Inv where
  inWf := hin
  outWf := Memory.wf_of_keys hout
  outExact := hout
  alphabet := ha
  busyDone := by simp [State.busy, h.idle]
  busyCommand := by simp [State.busy, h.idle, h.noCommand]
  commandLegal := by simp [h.noCommand]
  busyClear := by simp [State.busy, h.idle]
  errNoOutput := by simp [h.err]
  errDone := by simp [h.err]
  errClear := fun _ => ⟨h.errByte, h.errOff, h.errLen, h.errDetail⟩
  errDetail := fun _ => h.errDetail
  errCause := by simp [h.err]
  limbCount := hs.limbCount
  limbBound := hs.limbBound
  carryBound := hs.carryBound
  flenBound := hs.flenBound

theorem CodecError.kind_ne_none (e : CodecError) : e.kind ≠ .none := by cases e <;> simp [CodecError.kind]

/-- `ERR_DETAIL` is a cause 1 to 4 with `ConfigError` and 0 with any other kind (R91). -/
theorem CodecError.detail_of_kind (e : CodecError) :
    (e.kind ≠ .configError → e.detail = 0#8) ∧
      (e.kind = .configError → 1 ≤ e.detail.toNat ∧ e.detail.toNat ≤ 4) := by
  cases e <;> simp [CodecError.kind, CodecError.detail]

/-- The state an operation ends in with an error meets the invariant. -/
theorem State.raise_inv {s : State} (h : s.Inv) (ph : Phase) (e : CodecError) : ((s.begin ph).raise e).Inv where
  inWf := h.inWf
  outWf := List.Pairwise.nil
  outExact := rfl
  alphabet := h.alphabet
  busyDone := by simp
  busyCommand := by simp
  commandLegal := by simp
  busyClear := by simp
  errNoOutput := fun _ => rfl
  errDone := fun _ => rfl
  errClear := fun he => absurd he e.kind_ne_none
  errDetail := e.detail_of_kind.1
  errCause := e.detail_of_kind.2
  limbCount := Scratch.reset_ok.limbCount
  limbBound := Scratch.reset_ok.limbBound
  carryBound := Scratch.reset_ok.carryBound
  flenBound := Scratch.reset_ok.flenBound

/-- The state a write of `CMD` leaves meets the invariant, if the byte names an operation (R26, R86). -/
theorem State.acceptCommand_inv {s : State} (h : s.Inv) {w : Byte} {i : Instr} (hd : decode w = .ok i) :
    (s.acceptCommand w).Inv where
  inWf := h.inWf
  outWf := List.Pairwise.nil
  outExact := rfl
  alphabet := h.alphabet
  busyDone := by simp
  busyCommand := by simp
  commandLegal := by simpa using ⟨i, hd⟩
  busyClear := fun _ => ⟨rfl, rfl⟩
  errNoOutput := fun _ => rfl
  errDone := by simp
  errClear := fun _ => ⟨rfl, rfl, rfl, rfl⟩
  errDetail := fun _ => rfl
  errCause := by simp
  limbCount := Scratch.reset_ok.limbCount
  limbBound := Scratch.reset_ok.limbBound
  carryBound := Scratch.reset_ok.carryBound
  flenBound := Scratch.reset_ok.flenBound

/-- The reset state meets the invariant, whatever the host does next (R38). -/
theorem State.reset_inv (host : List HostEvent) : ({ State.reset with host := host } : State).Inv where
  inWf := List.Pairwise.nil
  outWf := List.Pairwise.nil
  outExact := rfl
  alphabet := nofun
  busyDone := nofun
  busyCommand := by simp [State.busy, State.reset]
  commandLegal := nofun
  busyClear := nofun
  errNoOutput := fun _ => rfl
  errDone := fun he => absurd rfl he
  errClear := fun _ => ⟨rfl, rfl, rfl, rfl⟩
  errDetail := fun _ => rfl
  errCause := nofun
  limbCount := Scratch.reset_ok.limbCount
  limbBound := Scratch.reset_ok.limbBound
  carryBound := Scratch.reset_ok.carryBound
  flenBound := Scratch.reset_ok.flenBound

/-! ### Operations keep the invariant -/

/-- A state an operation reached by appending to `OUT` ends it within the invariant. -/
theorem State.endOperation_inv {s u : State} (h : s.Inv) {ph : Phase} {bytes : List Byte}
    (hw : State.Wrote (s.begin ph) u bytes) (hs : u.scratch.Ok) : u.endOperation.Inv := by
  have hsucc : u.endOperation.Succeeded :=
    ⟨rfl, rfl, rfl, hw.err, hw.errByte, hw.errOff, hw.errLen, hw.errDetail⟩
  have hout : u.outMem.map Prod.fst = List.range u.outLen := by
    rw [hw.outMem, hw.outLen]
    exact Memory.keys_store [] 0 bytes rfl
  refine hsucc.inv ?_ hout ?_ hs
  · simpa [hw.inMem] using h.inWf
  · simpa [hw.alphaValid, hw.alpha, hw.rev] using h.alphabet

/-- A new alphabet of distinct symbols ends a configuration operation within the invariant; only `K` of the scratch
registers may have changed. -/
theorem State.setAlphabet_inv {s : State} (h : s.Inv) {table : Vector Byte 58} (ht : table.toList.Nodup) (k : Nat) :
    ({ (s.begin .cfg).setAlphabet table with scratch := { Scratch.reset with k := k } } : State).endOperation.Inv := by
  have hsucc : ({ (s.begin .cfg).setAlphabet table with
      scratch := { Scratch.reset with k := k } } : State).endOperation.Succeeded := by constructor <;> rfl
  exact hsucc.inv h.inWf rfl (fun _ => alphabetOk_reverseTable ht) { Scratch.reset_ok with }

/-- A conversion keeps the invariant if its body only appends to `OUT` and leaves the scratch registers within their
bounds. -/
theorem convert_keeps_inv {s t : State} (h : s.Inv) {ph : Phase} {body : State → Except Stop State}
    (hbody : ∀ u, body (s.begin ph) = .ok u → u.scratch.Ok ∧ ∃ bytes, State.Wrote (s.begin ph) u bytes)
    (hnext : convert ph body s = .next t) : t.Inv := by
  rcases convert_next hnext with ⟨-, rfl⟩ | ⟨-, u, hu, rfl⟩ | ⟨-, e, -, rfl⟩
  · exact State.raise_inv h ph _
  · obtain ⟨hs, bytes, hw⟩ := hbody u hu
    exact State.endOperation_inv h hw hs
  · exact State.raise_inv h ph e

theorem flickrSymbols_nodup : flickrSymbols.Nodup := by decide +kernel

theorem rippleSymbols_nodup : rippleSymbols.Nodup := by decide +kernel

theorem bitcoinSymbols_nodup : bitcoinSymbols.Nodup := by decide +kernel

/-- The symbols of a preset are pairwise distinct (R117). -/
theorem presetTable_nodup {p : Preset} {table : Vector Byte 58} (h : presetTable p = some table) :
    table.toList.Nodup := by
  cases p with
  | flickr => cases h; rw [tableOf_toList rfl]; exact flickrSymbols_nodup
  | ripple => cases h; rw [tableOf_toList rfl]; exact rippleSymbols_nodup
  | bitcoin => cases h; rw [tableOf_toList rfl]; exact bitcoinSymbols_nodup
  | other => cases h

theorem execAlphasel_keeps_inv {s t : State} (h : s.Inv) {p : Preset}
    (hnext : configure (alphaselBody p) s = .next t) : t.Inv := by
  rcases configure_next hnext with ⟨u, hu, rfl⟩ | ⟨e, -, rfl⟩
  · rcases alphaselBody_cases p (s.begin .cfg) with ⟨-, he⟩ | ⟨table, ht, hok⟩
    · simp [he] at hu
    · obtain rfl : (s.begin .cfg).setAlphabet table = u := by simpa [hok] using hu
      exact State.setAlphabet_inv h (presetTable_nodup ht) 0
  · exact State.raise_inv h .cfg e

theorem execAlphaload_keeps_inv {s t : State} (h : s.Inv) (hnext : configure alphaloadBody s = .next t) : t.Inv := by
  rcases configure_next hnext with ⟨u, hu, rfl⟩ | ⟨e, -, rfl⟩
  · obtain ⟨bytes, k, hnd, hlen, rfl⟩ := alphaloadBody_ok hu
    exact State.setAlphabet_inv h (by rwa [tableOf_toList hlen]) k
  · exact State.raise_inv h .cfg e

/-- Every operation keeps the invariant. -/
theorem exec_keeps_inv {s t : State} (h : s.Inv) {i : Instr} (hnext : exec i s = .next t) : t.Inv := by
  have hreset (ph : Phase) : (s.begin ph).scratch.Ok := Scratch.reset_ok
  cases i with
  | enc => exact convert_keeps_inv h (fun u hu => ⟨encBody_scratch_ok hu (hreset _), (encBody_ok hu).2⟩) hnext
  | dec => exact convert_keeps_inv h (fun u hu => ⟨decBody_scratch_ok hu (hreset _), (decBody_ok hu).2⟩) hnext
  | encu64 =>
    refine convert_keeps_inv h (fun u hu => ⟨encu64Body_scratch_ok hu (hreset _), ?_⟩) hnext
    obtain ⟨u', bytes, hu', -, hw⟩ := encu64Body_ok (s.begin .fixed)
    obtain rfl : u' = u := by simpa [hu'] using hu
    exact ⟨bytes, hw⟩
  | decu64 =>
    exact convert_keeps_inv h (fun u hu => ⟨decu64Body_scratch_ok hu (hreset _), [], decu64Body_ok hu⟩) hnext
  | alphasel p => exact execAlphasel_keeps_inv h hnext
  | alphaload => exact execAlphaload_keeps_inv h hnext

/-! ### Host accesses and steps keep the invariant -/

/-- The invariant does not speak of the host's remaining accesses. -/
theorem State.withHost_inv {s : State} (h : s.Inv) (rest : List HostEvent) : ({ s with host := rest } : State).Inv :=
  { h with }

/-- Every access of the host keeps the invariant. -/
theorem hostAccess_keeps_inv {s t : State} (h : s.Inv) {e : HostEvent} (hnext : hostAccess e s = .next t) : t.Inv := by
  rcases hostAccess_next hnext with
    rfl | ⟨v, rfl⟩ | ⟨i, b, -, rfl⟩ | ⟨v, -, rfl⟩ | ⟨v, -, rfl⟩ | ⟨w, i, -, hd, rfl⟩ | rfl
  · exact h
  · exact { h with }
  · exact { h with inWf := Memory.write_wf s.inMem i b h.inWf }
  · exact { h with }
  · exact { h with }
  · exact State.acceptCommand_inv h hd
  · exact State.reset_inv s.host

/-- Settles O54: a step is one access of the host, a turn of the idle engine, or one whole operation, and each keeps the
invariant. -/
theorem stepKeepsInvariant : Obligations.StepKeepsInvariant := by
  intro s t h hstep
  rcases step_next hstep with ⟨e, rest, -, -, ha⟩ | ⟨rest, -, ⟨-, rfl⟩ | ⟨w, i, -, -, hx⟩⟩
  · exact hostAccess_keeps_inv (State.withHost_inv h rest) ha
  · exact State.withHost_inv h rest
  · exact exec_keeps_inv (State.withHost_inv h rest) hx

/-- Settles O53: reset with nothing left for the host to do. -/
theorem invariantHoldsAtReset : Obligations.InvariantHoldsAtReset := State.reset_inv []

end Sys2Proof.Machine
end

section
/-! PROOFS. An operation that reaches an operand byte that holds no value faults (`UnwrittenInputByteFaults`): what each
scan and each path makes of accepted bytes followed by one that holds no value. -/

namespace Sys2Proof.Machine

variable {d : List Byte} {rest : List (Option Byte)}

/-- The zero scan of `ENC` stops at a byte that holds no value or at a byte before it (R211). -/
theorem scanZeroDigits_unwritten (d : List Byte) (rest : List (Option Byte)) :
    scanZeroDigits (d.map some ++ none :: rest) = .error .noValue ∨
    ∃ zc ≤ d.length, scanZeroDigits (d.map some ++ none :: rest) = .ok zc := by
  induction d with
  | nil => exact .inl rfl
  | cons b d ih =>
    by_cases hb : b = 0x30#8
    · rcases ih with h | ⟨zc, hz, h⟩
      · exact .inl (by simp [scanZeroDigits, hb, h])
      · exact .inr ⟨zc + 1, by simpa using hz, by simp [scanZeroDigits, hb, h]⟩
    · exact .inr ⟨0, by simp, by simp [scanZeroDigits, hb]⟩

/-- The zero scan of `DEC` stops at a byte that holds no value, or before it: the final byte is not read (R212). -/
theorem scanZeroSymbols_unwritten (z : Byte) (d : List Byte) (rest : List (Option Byte)) :
    scanZeroSymbols z (d.map some ++ none :: rest) = .error .noValue ∨
    ∃ zc ≤ d.length, scanZeroSymbols z (d.map some ++ none :: rest) = .ok zc := by
  induction d with
  | nil =>
    cases rest with
    | nil => exact .inr ⟨0, le_rfl, rfl⟩
    | cons x xs => exact .inl rfl
  | cons b d ih =>
    obtain ⟨x, xs, hx⟩ : ∃ x xs, d.map some ++ none :: rest = x :: xs := by cases d <;> simp
    simp only [List.map_cons, List.cons_append, hx, scanZeroSymbols] at ih ⊢
    by_cases hb : b = z
    · rcases ih with h | ⟨zc, hz, h⟩
      · exact .inl (by simp [hb, h])
      · exact .inr ⟨zc + 1, by simpa using hz, by simp [hb, h]⟩
    · exact .inr ⟨0, by simp, by simp [hb]⟩

/-- What is left of accepted bytes and a byte that holds no value after a leading part of the accepted ones. -/
theorem drop_unwritten {k : Nat} (hk : k ≤ d.length) :
    (d.map some ++ none :: rest).drop k = (d.drop k).map some ++ none :: rest := by
  rw [List.drop_append_of_le_length (by simpa using hk), List.map_drop]

/-- A leading part of accepted bytes and a byte that holds no value that does not reach that byte. -/
theorem take_unwritten {k : Nat} (hk : k ≤ d.length) :
    (d.map some ++ none :: rest).take k = (d.take k).map some := by
  rw [List.take_append_of_le_length (by simpa using hk), List.map_take]

/-- A leading part of accepted bytes and a byte that holds no value that reaches that byte. -/
theorem take_unwritten_past {k : Nat} (hk : d.length < k) :
    (d.map some ++ none :: rest).take k = d.map some ++ none :: rest.take (k - d.length - 1) := by
  obtain ⟨n, rfl⟩ := Nat.exists_eq_add_of_lt hk
  rw [List.take_append, List.take_of_length_le (by simp; omega)]
  simp [Nat.add_assoc]

/-! ### `ENC` -/

/-- Chunks follow each other without a gap (R53). -/
theorem chunkStart_succ (zc flen j : Nat) : chunkStart zc flen (j + 1) = chunkStart zc flen j + chunkLen flen j := by
  cases j with
  | zero => simp [chunkStart, chunkLen]
  | succ j => simp [chunkStart, chunkLen, Config.chunkDigits]; omega

/-- The chunks of a remainder on the limb path end where the remainder ends (R53). -/
theorem chunkStart_chunkCount (zc : Nat) {m : Nat} (hm : 20 ≤ m) :
    chunkStart zc (firstChunkLen m) (chunkCount m) = zc + m := by
  have hc : chunkCount m ≠ 0 := by unfold chunkCount; omega
  rw [chunkStart, if_neg hc]
  unfold firstChunkLen chunkCount
  omega

/-- `parse10` accepts digits (R89). -/
theorem parse10_accepts (off len : Nat) (acc : Word) (hd : ∀ b ∈ d, isDecimal b) :
    ∃ w, parse10 off len acc (d.map some) = .ok w := by
  obtain ⟨w, -, hw⟩ := parse10_digits off len d hd acc
  exact ⟨w, by simpa [parse10] using hw []⟩

/-- `CHUNK` stops at a byte that holds no value, if the chunks reach it and the bytes before it are digits (R152,
U2). -/
theorem parseChunks_unwritten {xs : List (Option Byte)} {zc flen j n : Nat} (hd : ∀ b ∈ d, isDecimal b)
    (hx : xs.drop (chunkStart zc flen j) = d.map some ++ none :: rest)
    (hn : chunkStart zc flen j + d.length < chunkStart zc flen (j + n)) :
    parseChunks xs zc flen j n = .error .noValue := by
  induction n generalizing j d with
  | zero => simp at hn
  | succ n ih =>
    rw [parseChunks, chunkBytes, hx]
    by_cases hlt : d.length < chunkLen flen j
    · rw [take_unwritten_past hlt, parse10_noValue _ _ d hd]
    · have hle : chunkLen flen j ≤ d.length := Nat.le_of_not_lt hlt
      obtain ⟨w, hw⟩ := parse10_accepts (d := d.take (chunkLen flen j)) (chunkStart zc flen j) (chunkLen flen j)
        0#64 fun b hb => hd b (List.mem_of_mem_take hb)
      have hrest : parseChunks xs zc flen (j + 1) n = .error .noValue := by
        refine ih (d := d.drop (chunkLen flen j)) (fun b hb => hd b (List.mem_of_mem_drop hb)) ?_ ?_
        · rw [chunkStart_succ, ← List.drop_drop, hx, drop_unwritten hle]
        · rw [chunkStart_succ, List.length_drop, Nat.add_assoc j 1 n, Nat.add_comm 1 n]
          omega
      rw [take_unwritten hle, hw]
      simp only [hrest]

/-- The remainder of an operand with an accepted part followed by a byte that holds no value. -/
theorem State.remainder_unwritten {s : State} (ho : s.operand = d.map some ++ none :: rest)
    (hz : s.scratch.zc ≤ d.length) : s.remainder = (d.drop s.scratch.zc).map some ++ none :: rest := by
  rw [State.remainder, ho, drop_unwritten hz]

/-- Either path of `ENC` stops at a byte that holds no value after digits (R213, U2). -/
theorem encDispatch_unwritten {s : State} (ho : s.operand = d.map some ++ none :: rest) (hd : ∀ b ∈ d, isDecimal b)
    (hz : s.scratch.zc ≤ d.length) (hm : s.scratch.m = s.inLen - s.scratch.zc) :
    encDispatch s = .error .noValue := by
  have hlen : s.inLen = d.length + (rest.length + 1) := by
    rw [← State.operand_length, ho]; simp
  have hdrop : ∀ b ∈ d.drop s.scratch.zc, isDecimal b := fun b hb => hd b (List.mem_of_mem_drop hb)
  unfold encDispatch
  split_ifs with h0 h1
  · omega
  · rw [encFixed, State.remainder_unwritten ho hz, parse10_noValue _ _ _ hdrop]
  · have hstart : chunkStart s.scratch.zc (firstChunkLen s.scratch.m) 0 = s.scratch.zc := rfl
    have hend := chunkStart_chunkCount s.scratch.zc (m := s.scratch.m) (by simp only [Config.encFixedMax] at h1; omega)
    rw [encLimbPath, parseChunks_unwritten (rest := rest) hdrop]
    · rw [hstart, ho, drop_unwritten hz]
    · rw [Nat.zero_add, hstart, hend, List.length_drop]
      omega

theorem encBody_unwritten {b : State} (ho : b.operand = d.map some ++ none :: rest) (hd : ∀ x ∈ d, isDecimal x) :
    encBody b = .error .noValue := by
  rw [encBody, ho]
  rcases scanZeroDigits_unwritten d rest with h | ⟨zc, hz, h⟩
  · rw [h]
  · rw [h]
    exact encDispatch_unwritten ho hd hz rfl

/-! ### `DEC`, `DECU64`, `ALPHALOAD` -/

/-- The decoder's symbol loop stops at a byte that holds no value, if every byte before it is a symbol (U2). -/
theorem DecLoop.run_noValue (rev : Vector (Option (Fin 58)) 256) (d : List Byte)
    (hd : ∀ b ∈ d, (valueOf rev b).isSome = true) (i : Nat) (r : DecLoop) (rest : List (Option Byte)) :
    DecLoop.run rev i r (d.map some ++ none :: rest) = .error .noValue := by
  rw [DecLoop.run_symbols rev d hd]
  rfl

/-- Either path of `DEC` stops at a byte that holds no value after symbols (R213, U2). -/
theorem decDispatch_unwritten {s : State} (ho : s.operand = d.map some ++ none :: rest)
    (hd : ∀ b ∈ d, (valueOf s.rev b).isSome = true) (hz : s.scratch.zc ≤ d.length) :
    decDispatch s = .error .noValue := by
  have hdrop : ∀ b ∈ d.drop s.scratch.zc, (valueOf s.rev b).isSome = true :=
    fun b hb => hd b (List.mem_of_mem_drop hb)
  unfold decDispatch
  split_ifs
  · rw [decFixed, State.remainder_unwritten ho hz, fold58_noValue _ _ hdrop]
  · rw [decLimbPath, State.remainder_unwritten ho hz, DecLoop.run_noValue _ _ hdrop]

theorem decBody_unwritten {b : State} (ho : b.operand = d.map some ++ none :: rest)
    (hd : ∀ x ∈ d, (valueOf b.rev x).isSome = true) : decBody b = .error .noValue := by
  have hlen : b.inLen ≠ 0 := by
    rw [← State.operand_length, ho]; simp
  rw [decBody, if_neg hlen, ho]
  rcases scanZeroSymbols_unwritten b.zeroSymbol d rest with h | ⟨zc, hz, h⟩
  · rw [h]
  · rw [h]
    exact decDispatch_unwritten ho hd hz

theorem decu64Body_unwritten {b : State} (ho : b.operand = d.map some ++ none :: rest)
    (hd : ∀ x ∈ d, (valueOf b.rev x).isSome = true) : decu64Body b = .error .noValue := by
  rw [decu64Body, ho, fold58_noValue _ _ hd]

theorem alphaloadBody_unwritten {b : State} (ho : b.operand = d.map some ++ none :: rest) (hd : d.Nodup)
    (hlen : b.inLen = 58) : alphaloadBody b = .error .noValue := by
  rw [alphaloadBody, if_neg (not_not.2 hlen), ho, scanDistinct_append [] d hd]
  rfl

/-- Settles O50: each body stops at the byte that holds no value, and the operation then faults. -/
theorem unwrittenInputByteFaults : Obligations.UnwrittenInputByteFaults := by
  intro s before rest ho
  refine ⟨fun hv hd => ?_, fun hv hd => ⟨?_, ?_⟩, fun hlen hd => ?_⟩
  · rw [exec_enc, convert_alphabet _ _ hv, encBody_unwritten (b := s.begin .lzscan) ho hd, settle_noValue]
  · rw [exec_dec, convert_alphabet _ _ hv, decBody_unwritten (b := s.begin .lzscan) ho hd, settle_noValue]
  · rw [exec_decu64, convert_alphabet _ _ hv, decu64Body_unwritten (b := s.begin .fixed) ho hd, settle_noValue]
  · rw [exec_alphaload, configure_eq, alphaloadBody_unwritten (b := s.begin .cfg) ho hd hlen, settle_noValue]

end Sys2Proof.Machine
end

section
/-! PROOFS. The result of a conversion depends on the alphabet and the operands alone (`ResultDependsOnlyOnOperands`).
An operation begins with `OUT`, the limbs and the scratch registers cleared, so under one alphabet two operations begin
in states that differ only in what `State.within` replaces; a body that is given the same operand runs in the same way
in both. -/

namespace Sys2Proof.Machine

/-- `s` with the latched command, the whole of `IN`, and what is the host's own taken from `k`, and with this `OP64`. -/
def State.within (s k : State) (op : Word) : State :=
  { s with cmd := k.cmd, inLen := k.inLen, inMem := k.inMem, host := k.host, readData := k.readData, op64 := op }

section
variable (s k : State) (op : Word)

@[simp] theorem State.within_rev : (s.within k op).rev = s.rev := rfl
@[simp] theorem State.within_inLen : (s.within k op).inLen = k.inLen := rfl
@[simp] theorem State.within_op64 : (s.within k op).op64 = op := rfl
@[simp] theorem State.within_scratch : (s.within k op).scratch = s.scratch := rfl
@[simp] theorem State.within_operand : (s.within k op).operand = k.operand := rfl
@[simp] theorem State.within_zeroSymbol : (s.within k op).zeroSymbol = s.zeroSymbol := rfl

end

/-- Under one alphabet two operations begin in states that differ only in what `State.within` replaces (R21, R86). -/
theorem State.begin_eq_within {s u : State} (ha : State.AlphabetKept s u) (ph : Phase) :
    u.begin ph = (s.begin ph).within u u.op64 := by
  simp only [State.begin, State.within, ha.alpha, ha.rev, ha.alphaValid]

/-- Operands that are equal byte for byte are equally long. -/
theorem State.inLen_eq_of_operand_eq {s k : State} (h : k.operand = s.operand) : k.inLen = s.inLen := by
  rw [← State.operand_length, h, State.operand_length]

/-! ### The bodies -/

section
variable {s k : State} (op : Word) (ho : k.operand = s.operand)
include ho

theorem State.remainder_within : (s.within k op).remainder = s.remainder := by
  rw [State.remainder, State.remainder, State.within_operand, State.within_scratch, ho]

theorem State.noteZeroRun_within (zc : Nat) : (s.within k op).noteZeroRun zc = (s.noteZeroRun zc).within k op := by
  rw [State.noteZeroRun, State.noteZeroRun, ← State.inLen_eq_of_operand_eq ho]
  rfl

theorem encFixed_within : encFixed (s.within k op) = (encFixed s).map (·.within k op) := by
  rw [encFixed, encFixed, State.remainder_within op ho, State.within_scratch]
  cases parse10 s.scratch.zc s.scratch.m 0#64 s.remainder <;> rfl

theorem encLimbPath_within : encLimbPath (s.within k op) = (encLimbPath s).map (·.within k op) := by
  rw [encLimbPath, encLimbPath, State.within_operand, State.within_scratch, ho]
  cases parseChunks s.operand s.scratch.zc (firstChunkLen s.scratch.m) 0 (chunkCount s.scratch.m) <;> rfl

theorem encDispatch_within : encDispatch (s.within k op) = (encDispatch s).map (·.within k op) := by
  unfold encDispatch
  rw [State.within_scratch, encFixed_within op ho, encLimbPath_within op ho]
  split_ifs <;> rfl

theorem encBody_within : encBody (s.within k op) = (encBody s).map (·.within k op) := by
  rw [encBody, encBody, State.within_operand, ho]
  cases scanZeroDigits s.operand with
  | error e => rfl
  | ok zc =>
    dsimp only
    rw [State.noteZeroRun_within op ho]
    exact encDispatch_within (s := (s.noteZeroRun zc).emitAll (List.replicate zc s.zeroSymbol)) op ho

theorem decFixed_within : decFixed (s.within k op) = (decFixed s).map (·.within k op) := by
  rw [decFixed, decFixed, State.remainder_within op ho, State.within_scratch, State.within_rev,
    ← State.inLen_eq_of_operand_eq ho]
  cases fold58 s.rev s.scratch.zc { acc := 0#64, v := none } s.remainder <;> rfl

theorem decLimbPath_within : decLimbPath (s.within k op) = (decLimbPath s).map (·.within k op) := by
  rw [decLimbPath, decLimbPath, State.remainder_within op ho, State.within_scratch, State.within_rev,
    ← State.inLen_eq_of_operand_eq ho]
  cases DecLoop.run s.rev s.scratch.zc { limb := [], carry := 0#64, y := 0#64, v := none } s.remainder <;> rfl

theorem decDispatch_within : decDispatch (s.within k op) = (decDispatch s).map (·.within k op) := by
  unfold decDispatch
  rw [State.within_scratch, decFixed_within op ho, decLimbPath_within op ho]
  split_ifs <;> rfl

theorem decBody_within : decBody (s.within k op) = (decBody s).map (·.within k op) := by
  rw [decBody, decBody, State.within_operand, State.within_inLen, State.within_zeroSymbol, ho,
    State.inLen_eq_of_operand_eq ho]
  split_ifs
  · rfl
  cases scanZeroSymbols s.zeroSymbol s.operand with
  | error e => rfl
  | ok zc =>
    dsimp only
    rw [State.noteZeroRun_within op ho]
    exact decDispatch_within (s := (s.noteZeroRun zc).emitAll (List.replicate zc 0x30#8)) op ho

/-- `DECU64` overwrites `OP64`, so what it held before does not matter (R134). -/
theorem decu64Body_within : decu64Body (s.within k op) = (decu64Body s).map fun t => t.within k t.op64 := by
  rw [decu64Body, decu64Body, State.within_operand, State.within_scratch, State.within_rev, ho,
    ← State.inLen_eq_of_operand_eq ho]
  cases fold58 s.rev 0 { acc := 0#64, v := none } s.operand <;> rfl

end

/-- `ENCU64` reads no operand but `OP64` (R131). -/
theorem encu64Body_within (s k : State) :
    encu64Body (s.within k s.op64) = (encu64Body s).map fun t => t.within k s.op64 := by
  rw [encu64Body, encu64Body, State.within_op64]
  split_ifs <;> rfl

/-! ### The operations -/

/-- What the host can see of a result: `OUT`, `OUT_LEN`, `STATUS` and `ERR_*` (R27, R30, R35). -/
structure State.SameResult (t w : State) : Prop where
  output : w.output = t.output
  outLen : w.outLen = t.outLen
  status : w.status = t.status
  errByte : w.errByte = t.errByte
  errOff : w.errOff = t.errOff
  errLen : w.errLen = t.errLen
  errDetail : w.errDetail = t.errDetail

theorem State.endOperation_within_sameResult (x k : State) (op : Word) :
    State.SameResult x.endOperation (x.within k op).endOperation := by constructor <;> rfl

theorem State.raise_within_sameResult (x k : State) (op : Word) (e : CodecError) :
    State.SameResult (x.raise e) ((x.within k op).raise e) := by constructor <;> rfl

/-- How a conversion ends in a second state with the same alphabet, if its body runs there as in the first but for
what `State.within` replaces: with the same error, or with the same result and the `OP64` the body left. -/
theorem convert_sameResult {s u t : State} {ph : Phase} {body : State → Except Stop State} {op : State → Word}
    (ha : State.AlphabetKept s u)
    (hbody : body ((s.begin ph).within u u.op64) = (body (s.begin ph)).map fun x => x.within u (op x))
    (h : convert ph body s = .next t) :
    ∃ w, convert ph body u = .next w ∧ State.SameResult t w ∧
      (t.err = .none → ∃ x, body (s.begin ph) = .ok x ∧ t = x.endOperation ∧ w.op64 = op x) := by
  rcases convert_next h with ⟨hv, rfl⟩ | ⟨hv, x, hx, rfl⟩ | ⟨hv, e, he, rfl⟩
  · rw [convert_no_alphabet ph body (ha.alphaValid.trans hv), State.begin_eq_within ha]
    exact ⟨_, rfl, State.raise_within_sameResult _ _ _ _, nofun⟩
  · rw [convert_alphabet ph body (ha.alphaValid.trans hv), State.begin_eq_within ha, hbody, hx]
    exact ⟨_, rfl, State.endOperation_within_sameResult _ _ _, fun _ => ⟨x, rfl, rfl, rfl⟩⟩
  · rw [convert_alphabet ph body (ha.alphaValid.trans hv), State.begin_eq_within ha, hbody, he]
    exact ⟨_, rfl, State.raise_within_sameResult _ _ _ _, fun hn => absurd hn e.kind_ne_none⟩

/-- A conversion ends in the same way in two states with the same alphabet and the same operands (R21). -/
theorem exec_sameResult {i : Instr} {s u t : State} (hi : i = .enc ∨ i = .dec ∨ i = .encu64 ∨ i = .decu64)
    (ha : State.AlphabetKept s u) (hop : i = .encu64 → u.op64 = s.op64) (ho : i ≠ .encu64 → u.operand = s.operand)
    (h : exec i s = .next t) :
    ∃ w, exec i u = .next w ∧ State.SameResult t w ∧ (i = .decu64 → t.err = .none → w.op64 = t.op64) := by
  rcases hi with rfl | rfl | rfl | rfl
  · obtain ⟨w, hw, hr, -⟩ := convert_sameResult ha (encBody_within _ (ho nofun)) h
    exact ⟨w, hw, hr, nofun⟩
  · obtain ⟨w, hw, hr, -⟩ := convert_sameResult ha (decBody_within _ (ho nofun)) h
    exact ⟨w, hw, hr, nofun⟩
  · have hbody := encu64Body_within (s.begin .fixed) u
    rw [State.begin_op64, ← hop rfl] at hbody
    obtain ⟨w, hw, hr, -⟩ := convert_sameResult ha hbody h
    exact ⟨w, hw, hr, nofun⟩
  · obtain ⟨w, hw, hr, hop64⟩ := convert_sameResult ha (decu64Body_within _ (ho nofun)) h
    refine ⟨w, hw, hr, fun _ hn => ?_⟩
    obtain ⟨x, -, rfl, hx⟩ := hop64 hn
    exact hx

/-- Settles O51: the host can see nothing of a result that differs between the two states. -/
theorem resultDependsOnlyOnOperands : Obligations.ResultDependsOnlyOnOperands := by
  intro i s u t hi ha hop ho h
  obtain ⟨w, hw, hr, hop64⟩ := exec_sameResult hi ha hop ho h
  exact ⟨w, hw, hr.output, hr.outLen, hr.status, hr.errByte, hr.errOff, hr.errLen, hr.errDetail, hop64⟩

end Sys2Proof.Machine
end

section
/-! PROOFS. Memory accesses (`20_memory.md`): host reads leave no trace, what a busy block refuses, and why a host that
keeps to the protocol is never refused. -/

namespace Sys2Proof.Machine

/-! ### Host reads (R55) -/

/-- What a register reads as does not depend on the port's last value. -/
@[simp] theorem readRegister_withReadData (s : State) (v index : Nat) :
    readRegister { s with readData := v } index = readRegister s index := by
  unfold readRegister
  rfl

/-- A host read that gives a next state changes only the port's value, and does the same whatever stood there. -/
theorem hostAccess_read {s t : State} {e : HostEvent} (he : ∃ k, e = .readReg k ∨ e = .readIn k ∨ e = .readOut k)
    (h : hostAccess e s = .next t) :
    ∃ v, t = { s with readData := v } ∧
      ∀ w, hostAccess e { s with readData := w } = .next { s with readData := v } := by
  unfold hostAccess at h
  split_ifs at h with hb
  have hok : ∀ w, (({ s with readData := w } : State).busy && forbiddenWhileBusy e) = false :=
    fun w => Bool.eq_false_iff.2 hb
  obtain ⟨k, rfl | rfl | rfl⟩ := he
  · cases hr : readRegister s k with
    | none => simp [hr] at h
    | some v => exact ⟨v, by simpa [hr] using h.symm, fun w => by simp [hostAccess, hok, hr]⟩
  · cases hr : s.inMem.read k with
    | none => simp [hr] at h
    | some b => exact ⟨b.toNat, by simpa [hr] using h.symm, fun w => by simp [hostAccess, hok, hr]⟩
  · cases hr : s.outMem.read k with
    | none => simp [hr] at h
    | some b => exact ⟨b.toNat, by simpa [hr] using h.symm, fun w => by simp [hostAccess, hok, hr]⟩

/-- Settles O13: a read gives the same state whatever the port returned before. -/
theorem readsHaveNoSideEffect : Obligations.ReadsHaveNoSideEffect := by
  intro s t e he h
  obtain ⟨v, rfl, hagain⟩ := hostAccess_read he h
  exact ⟨rfl, hagain v⟩

/-! ### A busy block (R60) -/

/-- An access R60 forbids is refused while busy. -/
theorem hostAccess_forbidden {s : State} {e : HostEvent} (hb : s.busy = true) (hf : forbiddenWhileBusy e = true) :
    hostAccess e s = .refused .accessWhileBusy := by
  simp only [hostAccess, hb, hf, Bool.and_self, if_true]

/-- Settles O14: each access of R60's list is forbidden, and bit 0 of `STATUS` is `BUSY`. -/
theorem busyBlockRefusesAccess : Obligations.BusyBlockRefusesAccess := by
  intro s hb
  refine ⟨fun index value hi => hostAccess_forbidden hb ?_, fun i b => hostAccess_forbidden hb rfl,
    fun i => hostAccess_forbidden hb rfl, fun index h3 h8 => hostAccess_forbidden hb ?_,
    hostAccess_readReg (.inr (by decide)) rfl, ?_⟩
  · rcases hi with rfl | rfl | rfl <;> rfl
  · simp [forbiddenWhileBusy, h3, h8]
  · exact (status_fields s.err.code s.alphaValid s.done s.busy).1.trans hb

/-! ### A host that keeps to the protocol (R60, R84) -/

/-- No operation is refused. -/
theorem exec_ne_refused (i : Instr) (s : State) (r : Refusal) : exec i s ≠ .refused r := by
  cases i with
  | alphasel p => exact settle_refused _ _ r
  | _ => exact settle_refused _ _ r

/-- With at most an operation latched, as the invariant has it, the engine's turn is not refused. -/
theorem runEngine_ne_refused {s : State} (h : ∀ w, s.cmd = some w → ∃ i, decode w = .ok i) (r : Refusal) :
    runEngine s ≠ .refused r := by
  cases hc : s.cmd with
  | none => simp [runEngine_idle hc]
  | some w =>
    obtain ⟨i, hd⟩ := h w hc
    rw [runEngine_latched hc hd]
    exact exec_ne_refused i s r

/-- The registers up to index 8 exist (R25). -/
theorem readRegister_exists (s : State) {index : Nat} (h : index ≤ 8) : ∃ v, readRegister s index = some v := by
  interval_cases index <;> exact ⟨_, rfl⟩

/-- A number below 256 that the decoder takes is the byte of an operation. -/
theorem decode_of_decodeTableWord {value : Nat} (h : (decodeTableWord 8 value).isSome = true) (hv : value < 256) :
    ∃ i, decode (BitVec.ofNat 8 value) = .ok i := by
  have hw : commandByte 8 value = BitVec.ofNat 8 value := congrArg (BitVec.ofNat 8) (Nat.mod_eq_of_lt hv)
  rw [decodeTableWord, hw] at h
  cases hd : decode (BitVec.ofNat 8 value) with
  | error why => simp [hd] at h
  | ok i => exact ⟨i, rfl⟩

/-- A register read that keeps to the protocol gives a next state. -/
theorem hostAccess_readReg_next {s : State} {index : Nat} (hi : index ≤ 8) (hb : s.busy = false ∨ index < 3) :
    ∃ t, hostAccess (.readReg index) s = .next t := by
  obtain ⟨v, hv⟩ := readRegister_exists s hi
  exact ⟨_, hostAccess_readReg hb hv⟩

/-- A write that fits, to a register of an idle block that takes writes, gives a next state. -/
theorem hostAccess_writeReg_next {s : State} {index value : Nat} (hb : s.busy = false)
    (h : index = 2 ∨ (index = 4 ∧ value < 2 ^ 64) ∨
      (index = 0 ∧ value < 256 ∧ (decodeTableWord 8 value).isSome = true)) :
    ∃ t, hostAccess (.writeReg index value) s = .next t := by
  rw [hostAccess_writeReg value (.inl hb)]
  rcases h with rfl | ⟨rfl, hv⟩ | ⟨rfl, hv, hd⟩
  · exact ⟨_, rfl⟩
  · exact ⟨_, if_pos hv⟩
  · obtain ⟨i, hi⟩ := decode_of_decodeTableWord hd hv
    have hbyte : (BitVec.ofNat 8 value).toNat = value := Nat.mod_eq_of_lt hv
    exact ⟨_, hbyte ▸ writeCommand_operation s hi⟩

/-- The host's next access is not refused if it keeps to the protocol: `u` is any state as busy as `s`, such as `s` with
the access taken from the queue. -/
theorem hostAccess_ne_refused {s u : State} {e : HostEvent} {rest : List HostEvent} (hh : s.host = e :: rest)
    (hp : protocolOk s = true) (hu : u.busy = s.busy) (r : Refusal) : hostAccess e u ≠ .refused r := by
  unfold protocolOk at hp
  rw [hh, ← hu] at hp
  cases e with
  | readReg index =>
    simp only [Bool.and_eq_true, decide_eq_true_eq, Bool.not_eq_true', Bool.and_eq_false_iff,
      decide_eq_false_iff_not, Nat.not_le] at hp
    obtain ⟨t, ht⟩ := hostAccess_readReg_next hp.1 hp.2
    simp [ht]
  | writeReg index value =>
    simp only [Bool.or_eq_true, Bool.and_eq_true, beq_iff_eq, decide_eq_true_eq, Bool.not_eq_true', or_assoc,
      and_assoc] at hp
    rcases hp with rfl | ⟨hb, hi⟩
    · simp [(hostRegisterWrites u value).1]
    · obtain ⟨t, ht⟩ := hostAccess_writeReg_next hb hi
      simp [ht]
  | readIn i => cases hr : u.inMem.read i <;> simp [hostAccess, forbiddenWhileBusy, hr]
  | writeIn i b =>
    have hb : u.busy = false := by simpa using hp
    simp [hostAccess, hb]
  | readOut i =>
    have hb : u.busy = false := by simpa using hp
    cases hr : u.outMem.read i <;> simp [hostAccess, hb, hr]
  | waitDone => simp [hostAccess, forbiddenWhileBusy]
  | reset => simp [hostAccess, forbiddenWhileBusy]

/-- Settles O52: in the engine's turn the invariant has an operation latched, in the host's turn the protocol admits the
access. -/
theorem protocolIsNeverRefused : Obligations.ProtocolIsNeverRefused := by
  intro s hinv hp r
  cases hh : s.host with
  | nil =>
    rw [step_noHost hh]
    exact runEngine_ne_refused hinv.commandLegal r
  | cons e rest =>
    by_cases he : e = .waitDone
    · subst he
      rw [step_waitDone hh]
      exact runEngine_ne_refused (s := { s with host := rest }) hinv.commandLegal r
    · rw [step_access hh he]
      exact hostAccess_ne_refused (u := { s with host := rest }) hh hp rfl r

end Sys2Proof.Machine
end

section
/-! PROOFS. The encoder's chunks are the remainder, cut without a gap (`ChunksPartitionRemainder`). -/

namespace Sys2Proof.Machine

/-- No chunk starts before the remainder. -/
theorem le_chunkStart (zc flen j : Nat) : zc ≤ chunkStart zc flen j := by
  unfold chunkStart
  split_ifs <;> omega

/-- The first `n` chunks, in order, are the operand from `zc` up to where chunk `n` starts (R53). -/
theorem flatMap_chunkBytes (operand : List (Option Byte)) (zc flen n : Nat) :
    (List.range n).flatMap (chunkBytes operand zc flen) =
      (operand.drop zc).take (chunkStart zc flen n - zc) := by
  induction n with
  | zero => simp [chunkStart]
  | succ n ih =>
    have hstart := le_chunkStart zc flen n
    have hnext : chunkStart zc flen (n + 1) - zc = (chunkStart zc flen n - zc) + chunkLen flen n := by
      rw [chunkStart_succ]; omega
    rw [List.range_succ, List.flatMap_append, ih, hnext, List.take_add, List.drop_drop,
      Nat.add_sub_cancel' hstart, List.flatMap_singleton, chunkBytes]

/-- The chunk count and the first chunk's length on the limb path (R53): all chunks but the first are full. -/
theorem chunk_sizes {m : Nat} (hm : 20 ≤ m) :
    17 * (chunkCount m - 1) < m ∧ m ≤ 17 * chunkCount m ∧ 1 ≤ firstChunkLen m ∧
      firstChunkLen m + 17 * (chunkCount m - 1) = m := by
  unfold firstChunkLen chunkCount
  omega

/-- Settles O20: the chunks follow each other without a gap and end at `IN_LEN`. -/
theorem chunksPartitionRemainder : Obligations.ChunksPartitionRemainder := by
  intro operand zc m hm hlen
  obtain ⟨hlow, hhigh, hpos, hsum⟩ := chunk_sizes hm
  refine ⟨hlow, hhigh, hpos, firstChunkLen_le m, hsum, rfl, fun j h1 hj => ?_, ?_⟩
  · have hchunk : chunkBytes operand zc (firstChunkLen m) j =
        (operand.drop (zc + firstChunkLen m + 17 * (j - 1))).take 17 := by
      rw [chunkBytes, chunkStart, chunkLen, if_neg (by omega), if_neg (by omega)]
    refine ⟨hchunk, ?_⟩
    rw [hchunk, List.length_take, List.length_drop]
    omega
  · rw [flatMap_chunkBytes, chunkStart_chunkCount zc hm, Nat.add_sub_cancel_left]
    exact List.take_of_length_le (by simp [hlen])

end Sys2Proof.Machine
end

section
/-! PROOFS. How much room a result and its limbs need (`ResultFitsDerivedCapacity`): how many digits a number has, how
large a parsed number can be, and from these what each operation leaves in `OUT_LEN` and `NL`. -/

namespace Sys2Proof.Machine

/-! ### The length of a numeral (R130, R136) -/

/-- A number below `58^k` has at most `k` base-58 digits (R130). -/
theorem digits58_length_le {n : Word} {k : Nat} (h : n.toNat < 58 ^ k) : (digits58 n).length ≤ k := by
  have hlen : (digits58 n).length = (Nat.digits 58 n.toNat).length := by
    rw [← divideDigits58, List.length_map, digits58, List.length_reverse]
  rw [hlen]
  exact (Nat.digits_length_le_iff (by decide) _).2 h

/-- A number below `10^k` is written in at most `k` decimal digits, unless it is 0 and `k` is too (R136). -/
theorem decimal_length_le {n : Word} {k : Nat} (hk : 1 ≤ k) (h : n.toNat < 10 ^ k) : (decimal n).length ≤ k := by
  rw [decimal_eq, dec]
  split_ifs
  · exact hk
  · rw [List.length_map, List.length_reverse]
    exact (Nat.digits_length_le_iff (by decide) _).2 h

/-- A limb is padded to 17 digits exactly (R90). -/
theorem pad17_length {x : Word} (hx : x.toNat < Config.limbBase) : (pad17 x).length = 17 := by
  have hle : (decimal x).length ≤ 17 := decimal_length_le (by decide) (hx.trans_le (by norm_num))
  rw [pad17, List.length_append, List.length_replicate]
  exact Nat.sub_add_cancel hle

theorem flatMap_pad17_length {xs : List Word} (hx : limbsBounded xs) : (xs.flatMap pad17).length = 17 * xs.length := by
  induction xs with
  | nil => rfl
  | cons x xs ih =>
    obtain ⟨hhead, htail⟩ := (limbsBounded_cons x xs).1 hx
    rw [List.flatMap_cons, List.length_append, pad17_length hhead, ih htail, List.length_cons]
    omega

/-! ### How large a parsed number can be -/

/-- One more digit of a radix: the bound `(value + 1) * radix^length` of a prefix covers the longer one. -/
theorem digit_bound {n n' radix d k : Nat} (hd : d < radix) (hn : n' ≤ n * radix + d) :
    (n' + 1) * radix ^ k ≤ (n + 1) * radix ^ (k + 1) := by
  have hstep : n' + 1 ≤ (n + 1) * radix := by rw [Nat.succ_mul]; omega
  calc
    (n' + 1) * radix ^ k ≤ (n + 1) * radix * radix ^ k := Nat.mul_le_mul_right _ hstep
    _ = (n + 1) * radix ^ (k + 1) := by ring

/-- `parse10` of `k` bytes from 0 stays below `10^k` (R232). -/
theorem parse10_bound {off len : Nat} {acc w : Word} {xs : List (Option Byte)} (h : parse10 off len acc xs = .ok w) :
    w.toNat < (acc.toNat + 1) * 10 ^ xs.length := by
  induction xs generalizing acc with
  | nil =>
    obtain rfl : acc = w := by simpa [parse10] using h
    simp
  | cons x xs ih =>
    cases x with
    | none => simp [parse10] at h
    | some b =>
      simp only [parse10] at h
      split_ifs at h with hb
      have hdigit : b.toNat - 0x30 < 10 := by have := ((isDigit_iff b).1 hb).2; omega
      refine (ih h).trans_le (digit_bound hdigit ?_)
      rw [BitVec.toNat_add, BitVec.toNat_mul, digitValue_toNat ((isDigit_iff b).1 hb), Nat.mod_add_mod]
      exact Nat.mod_le _ _

/-- `fold58` of `k` bytes from 0 stays below `58^k` (R133). -/
theorem fold58_bound {rev : Vector (Option (Fin 58)) 256} {i : Nat} {f g : Fold} {xs : List (Option Byte)}
    (h : fold58 rev i f xs = .ok g) : g.acc.toNat < (f.acc.toNat + 1) * 58 ^ xs.length := by
  induction xs generalizing i f with
  | nil =>
    obtain rfl : f = g := by simpa [fold58] using h
    simp
  | cons x xs ih =>
    cases x with
    | none => simp [fold58] at h
    | some b =>
      cases hv : valueOf rev b with
      | none => simp [fold58, hv] at h
      | some v =>
        simp only [fold58, hv] at h
        refine (ih h).trans_le (digit_bound v.isLt ?_)
        rw [BitVec.toNat_add, BitVec.toNat_mul, radixWord_toNat, BitVec.toNat_ofNat, Nat.add_mod_mod, Nat.mod_add_mod]
        exact Nat.mod_le _ _

/-! ### The decoder's limbs as a number (R185, R186) -/

/-- A mul-58-add sweep keeps the number of limbs (R185). -/
theorem sweepMul58_length (carry y : Word) (limbs : List Word) :
    (sweepMul58 carry y limbs).limb.length = limbs.length := by
  induction limbs generalizing carry y with
  | nil => rfl
  | cons x rest ih =>
    simp only [sweepMul58]
    split_ifs <;> simp [ih]

/-- A mul-58-add sweep multiplies the number by 58 and adds the carry coming in; the carry going out stands above the
limbs (R185, R236). -/
theorem sweepMul58_value {carry : Word} (y : Word) {limbs : List Word} (hc : carry.toNat ≤ 57)
    (hl : limbsBounded limbs) :
    limbsLsf (sweepMul58 carry y limbs).limb +
        Config.limbBase ^ limbs.length * (sweepMul58 carry y limbs).carry.toNat =
      58 * limbsLsf limbs + carry.toNat := by
  induction limbs generalizing carry y with
  | nil => simp [sweepMul58, limbsLsf]
  | cons x rest ih =>
    obtain ⟨hx, hrest⟩ := (limbsBounded_cons x rest).1 hl
    have hv := mulProduct_toNat hc hx
    simp only [sweepMul58]
    generalize x * Config.radixWord + carry = p at hv ⊢
    split_ifs with hlt
    · have hrec := ih (carry := 0#64) p (by simp) hrest
      simp only [BitVec.toNat_ofNat, Nat.zero_mod, Nat.add_zero] at hrec
      calc
        _ = p.toNat + Config.limbBase * (58 * limbsLsf rest) := by
          rw [← hrec, limbsLsf, List.length_cons]; ring
        _ = _ := by rw [hv, limbsLsf]; ring
    · have hsplit : (p % Config.limbBaseWord).toNat + Config.limbBase * (p / Config.limbBaseWord).toNat = p.toNat := by
        rw [BitVec.toNat_umod, BitVec.toNat_udiv, limbBaseWord_toNat, Nat.mod_add_div]
      have hcarry : (p / Config.limbBaseWord).toNat ≤ 57 := by
        simp only [Config.limbBase] at *
        omega
      have hrec := ih p hcarry hrest
      calc
        _ = (p % Config.limbBaseWord).toNat +
            Config.limbBase * (58 * limbsLsf rest + (p / Config.limbBaseWord).toNat) := by
          rw [← hrec, limbsLsf, List.length_cons]; ring
        _ = p.toNat + Config.limbBase * (58 * limbsLsf rest) := by rw [← hsplit]; ring
        _ = _ := by rw [hv, limbsLsf]; ring

/-- A limb put on top counts with the weight of its place (R33). -/
theorem limbsLsf_concat (xs : List Word) (x : Word) :
    limbsLsf (xs ++ [x]) = limbsLsf xs + Config.limbBase ^ xs.length * x.toNat := by
  induction xs with
  | nil => simp [limbsLsf]
  | cons y ys ih =>
    rw [List.cons_append, limbsLsf, ih, limbsLsf, List.length_cons]
    ring

/-- No limb is wasted: the number needs as many limbs as there are (R185: only a nonzero carry is appended). -/
def limbsTight (limbs : List Word) : Prop := limbs ≠ [] → Config.limbBase ^ (limbs.length - 1) ≤ limbsLsf limbs

/-- Absorbing a symbol makes `58 N + v` of the number `N` (R185). -/
theorem DecLoop.absorb_value {r : DecLoop} (v : Fin 58) (hl : limbsBounded r.limb) :
    limbsLsf (r.absorb v).limb = 58 * limbsLsf r.limb + v.val := by
  have hv : (BitVec.ofNat 64 v.val).toNat = v.val := by simp; omega
  have hsweep := sweepMul58_value r.y (carry := BitVec.ofNat 64 v.val) (by omega) hl
  rw [hv] at hsweep
  simp only [DecLoop.absorb]
  split_ifs with h0
  · simpa [h0] using hsweep
  · rw [limbsLsf_concat, sweepMul58_length, hsweep]

/-- Absorbing a symbol wastes no limb: without a final carry the number of limbs stays and the number does not shrink;
with one, the carry itself fills the new limb (R185). -/
theorem DecLoop.absorb_tight {r : DecLoop} (v : Fin 58) (hl : limbsBounded r.limb) (ht : limbsTight r.limb) :
    limbsTight (r.absorb v).limb := by
  intro hne
  have hvalue := DecLoop.absorb_value v hl
  simp only [DecLoop.absorb] at hne hvalue ⊢
  split_ifs at hne hvalue ⊢ with h0
  · have hlen := sweepMul58_length (BitVec.ofNat 64 v.val) r.y r.limb
    have hr : r.limb ≠ [] := by
      rw [← List.length_pos_iff] at hne ⊢
      omega
    rw [hvalue, hlen]
    have := ht hr
    omega
  · have hcarry : 1 ≤ (sweepMul58 (BitVec.ofNat 64 v.val) r.y r.limb).carry.toNat :=
      Nat.one_le_iff_ne_zero.2 fun h => h0 (BitVec.eq_of_toNat_eq h)
    rw [limbsLsf_concat, List.length_append, List.length_singleton, Nat.add_sub_cancel]
    exact (Nat.le_mul_of_pos_right _ hcarry).trans (Nat.le_add_left _ _)

/-- The symbol loop over `k` bytes from no limb wastes no limb and stays below `58^k` (R184). -/
theorem DecLoop.run_bound {rev : Vector (Option (Fin 58)) 256} {i : Nat} {r q : DecLoop} {xs : List (Option Byte)}
    (hl : limbsBounded r.limb) (ht : limbsTight r.limb) (h : DecLoop.run rev i r xs = .ok q) :
    limbsTight q.limb ∧ limbsLsf q.limb < (limbsLsf r.limb + 1) * 58 ^ xs.length := by
  induction xs generalizing i r with
  | nil =>
    obtain rfl : r = q := by simpa [DecLoop.run] using h
    exact ⟨ht, by simp⟩
  | cons x xs ih =>
    cases x with
    | none => simp [DecLoop.run] at h
    | some b =>
      cases hv : valueOf rev b with
      | none => simp [DecLoop.run, hv] at h
      | some v =>
        simp only [DecLoop.run, hv] at h
        obtain ⟨h1, h2⟩ := ih (DecLoop.absorb_bounds v hl).1 (DecLoop.absorb_tight v hl ht) h
        refine ⟨h1, h2.trans_le (digit_bound v.isLt ?_)⟩
        rw [DecLoop.absorb_value v hl, Nat.mul_comm]

/-- Limbs of which none is wasted, of a number below `10^k`: there are at most `ceil(k/17)`, and they render to at most
`k` digits (R58, R186). -/
theorem renderLimbs_fits {limbs : List Word} {k : Nat} (hk : 1 ≤ k) (hl : limbsBounded limbs) (ht : limbsTight limbs)
    (h : limbsLsf limbs < 10 ^ k) : (renderLimbs limbs).length ≤ k ∧ limbs.length ≤ (k + 16) / 17 := by
  rcases limbs.eq_nil_or_concat' with rfl | ⟨low, top, rfl⟩
  · exact ⟨hk, Nat.zero_le _⟩
  have hpow : Config.limbBase ^ low.length = 10 ^ (17 * low.length) := (pow_mul 10 17 low.length).symm
  have htight := ht (by simp)
  rw [List.length_append, List.length_singleton, Nat.add_sub_cancel, hpow] at htight
  have hlow : 17 * low.length < k := (Nat.pow_lt_pow_iff_right (by decide)).1 (htight.trans_lt h)
  have htop : top.toNat < 10 ^ (k - 17 * low.length) := by
    rw [limbsLsf_concat, hpow] at h
    refine Nat.lt_of_mul_lt_mul_left (a := 10 ^ (17 * low.length)) ?_
    rw [← pow_add, Nat.add_sub_cancel' hlow.le]
    omega
  have hrender : renderLimbs (low ++ [top]) = decimal top ++ low.reverse.flatMap pad17 := by simp [renderLimbs]
  have hbounded : limbsBounded low.reverse := fun x hx => hl x (by simp at hx ⊢; exact .inl hx)
  have hdec := decimal_length_le (by omega) htop
  constructor
  · rw [hrender, List.length_append, flatMap_pad17_length hbounded, List.length_reverse]
    omega
  · rw [List.length_append, List.length_singleton]
    omega

/-! ### What an operation leaves in `OUT_LEN` and `NL` -/

/-- The result takes at most `out` bytes and at most `limbs` limbs are in use. -/
def State.Fits (t : State) (out limbs : Nat) : Prop := t.outLen ≤ out ∧ t.scratch.nl ≤ limbs

/-- A conversion fits where its body does: an error leaves neither bytes nor limbs (R255). -/
theorem convert_fits {ph : Phase} {body : State → Except Stop State} {s t : State} {out limbs : Nat}
    (h : convert ph body s = .next t) (hbody : ∀ u, body (s.begin ph) = .ok u → u.Fits out limbs) :
    t.Fits out limbs := by
  rcases convert_next h with ⟨-, rfl⟩ | ⟨-, u, hu, rfl⟩ | ⟨-, e, -, rfl⟩
  · exact ⟨Nat.zero_le _, Nat.zero_le _⟩
  · exact hbody u hu
  · exact ⟨Nat.zero_le _, Nat.zero_le _⟩

/-- Every pass of the encoder's loop emits one digit (R157). -/
theorem EncLoop.run_emitted_length (passes : Nat) (r : EncLoop) :
    (EncLoop.run passes r).emitted.length ≤ r.emitted.length + passes := by
  induction passes generalizing r with
  | zero => exact le_rfl
  | succ passes ih =>
    rw [EncLoop.run]
    split_ifs
    · refine (ih _).trans (le_of_eq ?_)
      simp only [EncLoop.emit, EncLoop.sweep, EncLoop.trim, List.length_append, List.length_singleton]
      omega
    · omega

/-- The limb path of `ENC` emits at most one digit per digit of the remainder, since it makes at most `M` passes
(R161). -/
theorem State.divideOut_outLen_le (s : State) : s.divideOut.outLen ≤ s.outLen + s.scratch.m := by
  have hrun := EncLoop.run_emitted_length s.scratch.m
    { phase := s.phase, limb := s.scratch.limb, head := s.scratch.head, carry := 0#64, t := 0#64, emitted := [] }
  simpa [State.divideOut, State.symbols] using hrun

/-- From `DISPATCH` on `ENC` needs at most a byte per digit of the remainder (R58): its value is below `10^M`, so below
`58^M`. -/
theorem encDispatch_fits {s u : State} (hm : s.remainder.length = s.scratch.m) (hn : s.scratch.nl = 0)
    (h : encDispatch s = .ok u) : u.Fits (s.outLen + s.scratch.m) (chunkCount s.scratch.m) := by
  unfold encDispatch at h
  split_ifs at h
  · cases h
    exact ⟨Nat.le_add_right _ _, by simp [hn]⟩
  · unfold encFixed at h
    split at h
    · simp at h
    rename_i n hp
    cases h
    have hlt : n.toNat < 58 ^ s.scratch.m := by
      have hbound := parse10_bound hp
      rw [hm] at hbound
      exact (by simpa using hbound : n.toNat < 10 ^ s.scratch.m).trans_le (Nat.pow_le_pow_left (by decide) _)
    exact ⟨by simpa [State.symbols] using digits58_length_le hlt, by simp [hn]⟩
  · unfold encLimbPath at h
    split at h
    · simp at h
    rename_i limbs _
    cases h
    exact ⟨State.divideOut_outLen_le (s.loadLimbs limbs), le_rfl⟩

/-- The remainder left by a zero scan is `M` bytes long (R211, R212). -/
theorem State.remainder_noteZeroRun_length (b : State) (zc : Nat) (bs : List Byte) :
    ((b.noteZeroRun zc).emitAll bs).remainder.length = b.inLen - zc := by
  simp [State.remainder]

theorem encBody_fits {b u : State} {d : List Byte} (hd : b.operand = d.map some) (ho : b.outLen = 0)
    (hn : b.scratch.nl = 0) (h : encBody b = .ok u) : u.Fits b.inLen ((b.inLen + 16) / 17) := by
  have hlen := State.inLen_of_operand hd
  have hz := lz_le d 0x30#8
  simp only [encBody, hd, scanZeroDigits_eq] at h
  obtain ⟨hout, hnl⟩ := encDispatch_fits (State.remainder_noteZeroRun_length b _ _) hn h
  simp only [State.emitAll_outLen, State.emitAll_scratch, State.noteZeroRun_outLen, State.noteZeroRun_scratch,
    List.length_replicate, chunkCount, ho] at hout hnl
  exact ⟨by omega, by omega⟩

/-- A string of `k` symbols has a value below `10^(2k)` (R58). -/
theorem pow58_le (k : Nat) : 58 ^ k ≤ 10 ^ (2 * k) := by
  rw [pow_mul]
  exact Nat.pow_le_pow_left (by decide) k

/-- From `DISPATCH` on `DEC` needs at most two bytes per symbol of the remainder (R58). -/
theorem decDispatch_fits {s u : State} (hm : s.remainder.length = s.scratch.m) (hpos : 1 ≤ s.scratch.m)
    (hn : s.scratch.nl = 0) (h : decDispatch s = .ok u) :
    u.Fits (s.outLen + 2 * s.scratch.m) ((2 * s.scratch.m + 16) / 17) := by
  unfold decDispatch at h
  split_ifs at h
  · unfold decFixed at h
    split at h
    · simp at h
    rename_i f hf
    cases h
    have hlt : f.acc.toNat < 58 ^ s.scratch.m := by simpa [hm] using fold58_bound hf
    exact ⟨Nat.add_le_add_left (decimal_length_le (by omega) (hlt.trans_le (pow58_le _))) _, by simp [hn]⟩
  · unfold decLimbPath at h
    split at h
    · simp at h
    rename_i r hr
    cases h
    obtain ⟨hbounded, -⟩ := DecLoop.run_bounds limbsBounded_nil (by simp) hr
    obtain ⟨htight, hvalue⟩ := DecLoop.run_bound limbsBounded_nil (absurd rfl) hr
    have hlt : limbsLsf r.limb < 58 ^ s.scratch.m := by simpa [hm, limbsLsf] using hvalue
    obtain ⟨hout, hnl⟩ := renderLimbs_fits (by omega) hbounded htight (hlt.trans_le (pow58_le _))
    exact ⟨Nat.add_le_add_left hout _, hnl⟩

theorem decBody_fits {b u : State} {d : List Byte} (hd : b.operand = d.map some) (ho : b.outLen = 0)
    (hn : b.scratch.nl = 0) (h : decBody b = .ok u) : u.Fits (2 * b.inLen) ((2 * b.inLen + 16) / 17) := by
  have hlen := State.inLen_of_operand hd
  unfold decBody at h
  split_ifs at h with h0
  · cases h
    exact ⟨by omega, by omega⟩
  simp only [hd, scanZeroSymbols_eq] at h
  obtain ⟨hout, hnl⟩ := decDispatch_fits (State.remainder_noteZeroRun_length b _ _)
    (by simp only [State.emitAll_scratch, State.noteZeroRun_scratch]; omega) hn h
  simp only [State.emitAll_outLen, State.emitAll_scratch, State.noteZeroRun_outLen, State.noteZeroRun_scratch,
    List.length_replicate, ho] at hout hnl
  exact ⟨by omega, by omega⟩

/-- `ENCU64` needs at most 11 bytes and no limb: a 64-bit number is below `58^11` (R58, R132). -/
theorem encu64Body_fits {b u : State} (ho : b.outLen = 0) (hn : b.scratch.nl = 0) (h : encu64Body b = .ok u) :
    u.Fits 11 0 := by
  unfold encu64Body at h
  split_ifs at h <;> cases h
  · exact ⟨by simp [ho], hn.le⟩
  · have hlen := digits58_length_le (k := 11) (b.op64.isLt.trans (by norm_num))
    exact ⟨by simpa [State.symbols, ho] using hlen, hn.le⟩

/-- Settles O29: each body fits, and `ENC` and `DEC` begin with `OUT_LEN` and `NL` at 0. -/
theorem resultFitsDerivedCapacity : Obligations.ResultFitsDerivedCapacity := by
  intro s t d _ hd
  exact ⟨fun h => convert_fits h fun u hu => encBody_fits (b := s.begin .lzscan) hd rfl rfl hu,
    fun h => convert_fits h fun u hu => decBody_fits (b := s.begin .lzscan) hd rfl rfl hu,
    fun h => (convert_fits h fun u hu => encu64Body_fits rfl rfl hu).1⟩

end Sys2Proof.Machine
end

section
/-! PROOFS. The command byte (`30_encoding.md`, R80 to R84): `encode` and `decode` are inverse to each other, so the
bytes that decode are the nine encodings, and a host write of any other is refused. -/

namespace Sys2Proof.Machine

/-- A command byte is its three fields (R81). -/
theorem commandFields_append (w : Byte) :
    (commandFields w).rsv ++ (commandFields w).preset ++ (commandFields w).op = w := by
  revert w
  decide

/-- An `OP` code up to 5 that is none of 0 to 4 is that of `ALPHALOAD` (R82). -/
theorem opCode_eq_five : ∀ op : BitVec 3,
    op.toNat ≤ 5 → op ≠ 0#3 → op ≠ 1#3 → op ≠ 2#3 → op ≠ 3#3 → op ≠ 4#3 → op = 5#3 := by
  decide

/-- The two tables of R83 agree. -/
theorem presetOf_code : ∀ p : BitVec 2, (presetOf p).code = p := by decide

/-- The fields of a byte that decodes are those of the operation it names (R81 to R83). -/
theorem commandFields_of_decode {w : Byte} {i : Instr} (h : decode w = .ok i) :
    commandFields w = { rsv := 0#3, preset := i.presetField, op := i.opCode } := by
  unfold decode at h
  generalize commandFields w = c at h ⊢
  obtain ⟨rsv, preset, op⟩ := c
  simp only [CommandFields.rsvOk, CommandFields.opOk, CommandFields.presetOk] at h
  split_ifs at h with hrsv hop hpreset h0 h1 h2 h3 h4 <;> cases h
  all_goals
    have hrsv : rsv = 0#3 := by simpa using hrsv
    have hpreset : op ≠ 4#3 → preset = 0#2 := by simpa using hpreset
    simp_all [Instr.presetField, Instr.opCode, presetOf_code]
  -- what remains is the last branch, where `OP` was compared with every code but that of `ALPHALOAD`
  exact opCode_eq_five op hop h0 h1 h2 h3 h4

theorem encode_of_decode {w : Byte} {i : Instr} (h : decode w = .ok i) : encode i = w := by
  rw [← commandFields_append w, commandFields_of_decode h]
  rfl

theorem decode_encode (i : Instr) : decode (encode i) = .ok i := by
  cases i with
  | alphasel p => cases p <;> decide
  | _ => decide

/-- Settles O4: the fields of a byte that decodes are those its operation is encoded with. -/
theorem encodeAndDecodeAgree : Obligations.EncodeAndDecodeAgree :=
  ⟨decode_encode, fun _ _ h => encode_of_decode h⟩

/-- Settles O2: the nine bytes are the encodings. -/
theorem commandBytesDecode : Obligations.CommandBytesDecode :=
  ⟨decode_encode .enc, decode_encode .dec, decode_encode .encu64, decode_encode .decu64,
    decode_encode (.alphasel .flickr), decode_encode (.alphasel .ripple), decode_encode (.alphasel .bitcoin),
    decode_encode (.alphasel .other), decode_encode .alphaload⟩

/-- The command bytes that name an operation (R84). -/
def operationBytes : List Byte :=
  [0x00#8, 0x01#8, 0x02#8, 0x03#8, 0x04#8, 0x05#8, 0x0C#8, 0x14#8, 0x1C#8]

/-- The bytes of R84's list are the encodings. -/
theorem exists_encode_eq_iff (w : Byte) : (∃ i, encode i = w) ↔ w ∈ operationBytes := by
  constructor
  · rintro ⟨i, rfl⟩
    cases i with
    | alphasel p => cases p <;> decide
    | _ => decide
  · simp only [operationBytes, List.mem_cons, List.not_mem_nil, or_false]
    rintro (rfl | rfl | rfl | rfl | rfl | rfl | rfl | rfl | rfl)
    exacts [⟨.enc, rfl⟩, ⟨.dec, rfl⟩, ⟨.encu64, rfl⟩, ⟨.decu64, rfl⟩, ⟨.alphasel .flickr, rfl⟩, ⟨.alphaload, rfl⟩,
      ⟨.alphasel .ripple, rfl⟩, ⟨.alphasel .bitcoin, rfl⟩, ⟨.alphasel .other, rfl⟩]

/-- A byte decodes exactly when it is one of the nine (R84). -/
theorem exists_decode_eq_ok_iff (w : Byte) : (∃ i, decode w = .ok i) ↔ w ∈ operationBytes :=
  (exists_congr fun i => ⟨encode_of_decode, fun h => h ▸ decode_encode i⟩).trans (exists_encode_eq_iff w)

/-- A write of a reserved command byte is refused (R84, U1). -/
theorem writeCommand_reserved (s : State) {w : Byte} {why : Reserved} (hd : decode w = .error why) :
    writeCommand s w.toNat = .refused (.reservedCommand why) := by
  have hw : BitVec.ofNat 8 w.toNat = w := by simp
  have hlt : w.toNat < 256 := w.isLt
  simp only [writeCommand, hlt, hw, hd, if_true]

/-- Settles O3: a byte outside the list does not decode, and its write is refused with the decoder's reason. -/
theorem reservedCommandBytesAreRefused : Obligations.ReservedCommandBytesAreRefused := by
  refine fun w => ⟨exists_decode_eq_ok_iff w, fun hw s hb => ?_⟩
  cases hd : decode w with
  | ok i => exact absurd ((exists_decode_eq_ok_iff w).1 ⟨i, hd⟩) hw
  | error why => exact ⟨why, (hostAccess_writeReg w.toNat (.inl hb)).trans (writeCommand_reserved s hd)⟩

end Sys2Proof.Machine
end

section
/-! PROOFS. What every operation does at its end (`30_encoding.md`, R86): what the conversions and the configuration
operations leave alone, and that an operation ends, or faults at an operand byte that holds no value. -/

namespace Sys2Proof.Machine

/-! ### What an error and a success leave alone -/

/-- An operation that ends with an error leaves everything but `STATUS`, `ERR_*`, `OUT` and the scratch state alone
(R255, R256). -/
theorem State.raise_conversionKept (s : State) (ph : Phase) (e : CodecError) :
    State.ConversionKept s ((s.begin ph).raise e) where
  inLen := rfl
  inMem := rfl
  inBytes _ := rfl
  host := rfl
  readData := rfl
  alpha := rfl
  rev := rfl
  alphaValid := rfl
  op64 := rfl
  outBeyond a _ := Memory.read_nil a

section
variable {s u : State} {ph : Phase} {bytes : List Byte} (h : State.Wrote (s.begin ph) u bytes)
include h

theorem State.Wrote.inputKept : State.InputKept s u.endOperation where
  inLen := h.inLen
  inMem := h.inMem
  inBytes a := congrArg (Memory.read · a) h.inMem
  host := h.host
  readData := h.readData

theorem State.Wrote.alphabetKept : State.AlphabetKept s u.endOperation := ⟨h.alpha, h.rev, h.alphaValid⟩

/-- An operation fills `OUT` from index 0 on, and no byte beyond `OUT_LEN` holds a value (R35). -/
theorem State.Wrote.outBeyond {a : Nat} (ha : u.outLen ≤ a) : u.outMem.read a = none := by
  have hlen : bytes.length ≤ a := by simpa [h.outLen] using ha
  rw [h.outMem]
  exact Memory.read_store_nil_beyond bytes hlen

theorem State.Wrote.conversionKept (hop : u.op64 = s.op64) : State.ConversionKept s u.endOperation :=
  { h.inputKept, h.alphabetKept with op64 := hop, outBeyond := fun _ ha => h.outBeyond ha }

end

/-! ### The conversions -/

/-- A conversion whose body keeps `OP64` and only appends to `OUT` leaves everything else alone. -/
theorem convert_conversionKept {s t : State} {ph : Phase} {body : State → Except Stop State}
    (hbody : ∀ u, body (s.begin ph) = .ok u → u.op64 = s.op64 ∧ ∃ bytes, State.Wrote (s.begin ph) u bytes)
    (hnext : convert ph body s = .next t) : State.ConversionKept s t := by
  rcases convert_next hnext with ⟨-, rfl⟩ | ⟨-, u, hu, rfl⟩ | ⟨-, e, -, rfl⟩
  · exact State.raise_conversionKept s ph _
  · obtain ⟨hop, bytes, hw⟩ := hbody u hu
    exact hw.conversionKept hop
  · exact State.raise_conversionKept s ph e

/-- The body of `ENCU64`, which always succeeds, keeps `OP64` and only appends to `OUT` (R131). -/
theorem encu64Body_wrote {b u : State} (h : encu64Body b = .ok u) :
    u.op64 = b.op64 ∧ ∃ bytes, State.Wrote b u bytes := by
  obtain ⟨v, bytes, hv, hop, hw⟩ := encu64Body_ok b
  obtain rfl : v = u := by simpa [hv] using h
  exact ⟨hop, bytes, hw⟩

/-- `ENC`, `DEC` and `ENCU64` write neither the operands nor the alphabet (R86). -/
theorem exec_conversionKept {i : Instr} {s t : State} (hi : i = .enc ∨ i = .dec ∨ i = .encu64)
    (hnext : exec i s = .next t) : State.ConversionKept s t := by
  rcases hi with rfl | rfl | rfl
  · exact convert_conversionKept (fun _ hu => encBody_ok hu) hnext
  · exact convert_conversionKept (fun _ hu => decBody_ok hu) hnext
  · exact convert_conversionKept (fun _ hu => encu64Body_wrote hu) hnext

/-- `DECU64` writes nothing but `OP64`, and that only when it succeeds: a success has no error in `STATUS` (R134). -/
theorem execDecu64_kept {s t : State} (hnext : exec .decu64 s = .next t) :
    State.InputKept s t ∧ State.AlphabetKept s t ∧ t.outLen = 0 ∧ (∀ a, t.outMem.read a = none) ∧
      (t.err ≠ .none → t.op64 = s.op64) := by
  have failed (e : CodecError) := State.raise_conversionKept s .fixed e
  rcases convert_next hnext with ⟨-, rfl⟩ | ⟨-, u, hu, rfl⟩ | ⟨-, e, -, rfl⟩
  · exact ⟨(failed _).toInputKept, (failed _).toAlphabetKept, rfl, Memory.read_nil, fun _ => rfl⟩
  · have hw : State.Wrote (s.begin .fixed) u [] := decu64Body_ok hu
    have hlen : u.outLen = 0 := hw.outLen
    exact ⟨hw.inputKept, hw.alphabetKept, hlen, fun a => hw.outBeyond (by omega), fun herr => absurd hw.err herr⟩
  · exact ⟨(failed e).toInputKept, (failed e).toAlphabetKept, rfl, Memory.read_nil, fun _ => rfl⟩

/-- Settles O47: an error keeps everything, and a success only wrote `OUT`, or `OP64` for `DECU64`. -/
theorem conversionFrame : Obligations.ConversionFrame :=
  ⟨fun _ _ _ hi hnext => exec_conversionKept hi hnext, fun _ _ hnext => execDecu64_kept hnext⟩

/-! ### The configuration operations -/

/-- The body of a configuration operation that succeeds installs an alphabet, and changes only scratch registers
besides (R112, R113). -/
def InstallsAlphabet (body : State → Except Stop State) : Prop :=
  ∀ {b u : State}, body b = .ok u → ∃ table c, u = { b.setAlphabet table with scratch := c }

theorem alphaselBody_installsAlphabet (p : Preset) : InstallsAlphabet (alphaselBody p) := by
  intro b u hu
  rcases alphaselBody_cases p b with ⟨-, he⟩ | ⟨table, -, hok⟩
  · simp [he] at hu
  · obtain rfl : b.setAlphabet table = u := by simpa [hok] using hu
    exact ⟨table, b.scratch, rfl⟩

theorem alphaloadBody_installsAlphabet : InstallsAlphabet alphaloadBody := by
  intro b u hu
  obtain ⟨bytes, k, -, -, rfl⟩ := alphaloadBody_ok hu
  exact ⟨tableOf bytes, _, rfl⟩

/-- A configuration operation leaves `IN` and `OP64` alone and `OUT` empty, and the alphabet is as before unless it
succeeds (R86). -/
theorem configure_kept {body : State → Except Stop State} (hbody : InstallsAlphabet body) {s t : State}
    (hnext : configure body s = .next t) :
    State.InputKept s t ∧ t.op64 = s.op64 ∧ t.outLen = 0 ∧ (∀ a, t.outMem.read a = none) ∧
      (t.err ≠ .none → State.AlphabetKept s t) := by
  rcases configure_next hnext with ⟨u, hu, rfl⟩ | ⟨e, -, rfl⟩
  · obtain ⟨table, c, rfl⟩ := hbody hu
    exact ⟨⟨rfl, rfl, fun _ => rfl, rfl, rfl⟩, rfl, rfl, Memory.read_nil, fun herr => absurd rfl herr⟩
  · have hk := State.raise_conversionKept s .cfg e
    exact ⟨hk.toInputKept, rfl, rfl, Memory.read_nil, fun _ => hk.toAlphabetKept⟩

/-- Settles O48: a success installs an alphabet and does nothing else, an error keeps everything. -/
theorem configurationFrame : Obligations.ConfigurationFrame := by
  rintro i s t (⟨p, rfl⟩ | rfl) hnext
  · exact configure_kept (alphaselBody_installsAlphabet p) hnext
  · exact configure_kept alphaloadBody_installsAlphabet hnext

/-! ### How an operation ends -/

/-- A conversion faults only where its body reads a byte that holds no value. -/
theorem convert_fault {ph : Phase} {body : State → Except Stop State} {s : State} {f : Fault}
    (h : convert ph body s = .fault f) : body (s.begin ph) = .error .noValue ∧ f = .inNoValue := by
  cases hv : s.alphaValid with
  | false => simp [convert_no_alphabet ph body hv] at h
  | true =>
    rw [convert_alphabet ph body hv] at h
    exact settle_fault h

/-- `ENCU64` reads no byte of `IN`, so it always ends (R131). -/
theorem execEncu64_ends (s : State) : ∃ t, exec .encu64 s = .next t := by
  rw [exec_encu64]
  cases hv : s.alphaValid with
  | false => exact ⟨_, convert_no_alphabet _ _ hv⟩
  | true =>
    obtain ⟨u, -, hu, -, -⟩ := encu64Body_ok (s.begin .fixed)
    exact ⟨_, by rw [convert_alphabet _ _ hv, hu, settle_ok]⟩

/-- `ALPHASEL` reads no byte of `IN`, so it always ends (R112). -/
theorem execAlphasel_ends (p : Preset) (s : State) : ∃ t, exec (.alphasel p) s = .next t := by
  rw [exec_alphasel, configure_eq]
  rcases alphaselBody_cases p (s.begin .cfg) with ⟨-, he⟩ | ⟨table, -, hok⟩
  · exact ⟨_, by rw [he, settle_raise]⟩
  · exact ⟨_, by rw [hok, settle_ok]⟩

/-- An operation faults only at a byte of its operand that holds no value (U2, U15). -/
theorem exec_fault {i : Instr} {s : State} {f : Fault} (h : exec i s = .fault f) :
    f = .inNoValue ∧ none ∈ s.operand := by
  cases i with
  | enc =>
    obtain ⟨he, rfl⟩ := convert_fault h
    exact ⟨rfl, by simpa using encBody_error he⟩
  | dec =>
    obtain ⟨he, rfl⟩ := convert_fault h
    exact ⟨rfl, by simpa using decBody_error he⟩
  | encu64 =>
    obtain ⟨t, ht⟩ := execEncu64_ends s
    simp [ht] at h
  | decu64 =>
    obtain ⟨he, rfl⟩ := convert_fault h
    exact ⟨rfl, by simpa using decu64Body_error he⟩
  | alphasel p =>
    obtain ⟨t, ht⟩ := execAlphasel_ends p s
    simp [ht] at h
  | alphaload =>
    obtain ⟨he, rfl⟩ := settle_fault h
    exact ⟨rfl, by simpa using alphaloadBody_error he⟩

/-- An operation that ends, with its result or with an error, leaves the block idle with `DONE` set (R86). -/
theorem exec_next_idle {i : Instr} {s t : State} (h : exec i s = .next t) :
    t.phase = .idle ∧ t.busy = false ∧ t.done = true ∧ t.cmd = none := by
  obtain ⟨b, r, hr⟩ : ∃ b r, exec i s = settle b r := by cases i <;> exact ⟨_, _, rfl⟩
  rcases settle_next (hr ▸ h) with ⟨u, -, rfl⟩ | ⟨e, -, rfl⟩
  · exact ⟨rfl, rfl, rfl, rfl⟩
  · exact ⟨rfl, rfl, rfl, rfl⟩

/-- Settles O49: every operation ends as `settle` says, and only a body that reads `IN` can make it fault. -/
theorem operationsEnd : Obligations.OperationsEnd := by
  intro i s
  refine ⟨exec_ne_refused i s, fun f hf => exec_fault hf, ?_, fun t ht => exec_next_idle ht⟩
  rintro (rfl | ⟨p, rfl⟩)
  · exact execEncu64_ends s
  · exact execAlphasel_ends p s

end Sys2Proof.Machine
end

section
/-! PROOFS. The alphabet (`40_alphabet.md`): what `ALPHASEL` and `ALPHALOAD` install or report, the symbols of the
presets, and the laws of the two tables. -/

namespace Sys2Proof.Machine

/-! ### How a configuration operation ends -/

/-- `STATUS`, `ERR_*` and `OUT` after an error (R255, R256). -/
theorem State.raise_failedWith (s : State) (e : CodecError) :
    (s.raise e).FailedWith e.kind e.detail e.byte e.off e.len where
  idle := rfl
  done := rfl
  noCommand := rfl
  err := rfl
  errByte := rfl
  errOff := rfl
  errLen := rfl
  errDetail := rfl
  outLen := rfl
  noOutput := Memory.read_nil

/-- A configuration operation whose body raises an error reports it and leaves all else alone (R255, R256). -/
theorem configure_fails {body : State → Except Stop State} {s : State} {e : CodecError}
    (hbody : body (s.begin .cfg) = .error (.raise e)) :
    ∃ t, configure body s = .next t ∧ t.FailedWith e.kind e.detail e.byte e.off e.len ∧ State.ConversionKept s t :=
  ⟨_, by rw [configure_eq, hbody, settle_raise], State.raise_failedWith _ e, State.raise_conversionKept s .cfg e⟩

/-- A configuration operation whose body installs a table of distinct symbols succeeds with that alphabet (R112, R113,
R114). -/
theorem configure_installs {body : State → Except Stop State} (hbody : InstallsAlphabet body) {s : State}
    {table : Vector Byte 58} {c : Scratch} (htable : table.toList.Nodup)
    (hok : body (s.begin .cfg) = .ok { (s.begin .cfg).setAlphabet table with scratch := c }) :
    ∃ t, configure body s = .next t ∧ t.Succeeded ∧ State.InputKept s t ∧ t.op64 = s.op64 ∧
      t.alpha = table ∧ AlphabetOk t.alpha t.rev ∧ t.alphaValid = true ∧
      t.outLen = 0 ∧ ∀ a, t.outMem.read a = none := by
  have hnext : configure body s =
      .next ({ (s.begin .cfg).setAlphabet table with scratch := c } : State).endOperation := by
    rw [configure_eq, hok, settle_ok]
  obtain ⟨hinput, hop, hlen, hout, -⟩ := configure_kept hbody hnext
  refine ⟨_, hnext, ?_, hinput, hop, rfl, alphabetOk_reverseTable htable, rfl, hlen, hout⟩
  constructor <;> rfl

/-- `STATUS` after a success under a valid alphabet: `DONE` and `ALPHA_VALID` (R27). -/
theorem State.Succeeded.status {t : State} (h : t.Succeeded) (hv : t.alphaValid = true) : t.status = 0x06#8 := by
  rw [State.status, State.busy, h.idle, h.done, h.err, hv]
  rfl

/-! ### `ALPHASEL` -/

/-- Settles O37: the body of `ALPHASEL` installs the table of a preset and raises for any other name. -/
theorem alphaselSelectsPreset : Obligations.AlphaselSelectsPreset := by
  refine ⟨fun s p hp => ?_, fun s => configure_fails (body := alphaselBody .other) (e := .unknownName) rfl⟩
  obtain ⟨hother, -⟩ | ⟨table, htable, hok⟩ := alphaselBody_cases p (s.begin .cfg)
  · exact absurd hother hp
  · obtain ⟨t, hnext, hsucc, hinput, hop, rfl, halpha, hvalid, hlen, hout⟩ := configure_installs
      (alphaselBody_installsAlphabet p) (c := (s.begin .cfg).scratch) (presetTable_nodup htable) hok
    exact ⟨t, hnext, hsucc, hinput, hop, htable, halpha, hvalid, hsucc.status hvalid, hlen, hout⟩

/-! ### `ALPHALOAD` -/

/-- The count is tested before any byte is read (R113). -/
theorem alphaloadBody_wrongCount {b : State} (hlen : b.inLen ≠ 58) :
    alphaloadBody b = .error (.raise (.wrongCount b.inLen)) := if_pos hlen

theorem alphaloadBody_distinct {b : State} {d : List Byte} (ho : b.operand = d.map some) (hlen : d.length = 58)
    (hd : d.Nodup) :
    alphaloadBody b = .ok { b.setAlphabet (tableOf d) with scratch := { b.scratch with k := 57 } } := by
  have hin : b.inLen = 58 := (State.inLen_of_operand ho).trans hlen
  rw [alphaloadBody, if_neg (not_not.2 hin), ho, scanDistinct_ok d hd]

/-- The duplicate test reports the first byte that occurred before, whatever follows it (R113). -/
theorem scanDistinct_repeated {d : List Byte} {b : Byte} (hd : d.Nodup) (hb : b ∈ d) (rest : List (Option Byte)) :
    scanDistinct [] (d.map some ++ some b :: rest) = .error (.raise (.duplicate b d.length)) := by
  rw [scanDistinct_append [] d hd, List.nil_append, scanDistinct, if_pos hb]

theorem alphaloadBody_repeated {s : State} {d : List Byte} {b : Byte} {rest : List (Option Byte)}
    (hlen : s.inLen = 58) (ho : s.operand = d.map some ++ some b :: rest) (hd : d.Nodup) (hb : b ∈ d) :
    alphaloadBody s = .error (.raise (.duplicate b d.length)) := by
  rw [alphaloadBody, if_neg (not_not.2 hlen), ho, scanDistinct_repeated hd hb]

/-- Settles O39: the table made of the 58 bytes lists them in order. -/
theorem alphaloadLoadsDistinctBytes : Obligations.AlphaloadLoadsDistinctBytes := by
  intro s d ho hlen hd
  have htable : (tableOf d).toList = d := tableOf_toList hlen
  obtain ⟨t, hnext, hsucc, hinput, hop, halpha, hok⟩ := configure_installs alphaloadBody_installsAlphabet
    (htable.symm ▸ hd) (alphaloadBody_distinct (b := s.begin .cfg) ho hlen hd)
  exact ⟨t, hnext, hsucc, hinput, hop, by rw [halpha, htable], hok⟩

/-- Settles O40: the body raises cause 2 before it reads `IN`. -/
theorem alphaloadRefusesWrongCount : Obligations.AlphaloadRefusesWrongCount := fun s hlen =>
  configure_fails (alphaloadBody_wrongCount (b := s.begin .cfg) hlen)

/-- Settles O41: the bytes before the repetition are distinct, so the duplicate test reaches it and stops there. -/
theorem alphaloadReportsFirstRepetition : Obligations.AlphaloadReportsFirstRepetition := fun s _ _ _ hlen ho hd hb =>
  configure_fails (alphaloadBody_repeated (s := s.begin .cfg) hlen ho hd hb)

/-! ### The symbols of the presets (R115, R117) -/

theorem flickrSymbols_perm : flickrSymbols.Perm bitcoinSymbols := by decide +kernel

theorem rippleSymbols_perm : rippleSymbols.Perm bitcoinSymbols := by decide +kernel

/-- The presets order the same symbols differently. -/
theorem presetTable_perm {p : Preset} {table : Vector Byte 58} (h : presetTable p = some table) :
    table.toList.Perm bitcoinSymbols := by
  cases p with
  | flickr => cases h; rw [tableOf_toList rfl]; exact flickrSymbols_perm
  | ripple => cases h; rw [tableOf_toList rfl]; exact rippleSymbols_perm
  | bitcoin => cases h; rw [tableOf_toList rfl]
  | other => cases h

/-- The symbols are the ASCII letters and digits less `'0'`, `'I'`, `'O'`, `'l'` (R115). -/
theorem mem_bitcoinSymbols : ∀ b : Byte, b ∈ bitcoinSymbols ↔
    ((0x30 ≤ b.toNat ∧ b.toNat ≤ 0x39) ∨ (0x41 ≤ b.toNat ∧ b.toNat ≤ 0x5A) ∨ (0x61 ≤ b.toNat ∧ b.toNat ≤ 0x7A)) ∧
    b ∉ [0x30#8, 0x49#8, 0x4F#8, 0x6C#8] := by decide +kernel

/-- Settles O38: a preset is a table of distinct symbols, and its symbols are those of the bitcoin preset. -/
theorem presetTablesAreAlphabets : Obligations.PresetTablesAreAlphabets := by
  intro p table h
  have hnd : table.toList.Nodup := presetTable_nodup h
  exact ⟨hnd, (alphabetOk_reverseTable hnd).symbol, fun b => (presetTable_perm h).mem_iff.trans (mem_bitcoinSymbols b)⟩

/-! ### The reverse table as two loops (R114) -/

/-- A reverse table is what it answers. -/
theorem rev_eq_of_valueOf {r q : Vector (Option (Fin 58)) 256} (h : ∀ b v, valueOf r b = some v ↔ valueOf q b = some v) :
    r = q := by
  refine Vector.ext fun i hi => Option.ext fun v => ?_
  exact h (BitVec.ofFin ⟨i, hi⟩) v

/-- `REV[ALPHA[v]] <- v`, the body of R114's second loop. -/
def recordSymbol (alpha : Vector Byte 58) (r : Vector (Option (Fin 58)) 256) (v : Fin 58) :
    Vector (Option (Fin 58)) 256 := r.set alpha[v].toNat (some v) alpha[v].isLt

theorem valueOf_recordSymbol (alpha : Vector Byte 58) (r : Vector (Option (Fin 58)) 256) (v : Fin 58) (b : Byte) :
    valueOf (recordSymbol alpha r v) b = if alpha[v] = b then some v else valueOf r b := by
  simp [valueOf, recordSymbol, Vector.getElem_set, BitVec.toNat_inj]

/-- Loop invariant of R114's second loop: the bytes with a value are the symbols recorded so far. -/
theorem valueOf_foldl_recordSymbol {alpha : Vector Byte 58} (h : alpha.toList.Nodup) (vs : List (Fin 58)) (b : Byte)
    (v : Fin 58) :
    valueOf (vs.foldl (recordSymbol alpha) (Vector.replicate 256 none)) b = some v ↔ v ∈ vs ∧ alpha[v] = b := by
  induction vs using List.reverseRecOn with
  | nil => simp [valueOf]
  | append_singleton vs w ih =>
    rw [List.foldl_concat, valueOf_recordSymbol]
    by_cases hw : alpha[w] = b
    · have hv : alpha[v] = b ↔ v = w := ⟨fun e => alpha_injective h (e.trans hw.symm), fun e => e ▸ hw⟩
      rw [if_pos hw, hv, Option.some_inj]
      exact ⟨fun e => ⟨by simp [e], e.symm⟩, fun e => e.2.symm⟩
    · have hne : alpha[v] = b → v ≠ w := fun e hvw => hw (hvw ▸ e)
      rw [if_neg hw, ih]
      exact and_congr_left fun e => by simp [hne e]

/-- Settles O42: after both loops exactly the symbols have values, as in the model's reverse table. -/
theorem reverseTableIsTwoLoops : Obligations.ReverseTableIsTwoLoops := fun alpha h => rev_eq_of_valueOf fun b v => by
  have hloop := valueOf_foldl_recordSymbol h (List.finRange 58) b v
  exact ((alphabetOk_reverseTable h).2 b v).trans (hloop.trans (and_iff_right (List.mem_finRange v))).symm

/-! ### The laws of the lookups (R111) -/

section
variable {alpha : Vector Byte 58} {rev : Vector (Option (Fin 58)) 256} (h : AlphabetOk alpha rev)
include h

/-- The bytes with a value are the symbols (R23). -/
theorem AlphabetOk.isSome_valueOf (b : Byte) : (valueOf rev b).isSome = true ↔ b ∈ alpha.toList := by
  simp [Option.isSome_iff_exists, h.2, List.mem_iff_getElem, Fin.exists_iff]

/-- The bytes with a value, listed by their codes, are the symbols in another order, so there are 58 (R23). -/
theorem AlphabetOk.members_perm :
    ((List.range 256).filter fun b => (valueOf rev (BitVec.ofNat 8 b)).isSome).Perm
      (alpha.toList.map BitVec.toNat) := by
  refine (List.perm_ext_iff_of_nodup (List.nodup_range.filter _) (h.1.map fun _ _ => BitVec.eq_of_toNat_eq)).2 ?_
  intro b
  rw [List.mem_filter, List.mem_range, h.isSome_valueOf, List.mem_map]
  constructor
  · rintro ⟨hb, hm⟩
    exact ⟨_, hm, by simpa using hb⟩
  · rintro ⟨x, hx, rfl⟩
    exact ⟨x.isLt, by simpa using hx⟩

end

/-- Settles O43: a valid alphabet has the two laws, and its 58 symbols are the bytes with a value. -/
theorem alphabetLookupLaws : Obligations.AlphabetLookupLaws := by
  intro s hinv hvalid
  have h : AlphabetOk s.alpha s.rev := hinv.alphabet hvalid
  exact ⟨h.symbol, fun b v => (h.2 b v).1, by simpa using h.members_perm.length_eq⟩

end Sys2Proof.Machine
end

section
/-! PROOFS. `ENCU64` and `DECU64` (`41_fixed_width_u64.md`): how a conversion that ends without error leaves the block,
what a base-58 numeral is worth and how long it is, and the two operations as maps between numbers and numerals. -/

namespace Sys2Proof.Machine

/-! ### A conversion that ends without error (R27, R35, R86) -/

section
variable {s u : State} {ph : Phase} {bytes : List Byte}

/-- An operation that only appended to `OUT` ended without error. -/
theorem State.Wrote.succeeded (h : State.Wrote (s.begin ph) u bytes) : u.endOperation.Succeeded where
  idle := rfl
  done := rfl
  noCommand := rfl
  err := h.err
  errByte := h.errByte
  errOff := h.errOff
  errLen := h.errLen
  errDetail := h.errDetail

/-- The bytes an operation appended are its result. -/
theorem State.Wrote.output (h : State.Wrote (s.begin ph) u bytes) : u.endOperation.output = bytes.map some := by
  rw [State.endOperation_output, State.output, h.outMem, h.outLen, Memory.firstBytes_store]
  rfl

/-- A conversion whose body appends `bytes` to `OUT` and keeps `OP64` ends without error, with exactly that result. -/
theorem convert_wrote {body : State → Except Stop State} (hv : s.alphaValid = true)
    (hu : body (s.begin ph) = .ok u) (hop : u.op64 = s.op64) (hw : State.Wrote (s.begin ph) u bytes) :
    ∃ t, convert ph body s = .next t ∧ t.Succeeded ∧ State.ConversionKept s t ∧ t.output = bytes.map some :=
  ⟨_, by rw [convert_alphabet _ _ hv, hu, settle_ok], hw.succeeded, hw.conversionKept hop, hw.output⟩

/-- `OUT_LEN` counts the bytes of the result (R28). -/
theorem State.outLen_of_output {t : State} (h : t.output = bytes.map some) : t.outLen = bytes.length := by
  rw [← Memory.firstBytes_length t.outMem t.outLen, ← State.output, h, List.length_map]

end

/-! ### Base-58 numerals (R13, R130) -/

@[simp] theorem rep58_zero (alpha : Vector Byte 58) : rep58 alpha 0 = [] := by simp [rep58]

theorem rep58_length (alpha : Vector Byte 58) (n : Nat) : (rep58 alpha n).length = (Nat.digits 58 n).length := by
  simp [rep58]

/-- A number below `58^k` has at most `k` base-58 digits. -/
theorem rep58_length_le (alpha : Vector Byte 58) {n k : Nat} (h : n < 58 ^ k) : (rep58 alpha n).length ≤ k := by
  rw [rep58_length]
  exact (Nat.digits_length_le_iff (by decide) n).2 h

/-- A number from `58^k` on has more than `k` base-58 digits. -/
theorem lt_rep58_length (alpha : Vector Byte 58) {n k : Nat} (h : 58 ^ k ≤ n) : k < (rep58 alpha n).length := by
  rw [rep58_length]
  exact (Nat.lt_digits_length_iff (by decide) n).2 h

/-- The base-58 numeral of a number with the single zero-symbol for 0, which is what `ENCU64` gives (R131). -/
def numeral58 (alpha : Vector Byte 58) (n : Nat) : List Byte :=
  if n = 0 then [alpha[(0 : Fin 58)]] else rep58 alpha n

theorem numeral58_toNat (alpha : Vector Byte 58) (n : Word) :
    numeral58 alpha n.toNat = if n = 0#64 then [alpha[(0 : Fin 58)]] else rep58 alpha n.toNat :=
  if_congr (BitVec.toNat_inj (y := 0#64)) rfl rfl

/-- The symbols of a numeral are symbols of the alphabet. -/
theorem exists_symbol_of_mem_numeral58 {alpha : Vector Byte 58} {n : Nat} {b : Byte} (hb : b ∈ numeral58 alpha n) :
    ∃ v : Fin 58, b = alpha[v] := by
  unfold numeral58 at hb
  split_ifs at hb
  · exact ⟨0, List.mem_singleton.1 hb⟩
  · obtain ⟨q, -, rfl⟩ := List.mem_map.1 hb
    exact ⟨_, rfl⟩

theorem val58_singleton (rev : Vector (Option (Fin 58)) 256) (b : Byte) : val58 rev [b] = symbolValue rev b := by
  simp [val58]

section
variable {alpha : Vector Byte 58} {rev : Vector (Option (Fin 58)) 256} (h : AlphabetOk alpha rev)
include h

theorem AlphabetOk.symbolValue_symbol (v : Fin 58) : symbolValue rev alpha[v] = v.val := by
  rw [symbolValue, h.symbol]

/-- The symbols of base-58 digits, most significant digit first, are worth the number the digits make (R13). -/
theorem AlphabetOk.val58_digits (ds : List Nat) (hds : ∀ q ∈ ds, q < 58) :
    val58 rev (ds.reverse.map fun q => alpha[Fin.ofNat 58 q]) = Nat.ofDigits 58 ds := by
  induction ds with
  | nil => rfl
  | cons q ds ih =>
    have hq : symbolValue rev alpha[Fin.ofNat 58 q] = q :=
      (h.symbolValue_symbol _).trans (Nat.mod_eq_of_lt (hds q (by simp)))
    rw [List.reverse_cons, List.map_append, val58_append, ih fun x hx => hds x (by simp [hx]), List.map_singleton,
      val58_singleton, hq, List.length_singleton, pow_one, Nat.ofDigits_cons]
    ring

/-- `val58` undoes `rep58` under a valid alphabet (R13). -/
theorem AlphabetOk.val58_rep58 (n : Nat) : val58 rev (rep58 alpha n) = n :=
  (h.val58_digits (Nat.digits 58 n) fun _ hq => Nat.digits_lt_base (by decide) hq).trans (Nat.ofDigits_digits 58 n)

theorem AlphabetOk.isSome_of_mem_numeral58 {n : Nat} {b : Byte} (hb : b ∈ numeral58 alpha n) :
    (valueOf rev b).isSome = true := by
  obtain ⟨v, rfl⟩ := exists_symbol_of_mem_numeral58 hb
  rw [h.symbol, Option.isSome_some]

/-- Both forms of the numeral are worth the number. -/
theorem AlphabetOk.val58_numeral58 (n : Nat) : val58 rev (numeral58 alpha n) = n := by
  unfold numeral58
  split_ifs with h0
  · rw [val58_singleton, h.symbolValue_symbol, h0, Fin.val_zero]
  · exact h.val58_rep58 n

end

/-- A number below `58^k` takes at most `k` symbols, and 0 takes one (R132). -/
theorem numeral58_length_le (alpha : Vector Byte 58) {n k : Nat} (hk : 1 ≤ k) (h : n < 58 ^ k) :
    (numeral58 alpha n).length ≤ k := by
  unfold numeral58
  split_ifs
  · exact hk
  · exact rep58_length_le alpha h

/-- A number from `58^k` on takes more than `k` symbols, and every number takes one (R132). -/
theorem lt_numeral58_length (alpha : Vector Byte 58) {n k : Nat} (h : 58 ^ k ≤ n ∨ k = 0) :
    k < (numeral58 alpha n).length := by
  unfold numeral58
  split_ifs with h0
  · have hk : k = 0 := h.resolve_left fun hle => by simp [h0] at hle
    simp [hk]
  · exact lt_rep58_length alpha (h.elim id fun hk => by rw [hk, pow_zero]; omega)

theorem numeral58_length (alpha : Vector Byte 58) {n k : Nat} (hlow : 58 ^ k ≤ n ∨ k = 0) (hhigh : n < 58 ^ (k + 1)) :
    (numeral58 alpha n).length = k + 1 :=
  le_antisymm (numeral58_length_le alpha (by omega) hhigh) (lt_numeral58_length alpha hlow)

/-! ### `ENCU64` (R131, R132) -/

/-- The body of `ENCU64` appends the numeral of `OP64`. -/
theorem encu64Body_numeral (b : State) :
    ∃ u, encu64Body b = .ok u ∧ u.op64 = b.op64 ∧ State.Wrote b u (numeral58 b.alpha b.op64.toNat) := by
  rw [encu64Body, numeral58_toNat]
  split_ifs
  · exact ⟨_, rfl, rfl, State.emitAll_wrote b _⟩
  · exact ⟨_, rfl, rfl, State.symbols_digits58 b b.op64 ▸ State.emit58_wrote b b.op64⟩

/-- `ENCU64` gives the numeral of `OP64` and changes nothing else (R131). -/
theorem execEncu64_numeral {s : State} (hv : s.alphaValid = true) :
    ∃ t, exec .encu64 s = .next t ∧ t.Succeeded ∧ State.ConversionKept s t ∧
      t.output = (numeral58 s.alpha s.op64.toNat).map some := by
  obtain ⟨u, hu, hop, hw⟩ := encu64Body_numeral (s.begin .fixed)
  exact convert_wrote hv hu hop hw

/-- Settles O30: the numeral `ENCU64` gives is the zero-symbol for 0 and `rep58` otherwise. -/
theorem encu64ComputesBase58 : Obligations.Encu64ComputesBase58 := by
  intro s hv
  obtain ⟨t, hnext, hsucc, hkept, hout⟩ := execEncu64_numeral hv
  exact ⟨t, hnext, hsucc, hkept, numeral58_toNat s.alpha s.op64 ▸ hout⟩

/-- Settles O31: each range of R132 lies between two powers of 58, and a 64-bit number is below `58^11`. -/
theorem encu64ResultLength : Obligations.Encu64ResultLength := by
  intro s hv
  obtain ⟨t, hnext, -, -, hout⟩ := execEncu64_numeral hv
  have hlen := State.outLen_of_output hout
  have hlt : s.op64.toNat < 58 ^ 11 := s.op64.isLt.trans (by norm_num)
  refine ⟨t, hnext, fun h => ?_, fun k h2 _ hlow hhigh => ?_, fun h => ?_, ?_, ?_⟩
  · exact hlen.trans (numeral58_length s.alpha (k := 0) (.inr rfl) (by omega))
  · obtain ⟨k, rfl⟩ : ∃ j, k = j + 1 := ⟨k - 1, by omega⟩
    have hpos : 0 < 58 ^ (k + 1) := by positivity
    exact hlen.trans (numeral58_length s.alpha (.inl hlow) (by omega))
  · exact hlen.trans (numeral58_length s.alpha (.inl h) hlt)
  · exact hlen ▸ lt_numeral58_length s.alpha (.inr rfl)
  · exact hlen ▸ numeral58_length_le s.alpha (by decide) hlt

/-! ### `DECU64` (R133, R134) -/

/-- `DECU64` of symbols leaves their value modulo `2^64` in `OP64` (R134). -/
theorem execDecu64_symbols {s : State} {d : List Byte} (hv : s.alphaValid = true) (ho : s.operand = d.map some)
    (hd : ∀ b ∈ d, (valueOf s.rev b).isSome = true) :
    ∃ t, exec .decu64 s = .next t ∧ t.Succeeded ∧ t.op64.toNat = val58 s.rev d % 2 ^ 64 := by
  obtain ⟨f, hf, hacc, -⟩ := fold58_value s.rev d hd 0
  obtain ⟨u, hu, hop⟩ : ∃ u, decu64Body (s.begin .fixed) = .ok u ∧ u.op64 = f.acc := by
    rw [decu64Body, State.begin_operand, State.begin_rev, ho, hf]
    exact ⟨_, rfl, rfl⟩
  exact ⟨_, by rw [exec_decu64, convert_alphabet _ _ hv, hu, settle_ok], (decu64Body_ok hu).succeeded,
    by rw [State.endOperation_op64, hop, hacc]⟩

/-- Settles O32: the fold of symbols succeeds, and `DECU64` writes nothing but `OP64`. -/
theorem decu64FoldsModulo : Obligations.Decu64FoldsModulo := by
  intro s d hv ho hd
  obtain ⟨t, hnext, hsucc, hop⟩ := execDecu64_symbols hv ho hd
  obtain ⟨hinput, halpha, hlen, hout, -⟩ := execDecu64_kept hnext
  exact ⟨t, hnext, hsucc, hinput, halpha, hop, hlen, hout⟩

end Sys2Proof.Machine
end

section
/-! PROOFS. `ENC` of decimal digits (`42_radix58_encoder.md`): the number limbs hold, a div-58 sweep as division by 58,
the encoder's loop as the digits of that number, the chunks as the number the digits make, and from these the result on
either path. -/

namespace Sys2Proof.Machine

/-! ### The number limbs hold, most significant limb first (R33) -/

@[simp] theorem limbsMsf_nil : limbsMsf [] = 0 := rfl

theorem limbsMsf_foldl (n : Nat) (xs : List Word) :
    xs.foldl (fun n x => n * Config.limbBase + x.toNat) n = n * Config.limbBase ^ xs.length + limbsMsf xs := by
  induction xs generalizing n with
  | nil => simp
  | cons x xs ih =>
    have hcons : limbsMsf (x :: xs) = (0 * Config.limbBase + x.toNat) * Config.limbBase ^ xs.length + limbsMsf xs := by
      rw [limbsMsf, List.foldl_cons, ih]
    rw [List.foldl_cons, ih, hcons, List.length_cons]
    ring

theorem limbsMsf_append (xs ys : List Word) :
    limbsMsf (xs ++ ys) = limbsMsf xs * Config.limbBase ^ ys.length + limbsMsf ys := by
  rw [limbsMsf, List.foldl_append]
  exact limbsMsf_foldl (limbsMsf xs) ys

theorem limbsMsf_cons (x : Word) (xs : List Word) :
    limbsMsf (x :: xs) = x.toNat * Config.limbBase ^ xs.length + limbsMsf xs := by
  simpa [limbsMsf] using limbsMsf_append [x] xs

/-- Limbs hold 0 exactly when every limb is 0. -/
theorem limbsMsf_eq_zero_iff (xs : List Word) : limbsMsf xs = 0 ↔ ∀ x ∈ xs, x = 0#64 := by
  induction xs with
  | nil => simp
  | cons x xs ih =>
    have hx : x.toNat = 0 ↔ x = 0#64 := BitVec.toNat_inj (y := 0#64)
    simp [limbsMsf_cons, ih, hx]

/-! ### The div-58 sweep (R156, R233) -/

/-- A div-58 sweep of bounded limbs is long division by 58: the quotient is left in the limbs, the remainder in
`CARRY`. -/
theorem sweepDiv58_value {carry : Word} (t : Word) {limbs : List Word} (hc : carry.toNat ≤ 57)
    (hl : limbsBounded limbs) :
    58 * limbsMsf (sweepDiv58 carry t limbs).limb + (sweepDiv58 carry t limbs).carry.toNat =
      carry.toNat * Config.limbBase ^ limbs.length + limbsMsf limbs := by
  induction limbs generalizing carry t with
  | nil => simp [sweepDiv58]
  | cons x rest ih =>
    obtain ⟨hx, hrest⟩ := (limbsBounded_cons x rest).1 hl
    have hv := divDividend_toNat hc hx
    generalize hq : carry * Config.limbBaseWord + x = v at hv
    have hmod : (v % Config.radixWord).toNat = v.toNat % 58 := BitVec.toNat_umod
    have hdiv : (v / Config.radixWord).toNat = v.toNat / 58 := BitVec.toNat_udiv
    have hc' : (v % Config.radixWord).toNat ≤ 57 := by omega
    have hlen := (sweepDiv58_bounds v hc' hrest).1
    have hsplit : 58 * (v.toNat / 58) + v.toNat % 58 = v.toNat := Nat.div_add_mod _ _
    have hrec := ih v hc' hrest
    rw [hmod] at hrec
    simp only [sweepDiv58, hq, limbsMsf_cons, hlen, hdiv, List.length_cons, pow_succ]
    linear_combination hrec + Config.limbBase ^ rest.length * (hsplit + hv)

/-- A div-58 sweep with no incoming carry leaves quotient and remainder of the number the limbs hold (R156, R233). -/
theorem sweepDiv58_divides (t : Word) {limbs : List Word} (hl : limbsBounded limbs) :
    limbsMsf (sweepDiv58 0#64 t limbs).limb = limbsMsf limbs / 58 ∧
      (sweepDiv58 0#64 t limbs).carry.toNat = limbsMsf limbs % 58 := by
  have hvalue := sweepDiv58_value t (carry := 0#64) (by simp) hl
  have hcarry := (sweepDiv58_bounds t (carry := 0#64) (by simp) hl).2.2
  rw [BitVec.toNat_ofNat, Nat.zero_mod, Nat.zero_mul, Nat.zero_add] at hvalue
  omega

/-! ### The encoder's loop (R153 to R157) -/

/-- The limbs of the encoder's loop hold the number `n`, in bounded limbs, and those before the window are 0. -/
structure EncLoop.Holds (r : EncLoop) (n : Nat) : Prop where
  bounded : limbsBounded r.limb
  head_le : r.head ≤ r.limb.length
  trimmed : limbsMsf (r.limb.take r.head) = 0
  value : limbsMsf r.limb = n

section
variable {r : EncLoop} {n : Nat} (h : r.Holds n)
include h

/-- The window holds the whole number (R15, R154). -/
theorem EncLoop.Holds.window : limbsMsf r.window = n := by
  have hsplit := limbsMsf_append (r.limb.take r.head) r.window
  rw [h.trimmed, Nat.zero_mul, Nat.zero_add, EncLoop.window, List.take_append_drop, h.value] at hsplit
  exact hsplit.symm

/-- The loop test fails exactly at 0 (R153). -/
theorem EncLoop.Holds.more_iff : r.more = true ↔ n ≠ 0 := by
  rw [← h.window, Ne, limbsMsf_eq_zero_iff]
  simp [EncLoop.more]

/-- Trimming moves the window past limbs that are 0 (R154). -/
theorem EncLoop.Holds.trim : r.trim.Holds n where
  bounded := h.bounded
  head_le := by
    have hle : r.trim.head ≤ r.head + r.window.length :=
      Nat.add_le_add_left (List.takeWhile_prefix _).length_le r.head
    have hwindow : r.window.length = r.limb.length - r.head := List.length_drop
    have hhead := h.head_le
    change r.trim.head ≤ r.limb.length
    omega
  trimmed := by
    have hprefix : r.window.take (r.window.takeWhile (· == 0#64)).length = r.window.takeWhile (· == 0#64) :=
      (List.prefix_iff_eq_take.1 (List.takeWhile_prefix _)).symm
    have hzero : limbsMsf (r.window.takeWhile (· == 0#64)) = 0 :=
      (limbsMsf_eq_zero_iff _).2 fun _ hx => by simpa using List.mem_takeWhile_imp hx
    rw [EncLoop.trim, List.take_add, ← EncLoop.window, hprefix, limbsMsf_append, h.trimmed, hzero, Nat.zero_mul]
  value := h.value

/-- A sweep divides the number by 58 and leaves the remainder in `CARRY` (R156). -/
theorem EncLoop.Holds.sweep : r.sweep.Holds (n / 58) ∧ r.sweep.carry.toNat = n % 58 := by
  have hbound : limbsBounded r.window := h.bounded.drop r.head
  obtain ⟨-, hlimb, -⟩ := sweepDiv58_bounds r.t (carry := 0#64) (by simp) hbound
  obtain ⟨hquot, hrem⟩ := sweepDiv58_divides r.t hbound
  rw [h.window] at hquot hrem
  have hlen : (r.limb.take r.head).length = r.head := List.length_take_of_le h.head_le
  exact ⟨{
    bounded := (limbsBounded_append _ _).2 ⟨h.bounded.take r.head, hlimb⟩
    head_le := by simp only [EncLoop.sweep, List.length_append, hlen]; omega
    trimmed := by simp only [EncLoop.sweep, List.take_left' hlen, h.trimmed]
    value := by simp only [EncLoop.sweep, limbsMsf_append, h.trimmed, hquot, Nat.zero_mul, Nat.zero_add] }, hrem⟩

theorem EncLoop.Holds.emit : r.emit.Holds n := ⟨h.bounded, h.head_le, h.trimmed, h.value⟩

end

/-- The loop divides down to 0 and emits the base-58 digits, least significant first, if it may make as many passes as
there are digits (R153, R157, R161). -/
theorem EncLoop.Holds.run {passes : Nat} {r : EncLoop} {n : Nat} (h : r.Holds n) (hn : n < 58 ^ passes) :
    (EncLoop.run passes r).Holds 0 ∧
      (EncLoop.run passes r).emitted.map BitVec.toNat = r.emitted.map BitVec.toNat ++ Nat.digits 58 n := by
  induction passes generalizing r n with
  | zero =>
    obtain rfl : n = 0 := by simpa using hn
    exact ⟨h, by simp [EncLoop.run]⟩
  | succ passes ih =>
    rw [EncLoop.run]
    split_ifs with hmore
    · obtain ⟨hholds, hcarry⟩ := h.trim.sweep
      obtain ⟨hzero, hdigits⟩ := ih hholds.emit (Nat.div_lt_of_lt_mul (by rwa [pow_succ'] at hn))
      refine ⟨hzero, ?_⟩
      rw [hdigits, EncLoop.emit, List.map_append, List.map_singleton, hcarry, List.append_assoc, List.singleton_append,
        ← Nat.digits_def' (by decide) (Nat.pos_of_ne_zero (h.more_iff.1 hmore))]
      rfl
    · obtain rfl : n = 0 := not_not.1 fun hne => hmore (h.more_iff.2 hne)
      exact ⟨h, by simp⟩

/-! ### Chunks (R53, R152) -/

/-- After the first chunk all chunks are full (R53). -/
theorem chunkStart_add (zc flen j n : Nat) :
    chunkStart zc flen (j + 1 + n) = chunkStart zc flen (j + 1) + Config.chunkDigits * n := by
  rw [chunkStart, chunkStart, if_neg (Nat.succ_ne_zero _), if_neg (by omega), Config.chunkDigits]
  omega

theorem chunkLen_le {flen : Nat} (h : flen ≤ Config.chunkDigits) (j : Nat) : chunkLen flen j ≤ Config.chunkDigits := by
  unfold chunkLen
  split_ifs
  · exact h
  · exact le_rfl

/-- `CHUNK` of digits that end where chunk `j + n` starts loads the number they make (R152, R232). -/
theorem parseChunks_digits {xs : List (Option Byte)} {zc flen j n : Nat} {e : List Byte}
    (hf : flen ≤ Config.chunkDigits) (hx : xs.drop (chunkStart zc flen j) = e.map some)
    (hd : ∀ b ∈ e, isDecimal b) (hn : chunkStart zc flen j + e.length = chunkStart zc flen (j + n)) :
    ∃ limbs, parseChunks xs zc flen j n = .ok limbs ∧ limbsMsf limbs = val10 e := by
  induction n generalizing j e with
  | zero =>
    obtain rfl : e = [] := List.length_eq_zero_iff.1 (by simpa using hn)
    exact ⟨[], rfl, rfl⟩
  | succ n ih =>
    have hchunk : chunkBytes xs zc flen j = (e.take (chunkLen flen j)).map some := by
      rw [chunkBytes, hx, List.map_take]
    have hrest : xs.drop (chunkStart zc flen (j + 1)) = (e.drop (chunkLen flen j)).map some := by
      rw [chunkStart_succ, ← List.drop_drop, hx, List.map_drop]
    rw [← Nat.add_assoc, Nat.add_right_comm, chunkStart_add, chunkStart_succ] at hn
    have hlen : (e.drop (chunkLen flen j)).length = Config.chunkDigits * n := by
      rw [List.length_drop]; omega
    have htake : ∀ b ∈ e.take (chunkLen flen j), isDecimal b := fun b hb => hd b (List.mem_of_mem_take hb)
    have hlt : val10 (e.take (chunkLen flen j)) < 2 ^ 64 := calc
      _ < 10 ^ (e.take (chunkLen flen j)).length := val10_lt _ htake
      _ ≤ 10 ^ 17 := Nat.pow_le_pow_right (by decide) ((List.length_take_le _ _).trans (chunkLen_le hf j))
      _ < 2 ^ 64 := by norm_num
    obtain ⟨x, hparse, hval⟩ := parse10_value (chunkStart zc flen j) (chunkLen flen j) _ htake hlt
    obtain ⟨limbs, hlimbs, hmsf⟩ := ih hrest (fun b hb => hd b (List.mem_of_mem_drop hb)) (by
      rw [hlen, chunkStart_add])
    refine ⟨x :: limbs, by rw [parseChunks, hchunk, hparse, hlimbs], ?_⟩
    have hcount : limbs.length = n := (parseChunks_bounds hf hlimbs).1
    conv_rhs => rw [← List.take_append_drop (chunkLen flen j) e, val10_append, hlen, pow_mul]
    rw [limbsMsf_cons, hval, hmsf, hcount]
    norm_num

/-! ### `ENC` of digits (R150, R160) -/

/-- The registers with which the encoder's loop begins (R153). -/
def State.encLoop (s : State) : EncLoop :=
  { phase := s.phase, limb := s.scratch.limb, head := s.scratch.head, carry := 0#64, t := 0#64, emitted := [] }

/-- The limb path appends the symbols of the digits its loop emits, last emitted first (R158). -/
theorem State.divideOut_wrote_emitted (s : State) :
    State.Wrote s s.divideOut (s.symbols (EncLoop.run s.scratch.m s.encLoop).emitted.reverse) := by
  constructor <;> rfl

/-- The limb path appends the base-58 numeral of the number the limbs hold (R153, R158). -/
theorem State.divideOut_wrote_numeral {s : State} (hl : limbsBounded s.scratch.limb) (hh : s.scratch.head = 0)
    (hn : limbsMsf s.scratch.limb < 58 ^ s.scratch.m) :
    State.Wrote s s.divideOut (rep58 s.alpha (limbsMsf s.scratch.limb)) := by
  have hstart : s.encLoop.Holds (limbsMsf s.scratch.limb) :=
    ⟨hl, by simp [State.encLoop, hh], by simp [State.encLoop, hh], rfl⟩
  have hsymbols : s.symbols (EncLoop.run s.scratch.m s.encLoop).emitted.reverse =
      rep58 s.alpha (limbsMsf s.scratch.limb) := by
    rw [State.symbols_eq, List.map_reverse, (hstart.run hn).2]
    rfl
  exact hsymbols ▸ s.divideOut_wrote_emitted

/-- From `DISPATCH` on, `ENC` of a remainder of digits appends the base-58 numeral of their value, on either path
(R213). -/
theorem encDispatch_digits {s : State} {e : List Byte} (hrem : s.remainder = e.map some)
    (hm : s.scratch.m = e.length) (hd : ∀ b ∈ e, isDecimal b) :
    ∃ u, encDispatch s = .ok u ∧ State.Wrote s u (rep58 s.alpha (val10 e)) := by
  have hlt := val10_lt e hd
  unfold encDispatch
  split_ifs with h0 h1
  · obtain rfl : e = [] := List.length_eq_zero_iff.1 (hm ▸ h0)
    exact ⟨s, rfl, by simpa using State.Wrote.refl s⟩
  · have hle : 10 ^ e.length ≤ 10 ^ 19 := Nat.pow_le_pow_right (by decide) (hm ▸ h1)
    obtain ⟨n, hparse, hval⟩ := parse10_value s.scratch.zc s.scratch.m e hd (by omega)
    rw [encFixed, hrem, hparse, ← hval]
    refine ⟨_, rfl, ?_⟩
    rw [← State.symbols_digits58]
    constructor <;> rfl
  · have hm20 : 20 ≤ s.scratch.m := Nat.lt_of_not_le h1
    obtain ⟨limbs, hparse, hmsf⟩ := parseChunks_digits (j := 0) (n := chunkCount s.scratch.m) (firstChunkLen_le _) hrem
      hd (by rw [Nat.zero_add, chunkStart_chunkCount _ hm20, hm]; rfl)
    have hbound : limbsBounded limbs := (parseChunks_bounds (firstChunkLen_le _) hparse).2
    have hpow : 10 ^ e.length ≤ 58 ^ e.length := Nat.pow_le_pow_left (by decide) _
    rw [encLimbPath, hparse, ← hmsf]
    exact ⟨_, rfl, (State.loadLimbs_wrote s limbs).trans
      (State.divideOut_wrote_numeral hbound rfl (hmsf.trans_lt (hm ▸ hlt.trans_le hpow)))⟩

/-- The body of `ENC` on digits appends one zero-symbol per leading `'0'` and then the base-58 numeral of the rest
(R159, R160). -/
theorem encBody_digits {b : State} {d : List Byte} (ho : b.operand = d.map some) (hd : ∀ x ∈ d, isDecimal x) :
    ∃ u, encBody b = .ok u ∧ State.Wrote b u (List.replicate (lz d 0x30#8) b.zeroSymbol ++
      rep58 b.alpha (val10 (d.drop (lz d 0x30#8)))) := by
  rw [encBody, ho, scanZeroDigits_eq]
  obtain ⟨u, hu, hw⟩ := encDispatch_digits
    (s := (b.noteZeroRun (lz d 0x30#8)).emitAll (List.replicate (lz d 0x30#8) b.zeroSymbol))
    (e := d.drop (lz d 0x30#8))
    (by rw [List.map_drop, ← ho]; rfl)
    (by rw [List.length_drop, ← State.inLen_of_operand ho]; rfl)
    fun x hx => hd x (List.mem_of_mem_drop hx)
  exact ⟨u, hu, ((State.noteZeroRun_wrote b _).trans (State.emitAll_wrote _ _)).trans hw⟩

/-- `ENC` of digits ends without error, with that result, and changes nothing else (R160). -/
theorem execEnc_digits {s : State} {d : List Byte} (hv : s.alphaValid = true) (ho : s.operand = d.map some)
    (hd : ∀ b ∈ d, isDecimal b) :
    ∃ t, exec .enc s = .next t ∧ t.Succeeded ∧ State.ConversionKept s t ∧
      t.output = (List.replicate (lz d 0x30#8) s.alpha[(0 : Fin 58)] ++
        rep58 s.alpha (val10 (d.drop (lz d 0x30#8)))).map some := by
  obtain ⟨u, hu, hw⟩ := encBody_digits (b := s.begin .lzscan) ho hd
  exact convert_wrote hv hu (encBody_ok hu).1 hw

end Sys2Proof.Machine
end

section
/-! PROOFS. The round trip of `ENCU64` and `DECU64` and its agreement with `ENC` (`U64RoundTripAndAgreement`): what a
decimal numeral is worth and that it has no leading zero, so that `ENC` of it gives the base-58 numeral `ENCU64` gives. -/

namespace Sys2Proof.Machine

/-! ### Decimal numerals (R13, R90) -/

theorem dec_zero : dec 0 = [0x30#8] := rfl

theorem dec_of_ne_zero {n : Nat} (h : n ≠ 0) :
    dec n = (Nat.digits 10 n).reverse.map fun q => BitVec.ofNat 8 (0x30 + q) := if_neg h

theorem decimalByte_toNat {q : Nat} (h : q < 10) : (BitVec.ofNat 8 (0x30 + q)).toNat = 0x30 + q := by
  rw [BitVec.toNat_ofNat]
  omega

/-- A decimal numeral is written in digits. -/
theorem isDecimal_of_mem_dec {n : Nat} {b : Byte} (hb : b ∈ dec n) : isDecimal b := by
  unfold dec at hb
  split_ifs at hb
  · rw [List.mem_singleton.1 hb]
    exact ⟨by decide, by decide⟩
  · obtain ⟨q, hq, rfl⟩ := List.mem_map.1 hb
    have hlt : q < 10 := Nat.digits_lt_base (by decide) (List.mem_reverse.1 hq)
    rw [isDecimal, decimalByte_toNat hlt]
    omega

/-- The bytes of decimal digits, most significant digit first, are worth the number the digits make (R13). -/
theorem val10_digits (ds : List Nat) (hds : ∀ q ∈ ds, q < 10) :
    val10 (ds.reverse.map fun q => BitVec.ofNat 8 (0x30 + q)) = Nat.ofDigits 10 ds := by
  induction ds with
  | nil => rfl
  | cons q ds ih =>
    rw [List.reverse_cons, List.map_append, val10_append, ih fun x hx => hds x (by simp [hx]), List.map_singleton,
      val10_cons, decimalByte_toNat (hds q (by simp)), val10_nil, Nat.add_sub_cancel_left, Nat.ofDigits_cons,
      List.length_singleton, List.length_nil, pow_one, pow_zero]
    ring

/-- `val10` undoes `dec` (R13). -/
theorem val10_dec (n : Nat) : val10 (dec n) = n := by
  by_cases h0 : n = 0
  · rw [h0]; rfl
  · rw [dec_of_ne_zero h0, val10_digits _ fun _ hq => Nat.digits_lt_base (by decide) hq, Nat.ofDigits_digits]

/-- The decimal numeral of a nonzero number has no leading zero (R13). -/
theorem lz_dec {n : Nat} (h : n ≠ 0) : lz (dec n) 0x30#8 = 0 := by
  have hne : Nat.digits 10 n ≠ [] := Nat.digits_ne_nil_iff_ne_zero.2 h
  have htop : (Nat.digits 10 n).getLast hne ≠ 0 := Nat.getLast_digit_ne_zero 10 h
  have hlt : (Nat.digits 10 n).getLast hne < 10 := Nat.digits_lt_base (by decide) (List.getLast_mem hne)
  rw [dec_of_ne_zero h, ← List.dropLast_append_getLast hne, List.reverse_concat, List.map_cons, lz_cons, if_neg]
  intro heq
  have htoNat := decimalByte_toNat hlt
  rw [heq, BitVec.toNat_ofNat] at htoNat
  omega

/-- What `ENC` makes of a decimal numeral: the base-58 numeral of the number, where the one `'0'` of `"0"` is the
zero-symbol of 0 (R137). -/
theorem encResult_dec (alpha : Vector Byte 58) (n : Nat) :
    List.replicate (lz (dec n) 0x30#8) alpha[(0 : Fin 58)] ++ rep58 alpha (val10 ((dec n).drop (lz (dec n) 0x30#8))) =
      numeral58 alpha n := by
  by_cases h0 : n = 0
  · have hlz : lz (dec 0) 0x30#8 = 1 := rfl
    rw [h0, hlz, dec_zero, numeral58, if_pos rfl]
    exact List.append_nil _
  · rw [lz_dec h0, List.drop_zero, val10_dec, numeral58, if_neg h0, List.replicate_zero, List.nil_append]

/-! ### The round trip (R137) -/

/-- `DECU64` of the numeral `ENCU64` gives leaves the number in `OP64`. -/
theorem execDecu64_numeral {u : State} {alpha : Vector Byte 58} {n : Word} (hv : u.alphaValid = true)
    (hok : AlphabetOk alpha u.rev) (ho : u.operand = (numeral58 alpha n.toNat).map some) :
    ∃ w, exec .decu64 u = .next w ∧ w.Succeeded ∧ w.op64 = n := by
  obtain ⟨w, hnext, hsucc, hop⟩ := execDecu64_symbols hv ho fun b hb => hok.isSome_of_mem_numeral58 hb
  rw [hok.val58_numeral58, Nat.mod_eq_of_lt n.isLt] at hop
  exact ⟨w, hnext, hsucc, BitVec.eq_of_toNat_eq hop⟩

/-- `ENC` of a decimal numeral gives the base-58 numeral of the same number, of any size. -/
theorem execEnc_dec {u : State} {n : Nat} (hv : u.alphaValid = true) (ho : u.operand = (dec n).map some) :
    ∃ w, exec .enc u = .next w ∧ w.Succeeded ∧ w.output = (numeral58 u.alpha n).map some := by
  obtain ⟨w, hnext, hsucc, -, hout⟩ := execEnc_digits hv ho fun _ hb => isDecimal_of_mem_dec hb
  exact ⟨w, hnext, hsucc, encResult_dec u.alpha n ▸ hout⟩

/-- Settles O34: `DECU64` and `ENC`, under the same alphabet, meet the numeral that `ENCU64` gives. -/
theorem u64RoundTripAndAgreement : Obligations.U64RoundTripAndAgreement := by
  intro s hv hok
  obtain ⟨t, hnext, hsucc, -, hout⟩ := execEncu64_numeral hv
  refine ⟨t, hnext, hsucc, fun u hu ho => ?_, fun u hu ho => ?_⟩
  · exact execDecu64_numeral (hu.alphaValid.trans hv) (hu.rev ▸ hok) (ho.trans hout)
  · obtain ⟨w, hw, hwsucc, hwout⟩ := execEnc_dec (hu.alphaValid.trans hv) ho
    exact ⟨w, hw, hwsucc, by rw [hwout, hout, hu.alpha]⟩

end Sys2Proof.Machine
end

section
/-! PROOFS. The div-58 sweep and the encoder's loop on their own (`42_radix58_encoder.md`): division by 58
(`DivSweepDividesBy58`), zero limbs in front of a sweep (`TrimHasNoEffect`), and where the loop ends
(`EncLoopEndsAtZero`). -/

namespace Sys2Proof.Machine

/-- Settles O21: the limbs stay bounded, and hold the quotient of a long division whose remainder is in `CARRY`. -/
theorem divSweepDividesBy58 : Obligations.DivSweepDividesBy58 := by
  intro limbs t hl
  obtain ⟨hlen, hbounded, -⟩ := sweepDiv58_bounds (carry := 0#64) t (by simp) hl
  obtain ⟨hquot, hrem⟩ := sweepDiv58_divides t hl
  exact ⟨hlen, hbounded, hquot, hrem⟩

/-- What a sweep leaves in the limbs and in `CARRY` does not depend on what `T` held before it (R156). -/
theorem sweepDiv58_of_any_t (carry t t' : Word) (limbs : List Word) :
    (sweepDiv58 carry t limbs).limb = (sweepDiv58 carry t' limbs).limb ∧
      (sweepDiv58 carry t limbs).carry = (sweepDiv58 carry t' limbs).carry := by
  cases limbs <;> exact ⟨rfl, rfl⟩

/-- A zero limb with no carry coming in stays zero and passes no carry on (R154). -/
theorem sweepDiv58_cons_zero (t : Word) (limbs : List Word) :
    (sweepDiv58 0#64 t (0#64 :: limbs)).limb = 0#64 :: (sweepDiv58 0#64 0#64 limbs).limb ∧
      (sweepDiv58 0#64 t (0#64 :: limbs)).carry = (sweepDiv58 0#64 0#64 limbs).carry := ⟨rfl, rfl⟩

/-- Settles O23, by induction on the number of zero limbs in front. -/
theorem trimHasNoEffect : Obligations.TrimHasNoEffect := by
  intro k limbs t
  induction k generalizing t with
  | zero => exact ⟨rfl, rfl⟩
  | succ k ih =>
    obtain ⟨hlimb, hcarry⟩ := sweepDiv58_cons_zero t (List.replicate k 0#64 ++ limbs)
    obtain ⟨ihlimb, ihcarry⟩ := ih 0#64
    obtain ⟨hlimb', hcarry'⟩ := sweepDiv58_of_any_t 0#64 0#64 t limbs
    rw [List.replicate_succ, List.cons_append, hlimb, hcarry, ihlimb, ihcarry, hlimb', hcarry']
    exact ⟨rfl, rfl⟩

/-- Settles O22: `10^M` is at most `58^M`, so `M` passes reach the number 0, which fails the loop test. -/
theorem encLoopEndsAtZero : Obligations.EncLoopEndsAtZero := by
  intro m limbs ph hl hlt
  have hstart : EncLoop.Holds ⟨ph, limbs, 0, 0#64, 0#64, []⟩ (limbsMsf limbs) := ⟨hl, Nat.zero_le _, rfl, rfl⟩
  obtain ⟨hend, hdigits⟩ := hstart.run (hlt.trans_le (Nat.pow_le_pow_left (by decide) m))
  refine ⟨?_, (limbsMsf_eq_zero_iff _).1 hend.value, (EncLoop.run_bounds m hl (by simp)).1, hdigits⟩
  exact Bool.eq_false_iff.2 fun hmore => hend.more_iff.1 hmore rfl

end Sys2Proof.Machine
end

section
/-! PROOFS. `ENC` of an operand that holds a non-digit (`42_radix58_encoder.md`, R163): which segment is reported on
either path, and that there is no other way for `ENC` to fail. -/

namespace Sys2Proof.Machine

variable {d : List Byte}

/-! ### Leading bytes (R13) -/

theorem replicate_lz_append_drop (d : List Byte) (c : Byte) : List.replicate (lz d c) c ++ d.drop (lz d c) = d := by
  induction d with
  | nil => rfl
  | cons b d ih =>
    rw [lz_cons]
    split_ifs with hb
    · rw [List.replicate_succ, List.drop_succ_cons, List.cons_append, ih, hb]
    · rfl

/-- An operand is digits if its remainder is: the bytes before the remainder are `'0'`. -/
theorem isDecimal_of_remainder (hd : ∀ b ∈ d.drop (lz d 0x30#8), isDecimal b) : ∀ b ∈ d, isDecimal b := by
  intro b hb
  rw [← replicate_lz_append_drop d 0x30#8, List.mem_append] at hb
  rcases hb with hzero | hrest
  · rw [List.eq_of_mem_replicate hzero]
    exact ⟨by decide, by decide⟩
  · exact hd b hrest

/-! ### Chunks (R53, R163) -/

theorem chunkStart_mono (zc flen : Nat) : Monotone (chunkStart zc flen) :=
  monotone_nat_of_le_succ fun j => by rw [chunkStart_succ]; exact Nat.le_add_right _ _

/-- The chunks of an operand all of whose bytes are there. -/
theorem chunkBytes_map (d : List Byte) (zc flen j : Nat) :
    chunkBytes (d.map some) zc flen j = ((d.drop (chunkStart zc flen j)).take (chunkLen flen j)).map some := by
  rw [chunkBytes, List.map_take, List.map_drop]

/-- Chunk `j` holds a byte that is no digit. -/
def badChunk (d : List Byte) (zc flen j : Nat) : Prop :=
  ∃ b ∈ (d.drop (chunkStart zc flen j)).take (chunkLen flen j), ¬isDecimal b

/-- `CHUNK` raises at the first chunk that holds a non-digit, with that chunk as the segment (R152, R163). -/
theorem parseChunks_badChunk {zc flen i j n : Nat} (hi : i ≤ j) (hn : j < i + n)
    (hbefore : ∀ k, i ≤ k → k < j → ¬badChunk d zc flen k) (hj : badChunk d zc flen j) :
    parseChunks (d.map some) zc flen i n =
      .error (.raise (.invalidDigit (chunkStart zc flen j) (chunkLen flen j))) := by
  induction n generalizing i with
  | zero => omega
  | succ n ih =>
    rw [parseChunks, chunkBytes_map]
    rcases parse10_cases (chunkStart zc flen i) (chunkLen flen i) 0#64
      ((d.drop (chunkStart zc flen i)).take (chunkLen flen i)) with ⟨hgood, w, hw⟩ | ⟨hbad, hw⟩
    · have hne : i ≠ j := by
        rintro rfl
        obtain ⟨b, hb, hnot⟩ := hj
        exact hnot (hgood b hb)
      have hrest := ih (i := i + 1) (by omega) (by omega) fun k hk => hbefore k (by omega)
      simp only [hw, hrest]
    · obtain rfl : i = j := le_antisymm hi (not_lt.1 fun hlt => hbefore i le_rfl hlt hbad)
      rw [hw]

/-- A remainder with a non-digit has a first chunk that holds one (R53). -/
theorem exists_first_badChunk {zc m : Nat} (hm : 20 ≤ m) (hlen : d.length = zc + m)
    (hbad : ∃ b ∈ d.drop zc, ¬isDecimal b) :
    ∃ j < chunkCount m, (∀ k < j, ¬badChunk d zc (firstChunkLen m) k) ∧ badChunk d zc (firstChunkLen m) j := by
  classical
  obtain ⟨b, hb, hnot⟩ := hbad
  have hcover : (List.range (chunkCount m)).flatMap (chunkBytes (d.map some) zc (firstChunkLen m)) =
      (d.map some).drop zc := by
    rw [flatMap_chunkBytes, chunkStart_chunkCount zc hm, Nat.add_sub_cancel_left]
    exact List.take_of_length_le (by simp [hlen])
  have hsome : some b ∈ (d.map some).drop zc := by
    rw [← List.map_drop]
    exact List.mem_map_of_mem hb
  rw [← hcover, List.mem_flatMap] at hsome
  obtain ⟨j, hj, hmem⟩ := hsome
  rw [chunkBytes_map, List.mem_map_of_injective (Option.some_injective _)] at hmem
  have hex : ∃ j, badChunk d zc (firstChunkLen m) j := ⟨j, b, hmem, hnot⟩
  refine ⟨Nat.find hex, ?_, fun k hk => Nat.find_min hex hk, Nat.find_spec hex⟩
  exact (Nat.find_min' hex ⟨b, hmem, hnot⟩).trans_lt (List.mem_range.1 hj)

/-! ### `ENC` (R163, R251) -/

/-- A conversion whose body raises an error reports it and leaves all else alone (R255, R256). -/
theorem convert_fails {ph : Phase} {body : State → Except Stop State} {s : State} {e : CodecError}
    (hv : s.alphaValid = true) (hbody : body (s.begin ph) = .error (.raise e)) :
    ∃ t, convert ph body s = .next t ∧ t.FailedWith e.kind e.detail e.byte e.off e.len ∧ State.ConversionKept s t :=
  ⟨_, by rw [convert_alphabet _ _ hv, hbody, settle_raise], State.raise_failedWith _ e,
    State.raise_conversionKept s ph e⟩

/-- From `DISPATCH` on, `ENC` with a non-digit in a remainder of at most 19 bytes reports the whole remainder (R163,
R213). -/
theorem encDispatch_short_nonDigit {s : State} {z m : Nat} (ho : s.operand = d.map some) (hz : s.scratch.zc = z)
    (hm : s.scratch.m = m) (hpos : m ≠ 0) (hshort : m ≤ 19) (hbad : ∃ b ∈ d.drop z, ¬isDecimal b) :
    encDispatch s = .error (.raise (.invalidDigit z m)) := by
  obtain ⟨b, hb, hnot⟩ := hbad
  rw [encDispatch, hm, if_neg hpos, if_pos hshort, encFixed, State.remainder, ho, hz, hm, ← List.map_drop]
  rcases parse10_cases z m 0#64 (d.drop z) with ⟨hgood, -⟩ | ⟨-, hraise⟩
  · exact absurd (hgood b hb) hnot
  · rw [hraise]

/-- From `DISPATCH` on, `ENC` of a remainder for the limb path reports the first chunk that holds a non-digit (R163,
R213). -/
theorem encDispatch_badChunk {s : State} {z m j : Nat} (ho : s.operand = d.map some) (hz : s.scratch.zc = z)
    (hm : s.scratch.m = m) (hlong : 20 ≤ m) (hj : j < chunkCount m)
    (hbefore : ∀ k < j, ¬badChunk d z (firstChunkLen m) k) (hbad : badChunk d z (firstChunkLen m) j) :
    encDispatch s =
      .error (.raise (.invalidDigit (chunkStart z (firstChunkLen m) j) (chunkLen (firstChunkLen m) j))) := by
  have hparse := parseChunks_badChunk (Nat.zero_le j) (hj.trans_eq (Nat.zero_add _).symm)
    (fun k _ hk => hbefore k hk) hbad
  rw [encDispatch, hm, if_neg (by omega), if_neg (Nat.not_le.2 hlong), encLimbPath, ho, hz, hm, hparse]

/-- The body of `ENC` scans the leading `'0'` bytes and dispatches on the rest (R150). -/
theorem encBody_eq_dispatch {b : State} (ho : b.operand = d.map some) :
    encBody b = encDispatch ((b.noteZeroRun (lz d 0x30#8)).emitAll (List.replicate (lz d 0x30#8) b.zeroSymbol)) := by
  rw [encBody, ho, scanZeroDigits_eq]

section
variable {s : State} (hv : s.alphaValid = true) (ho : s.operand = d.map some)
include hv ho

/-- `ENC` that ends at the dispatch with an error reports it and leaves all else alone (R255, R256). -/
theorem execEnc_fails {e : CodecError}
    (hdispatch : ∀ u : State, u.operand = d.map some → u.scratch.zc = lz d 0x30#8 →
      u.scratch.m = d.length - lz d 0x30#8 → encDispatch u = .error (.raise e)) :
    ∃ t, exec .enc s = .next t ∧ t.FailedWith e.kind e.detail e.byte e.off e.len ∧ State.ConversionKept s t :=
  convert_fails hv ((encBody_eq_dispatch (b := s.begin .lzscan) ho).trans
    (hdispatch _ ho rfl (congrArg (· - lz d 0x30#8) (State.inLen_of_operand ho))))

/-- `ENC` with a non-digit in a remainder of at most 19 bytes reports the whole remainder (R163, D8). -/
theorem execEnc_short_nonDigit (hshort : d.length - lz d 0x30#8 ≤ 19)
    (hbad : ∃ b ∈ d.drop (lz d 0x30#8), ¬isDecimal b) :
    ∃ t, exec .enc s = .next t ∧
      t.FailedWith .invalidDigit 0#8 0#8 (lz d 0x30#8) (d.length - lz d 0x30#8) ∧ State.ConversionKept s t := by
  refine execEnc_fails hv ho (e := .invalidDigit _ _) fun u hu hz hm => ?_
  have hpos : d.length - lz d 0x30#8 ≠ 0 := by
    obtain ⟨b, hb, -⟩ := hbad
    exact List.length_drop ▸ (List.length_pos_of_mem hb).ne'
  exact encDispatch_short_nonDigit hu hz hm hpos hshort hbad

/-- `ENC` on the limb path reports the first chunk that holds a non-digit (R163, D8). -/
theorem execEnc_badChunk (hlong : 20 ≤ d.length - lz d 0x30#8) {j : Nat}
    (hj : j < chunkCount (d.length - lz d 0x30#8))
    (hbefore : ∀ k < j, ¬badChunk d (lz d 0x30#8) (firstChunkLen (d.length - lz d 0x30#8)) k)
    (hbad : badChunk d (lz d 0x30#8) (firstChunkLen (d.length - lz d 0x30#8)) j) :
    ∃ t, exec .enc s = .next t ∧
      t.FailedWith .invalidDigit 0#8 0#8
        (chunkStart (lz d 0x30#8) (firstChunkLen (d.length - lz d 0x30#8)) j)
        (chunkLen (firstChunkLen (d.length - lz d 0x30#8)) j) ∧ State.ConversionKept s t :=
  execEnc_fails hv ho (e := .invalidDigit _ _) fun _ hu hz hm => encDispatch_badChunk hu hz hm hlong hj hbefore hbad

/-- `ENC` with a non-digit in the remainder ends with `InvalidDigit`; the segment reported lies in the remainder and
holds a non-digit (R163, R251). -/
theorem execEnc_nonDigit (hbad : ∃ b ∈ d.drop (lz d 0x30#8), ¬isDecimal b) :
    ∃ t off len, exec .enc s = .next t ∧ t.FailedWith .invalidDigit 0#8 0#8 off len ∧
      lz d 0x30#8 ≤ off ∧ off + len ≤ d.length ∧ ∃ b ∈ (d.drop off).take len, ¬isDecimal b := by
  have hz := lz_le d 0x30#8
  have hsum : lz d 0x30#8 + (d.length - lz d 0x30#8) = d.length := Nat.add_sub_cancel' hz
  rcases Nat.lt_or_ge (d.length - lz d 0x30#8) 20 with hshort | hlong
  · obtain ⟨t, hnext, hfail, -⟩ := execEnc_short_nonDigit hv ho (Nat.le_of_lt_succ hshort) hbad
    refine ⟨t, _, _, hnext, hfail, le_rfl, hsum.le, ?_⟩
    rwa [← List.length_drop, List.take_length]
  · obtain ⟨j, hj, hbefore, hchunk⟩ := exists_first_badChunk hlong hsum.symm hbad
    obtain ⟨t, hnext, hfail, -⟩ := execEnc_badChunk hv ho hlong hj hbefore hchunk
    refine ⟨t, _, _, hnext, hfail, le_chunkStart _ _ _, ?_, hchunk⟩
    calc
      _ = chunkStart (lz d 0x30#8) (firstChunkLen (d.length - lz d 0x30#8)) (j + 1) := (chunkStart_succ _ _ _).symm
      _ ≤ chunkStart (lz d 0x30#8) (firstChunkLen (d.length - lz d 0x30#8)) (chunkCount (d.length - lz d 0x30#8)) :=
        chunkStart_mono _ _ hj
      _ = d.length := (chunkStart_chunkCount _ hlong).trans hsum

end

/-- Settles O16: the fixed-width path parses the whole remainder as one segment. -/
theorem encReportsWholeShortRemainder : Obligations.EncReportsWholeShortRemainder :=
  fun _ _ hv ho _ hshort hbad => execEnc_short_nonDigit hv ho hshort hbad

/-- Settles O17: `CHUNK` parses the chunks in index order, each as a segment of its own. -/
theorem encReportsMostSignificantBadChunk : Obligations.EncReportsMostSignificantBadChunk := by
  intro s d hv ho z m nl flen start len hlong j hj hbefore hbad
  exact execEnc_badChunk hv ho hlong hj (fun k hk ⟨b, hb, hnot⟩ => hnot (hbefore k hk b hb)) hbad

/-- Settles O18: digits in the remainder make digits of the whole operand, on which `ENC` succeeds; a non-digit there is
reported. -/
theorem encFailsExactlyOnNonDigit : Obligations.EncFailsExactlyOnNonDigit := by
  intro s d hv ho
  by_cases hbad : ∃ b ∈ d.drop (lz d 0x30#8), ¬isDecimal b
  · obtain ⟨t, off, len, hnext, hfail, hsegment⟩ := execEnc_nonDigit hv ho hbad
    rw [← hfail.errOff, ← hfail.errLen] at hsegment
    exact ⟨t, hnext, .inr hfail.err, iff_of_true hfail.err hbad, fun _ => hsegment⟩
  · obtain ⟨t, hnext, hsucc, -, -⟩ := execEnc_digits hv ho
      (isDecimal_of_remainder fun b hb => not_not.1 fun hnot => hbad ⟨b, hb, hnot⟩)
    have herr : t.err ≠ .invalidDigit := by rw [hsucc.err]; decide
    exact ⟨t, hnext, .inl hsucc.err, iff_of_false herr hbad, fun h => absurd h herr⟩

end Sys2Proof.Machine
end

section
/-! PROOFS. The result of `ENC` on digits (`EncComputesBase58`): its length, and its leading zero-symbols. -/

namespace Sys2Proof.Machine

/-- The result of `ENC` on digits (R160). -/
def encResult (alpha : Vector Byte 58) (d : List Byte) : List Byte :=
  List.replicate (lz d 0x30#8) alpha[(0 : Fin 58)] ++ rep58 alpha (val10 (d.drop (lz d 0x30#8)))

theorem encResult_length (alpha : Vector Byte 58) (d : List Byte) :
    (encResult alpha d).length = lz d 0x30#8 + (rep58 alpha (val10 (d.drop (lz d 0x30#8)))).length := by
  rw [encResult, List.length_append, List.length_replicate]

/-- Bytes `c` put in front add to the run of leading bytes `c` (R13). -/
theorem lz_replicate_append (n : Nat) (c : Byte) (d : List Byte) : lz (List.replicate n c ++ d) c = n + lz d c := by
  induction n with
  | zero => simp
  | succ n ih => rw [List.replicate_succ, List.cons_append, lz_cons, if_pos rfl, ih, Nat.add_right_comm]

/-- Behind the run of leading bytes `c` no further one follows. -/
theorem lz_drop_lz (d : List Byte) (c : Byte) : lz (d.drop (lz d c)) c = 0 := by
  have hsplit := lz_replicate_append (lz d c) c (d.drop (lz d c))
  rw [replicate_lz_append_drop] at hsplit
  omega

/-- The base-58 numeral has no leading zero-symbol, if no other symbol looks like it (R13). -/
theorem lz_rep58 {alpha : Vector Byte 58} (h : alpha.toList.Nodup) (n : Nat) :
    lz (rep58 alpha n) alpha[(0 : Fin 58)] = 0 := by
  by_cases h0 : n = 0
  · rw [h0, rep58_zero]
    rfl
  have hne : Nat.digits 58 n ≠ [] := Nat.digits_ne_nil_iff_ne_zero.2 h0
  have htop : (Nat.digits 58 n).getLast hne ≠ 0 := Nat.getLast_digit_ne_zero 58 h0
  have hlt : (Nat.digits 58 n).getLast hne < 58 := Nat.digits_lt_base (by decide) (List.getLast_mem hne)
  rw [rep58, ← List.dropLast_append_getLast hne, List.reverse_concat, List.map_cons, lz_cons, if_neg]
  intro heq
  have hval := congrArg Fin.val (alpha_injective h heq)
  rw [Fin.val_ofNat, Nat.mod_eq_of_lt hlt] at hval
  exact htop hval

/-- Settles O15: the numeral of a number between two powers of 58 has that many symbols, none of them a leading
zero-symbol. -/
theorem encComputesBase58 : Obligations.EncComputesBase58 := by
  intro s d hv ho hd
  obtain ⟨t, hnext, hsucc, hkept, hout⟩ := execEnc_digits hv ho hd
  have hlen : t.outLen = _ := (State.outLen_of_output hout).trans (encResult_length s.alpha d)
  refine ⟨t, hnext, hsucc, hkept, hout, fun hempty => ?_, fun k hlow hhigh => ?_, fun hnodup out heq => ?_⟩
  · rw [hlen, hempty, val10_nil, rep58_zero]
    rfl
  · have hle := rep58_length_le s.alpha hhigh
    have hlt := lt_rep58_length s.alpha hlow
    omega
  · obtain rfl : out = encResult s.alpha d := (List.map_injective_iff.2 (Option.some_injective _)) (heq.symm.trans hout)
    rw [encResult, lz_replicate_append, lz_rep58 hnodup, Nat.add_zero]

end Sys2Proof.Machine
end

section
/-! PROOFS. `DEC` of symbols (`43_radix58_decoder.md`): decimal numerals as the numbers they make, the rendering of
limbs, and the result on either path. -/

namespace Sys2Proof.Machine

/-! ### Decimal numerals (R13) -/

/-- A digit string, read from its end, lists the digits of its value. -/
theorem val10_eq_ofDigits (d : List Byte) : val10 d = Nat.ofDigits 10 (d.reverse.map fun b => b.toNat - 0x30) := by
  induction d with
  | nil => rfl
  | cons b d ih =>
    rw [val10_cons, ih, List.reverse_cons, List.map_append, Nat.ofDigits_append, List.length_map, List.length_reverse,
      List.map_singleton, Nat.ofDigits_singleton]
    ring

theorem decimalByte_sub {b : Byte} (h : isDecimal b) : BitVec.ofNat 8 (0x30 + (b.toNat - 0x30)) = b := by
  rw [Nat.add_sub_cancel' h.1, BitVec.ofNat_toNat, BitVec.setWidth_eq]

/-- `dec` undoes `val10` on a digit string with no leading zero (R13). -/
theorem dec_val10 {d : List Byte} (hd : ∀ b ∈ d, isDecimal b) (hne : d ≠ []) (hlz : lz d 0x30#8 = 0) :
    dec (val10 d) = d := by
  obtain ⟨b, e, rfl⟩ := List.exists_cons_of_ne_nil hne
  have hhead : b.toNat - 0x30 ≠ 0 := by
    intro h0
    have hb : b = 0x30#8 := BitVec.eq_of_toNat_eq (le_antisymm (Nat.sub_eq_zero_iff_le.1 h0) (hd b (by simp)).1)
    rw [lz_cons, if_pos hb] at hlz
    exact Nat.succ_ne_zero _ hlz
  have hdigits : Nat.digits 10 (val10 (b :: e)) = (b :: e).reverse.map fun x => x.toNat - 0x30 := by
    rw [val10_eq_ofDigits]
    refine Nat.digits_ofDigits 10 (by decide) _ (fun q hq => ?_) fun _ => by simpa using hhead
    obtain ⟨x, hx, rfl⟩ := List.mem_map.1 hq
    have := (hd x (List.mem_reverse.1 hx)).2
    omega
  have h0 : val10 (b :: e) ≠ 0 := fun h0 => by simp [h0] at hdigits
  rw [dec_of_ne_zero h0, hdigits, ← List.map_reverse, List.reverse_reverse, List.map_map]
  exact (List.map_congr_left fun x hx => decimalByte_sub (hd x hx)).trans (List.map_id _)

theorem dec_ne_nil (n : Nat) : dec n ≠ [] := by
  unfold dec
  split_ifs with h0
  · exact List.cons_ne_nil _ _
  · rw [Ne, List.map_eq_nil_iff, List.reverse_eq_nil_iff]
    exact Nat.digits_ne_nil_iff_ne_zero.2 h0

/-- Leading zeros do not count (R13). -/
theorem val10_replicate_append (n : Nat) (d : List Byte) : val10 (List.replicate n 0x30#8 ++ d) = val10 d := by
  induction n with
  | zero => rfl
  | succ n ih => rw [List.replicate_succ, List.cons_append, val10_cons, ih, BitVec.toNat_ofNat]; simp

/-! ### `RENDER` (R90, R186) -/

theorem val10_pad17 (x : Word) : val10 (pad17 x) = x.toNat := by
  rw [pad17, val10_replicate_append, decimal_eq, val10_dec]

theorem isDecimal_of_mem_pad17 {x : Word} {b : Byte} (hb : b ∈ pad17 x) : isDecimal b := by
  rw [pad17, decimal_eq, List.mem_append] at hb
  rcases hb with hzero | hdec
  · rw [List.eq_of_mem_replicate hzero]
    exact ⟨by decide, by decide⟩
  · exact isDecimal_of_mem_dec hdec

/-- Bounded limbs, each written as 17 digits, make the number they hold (R90). -/
theorem val10_flatMap_pad17 {xs : List Word} (hx : limbsBounded xs) : val10 (xs.flatMap pad17) = limbsMsf xs := by
  induction xs with
  | nil => rfl
  | cons x xs ih =>
    obtain ⟨-, htail⟩ := (limbsBounded_cons x xs).1 hx
    rw [List.flatMap_cons, val10_append, val10_pad17, ih htail, flatMap_pad17_length htail, pow_mul, limbsMsf_cons]
    norm_num

/-- The two orders of limbs hold the same number (R33). -/
theorem limbsMsf_reverse (xs : List Word) : limbsMsf xs.reverse = limbsLsf xs := by
  induction xs with
  | nil => rfl
  | cons x xs ih =>
    rw [List.reverse_cons, limbsMsf_append, ih, limbsMsf_cons, limbsLsf, limbsMsf_nil, List.length_singleton,
      List.length_nil]
    ring

theorem renderLimbs_concat (low : List Word) (top : Word) :
    renderLimbs (low ++ [top]) = decimal top ++ low.reverse.flatMap pad17 := by simp [renderLimbs]

theorem lz_append_of_eq_zero {d : List Byte} {c : Byte} (hne : d ≠ []) (h : lz d c = 0) (e : List Byte) :
    lz (d ++ e) c = 0 := by
  obtain ⟨b, d, rfl⟩ := List.exists_cons_of_ne_nil hne
  rw [lz_cons] at h
  rw [List.cons_append, lz_cons, if_neg fun hb => by simp [hb] at h]

/-- Bounded limbs of which none is wasted render to the decimal numeral of the number they hold (R186). -/
theorem renderLimbs_eq {limbs : List Word} (hl : limbsBounded limbs) (ht : limbsTight limbs) :
    renderLimbs limbs = dec (limbsLsf limbs) := by
  rcases limbs.eq_nil_or_concat' with rfl | ⟨low, top, rfl⟩
  · rfl
  have hbounded : limbsBounded low.reverse := fun x hx => hl x (by simp at hx ⊢; exact .inl hx)
  have hlow : val10 (low.reverse.flatMap pad17) = limbsLsf low := by
    rw [val10_flatMap_pad17 hbounded, limbsMsf_reverse]
  have hdigits : ∀ b ∈ low.reverse.flatMap pad17, isDecimal b := fun b hb => by
    obtain ⟨x, -, hx⟩ := List.mem_flatMap.1 hb
    exact isDecimal_of_mem_pad17 hx
  have hpow : 10 ^ (low.reverse.flatMap pad17).length = Config.limbBase ^ low.length := by
    rw [flatMap_pad17_length hbounded, List.length_reverse]
    exact pow_mul 10 17 low.length
  have htop : top.toNat ≠ 0 := by
    intro h0
    have htight := ht (by simp)
    have hlt := val10_lt _ hdigits
    rw [hlow, hpow] at hlt
    rw [limbsLsf_concat, h0, Nat.mul_zero, Nat.add_zero, List.length_append, List.length_singleton,
      Nat.add_sub_cancel] at htight
    exact absurd htight hlt.not_ge
  have hvalue : val10 (renderLimbs (low ++ [top])) = limbsLsf (low ++ [top]) := by
    rw [renderLimbs_concat, val10_append, decimal_eq, val10_dec, hlow, hpow, limbsLsf_concat]
    ring
  rw [← hvalue, renderLimbs_concat, decimal_eq, dec_val10]
  · intro b hb
    exact (List.mem_append.1 hb).elim isDecimal_of_mem_dec (hdigits b)
  · exact List.append_ne_nil_of_left_ne_nil (dec_ne_nil _) _
  · exact lz_append_of_eq_zero (dec_ne_nil _) (lz_dec htop) _

/-! ### `DEC` of symbols (R180, R188) -/

/-- The symbol loop over symbols appends them to the number in the limbs (R184, R185). -/
theorem DecLoop.run_value {rev : Vector (Option (Fin 58)) 256} {r : DecLoop} {d : List Byte} (i : Nat)
    (hd : ∀ b ∈ d, (valueOf rev b).isSome = true) (hl : limbsBounded r.limb) :
    ∃ q, DecLoop.run rev i r (d.map some) = .ok q ∧
      limbsLsf q.limb = limbsLsf r.limb * 58 ^ d.length + val58 rev d := by
  induction d generalizing i r with
  | nil => exact ⟨r, rfl, by simp⟩
  | cons b d ih =>
    obtain ⟨v, hv⟩ := Option.isSome_iff_exists.1 (hd b (by simp))
    have hb : symbolValue rev b = v.val := by simp [symbolValue, hv]
    obtain ⟨q, hq, hvalue⟩ := ih (i + 1) (fun x hx => hd x (by simp [hx])) (DecLoop.absorb_bounds v hl).1
    refine ⟨q, by simpa [DecLoop.run, hv] using hq, ?_⟩
    rw [hvalue, DecLoop.absorb_value v hl, val58_cons, hb, List.length_cons]
    ring

/-- From `DISPATCH` on, `DEC` of a remainder of symbols appends the decimal numeral of their value, on either path
(R213). -/
theorem decDispatch_symbols {s : State} {e : List Byte} (hrem : s.remainder = e.map some)
    (hm : s.scratch.m = e.length) (hd : ∀ b ∈ e, (valueOf s.rev b).isSome = true) :
    ∃ u, decDispatch s = .ok u ∧ State.Wrote s u (dec (val58 s.rev e)) := by
  unfold decDispatch
  split_ifs with hshort
  · have hlt : val58 s.rev e < 2 ^ 64 := calc
      _ < 58 ^ e.length := val58_lt s.rev e
      _ ≤ 58 ^ 10 := Nat.pow_le_pow_right (by decide) (hm ▸ hshort)
      _ < 2 ^ 64 := by norm_num
    obtain ⟨f, hf, hacc, -⟩ := fold58_value s.rev e hd s.scratch.zc
    rw [Nat.mod_eq_of_lt hlt] at hacc
    rw [decFixed, hrem, hf, ← hacc, ← decimal_eq]
    exact ⟨_, rfl, by constructor <;> rfl⟩
  · obtain ⟨q, hq, hvalue⟩ := DecLoop.run_value (r := ⟨[], 0#64, 0#64, none⟩) s.scratch.zc hd limbsBounded_nil
    have hbounded := (DecLoop.run_bounds limbsBounded_nil (by simp) hq).1
    have htight := (DecLoop.run_bound limbsBounded_nil (absurd rfl) hq).1
    have hrender : renderLimbs q.limb = dec (val58 s.rev e) := by
      rw [renderLimbs_eq hbounded htight, hvalue, limbsLsf, Nat.zero_mul, Nat.zero_add]
    rw [decLimbPath, hrem, hq, ← hrender]
    exact ⟨_, rfl, by constructor <;> rfl⟩

/-- How many leading zero-symbols `DEC` counts: never the last byte (R212). -/
def decZeroRun (z : Byte) (d : List Byte) : Nat := min (lz d z) (d.length - 1)

/-- The result of `DEC` on symbols (R188). -/
def decResult (alpha : Vector Byte 58) (rev : Vector (Option (Fin 58)) 256) (d : List Byte) : List Byte :=
  if d = [] then []
  else List.replicate (decZeroRun alpha[(0 : Fin 58)] d) 0x30#8 ++
    dec (val58 rev (d.drop (decZeroRun alpha[(0 : Fin 58)] d)))

/-- The body of `DEC` on symbols appends one `'0'` per counted zero-symbol and then the decimal numeral of the rest. -/
theorem decBody_symbols {b : State} {d : List Byte} (ho : b.operand = d.map some)
    (hd : ∀ x ∈ d, (valueOf b.rev x).isSome = true) :
    ∃ u, decBody b = .ok u ∧ State.Wrote b u (decResult b.alpha b.rev d) := by
  have hlen := State.inLen_of_operand ho
  rw [decBody, decResult]
  by_cases hempty : d = []
  · rw [if_pos (by rw [hlen, hempty, List.length_nil]), if_pos hempty]
    exact ⟨b, rfl, State.Wrote.refl b⟩
  · rw [if_neg (by rw [hlen]; exact mt List.length_eq_zero_iff.1 hempty), if_neg hempty, ho, scanZeroSymbols_eq]
    obtain ⟨u, hu, hw⟩ := decDispatch_symbols
      (s := (b.noteZeroRun (decZeroRun b.zeroSymbol d)).emitAll (List.replicate (decZeroRun b.zeroSymbol d) 0x30#8))
      (e := d.drop (decZeroRun b.zeroSymbol d))
      (by rw [List.map_drop, ← ho]; rfl)
      (by rw [List.length_drop, ← hlen]; rfl)
      fun x hx => hd x (List.mem_of_mem_drop hx)
    exact ⟨u, hu, ((State.noteZeroRun_wrote b _).trans (State.emitAll_wrote _ _)).trans hw⟩

/-- `DEC` of symbols ends without error, with that result, and changes nothing else (R188). -/
theorem execDec_symbols {s : State} {d : List Byte} (hv : s.alphaValid = true) (ho : s.operand = d.map some)
    (hd : ∀ b ∈ d, (valueOf s.rev b).isSome = true) :
    ∃ t, exec .dec s = .next t ∧ t.Succeeded ∧ State.ConversionKept s t ∧
      t.output = (decResult s.alpha s.rev d).map some := by
  obtain ⟨u, hu, hw⟩ := decBody_symbols (b := s.begin .lzscan) ho hd
  exact convert_wrote hv hu (decBody_ok hu).1 hw

end Sys2Proof.Machine
end

section
/-! PROOFS. `DEC` undoes `ENC` (`DecUndoesEnc`, R162). -/

namespace Sys2Proof.Machine

variable {alpha : Vector Byte 58} {rev : Vector (Option (Fin 58)) 256}

/-- `DEC` of zero-symbols alone gives as many `'0'`: it counts all but the last, whose value is 0 (R188). -/
theorem AlphabetOk.decResult_replicate (h : AlphabetOk alpha rev) (z : Nat) :
    decResult alpha rev (List.replicate z alpha[(0 : Fin 58)]) = List.replicate z 0x30#8 := by
  cases z with
  | zero => rfl
  | succ z =>
    have hlz : lz (List.replicate (z + 1) alpha[(0 : Fin 58)]) alpha[(0 : Fin 58)] = z + 1 := by
      simp [lz]
    have hrun : decZeroRun alpha[(0 : Fin 58)] (List.replicate (z + 1) alpha[(0 : Fin 58)]) = z := by
      rw [decZeroRun, hlz, List.length_replicate]
      omega
    rw [decResult, if_neg (by simp), hrun, List.drop_replicate, Nat.add_sub_cancel_left, List.replicate_one,
      val58_singleton, h.symbolValue_symbol, Fin.val_zero, dec_zero, List.replicate_succ']

/-- `DEC` of zero-symbols and the base-58 numeral of a nonzero number gives as many `'0'` and the decimal numeral. -/
theorem AlphabetOk.decResult_replicate_rep58 (h : AlphabetOk alpha rev) (z : Nat) {n : Nat} (hn : n ≠ 0) :
    decResult alpha rev (List.replicate z alpha[(0 : Fin 58)] ++ rep58 alpha n) = List.replicate z 0x30#8 ++ dec n := by
  have hpos : 0 < (rep58 alpha n).length := lt_rep58_length alpha (Nat.one_le_iff_ne_zero.2 hn)
  have hne : List.replicate z alpha[(0 : Fin 58)] ++ rep58 alpha n ≠ [] :=
    List.append_ne_nil_of_right_ne_nil _ (List.length_pos_iff.1 hpos)
  have hrun : decZeroRun alpha[(0 : Fin 58)] (List.replicate z alpha[(0 : Fin 58)] ++ rep58 alpha n) = z := by
    rw [decZeroRun, lz_replicate_append, lz_rep58 h.1, List.length_append, List.length_replicate]
    omega
  rw [decResult, if_neg hne, hrun, List.drop_left' List.length_replicate, h.val58_rep58]

/-- The result of `DEC` on the result of `ENC` is the digit string again: a remainder of digits without a leading `'0'`
is empty or the numeral of a nonzero number. -/
theorem AlphabetOk.decResult_encResult (h : AlphabetOk alpha rev) {d : List Byte} (hd : ∀ b ∈ d, isDecimal b) :
    decResult alpha rev (encResult alpha d) = d := by
  have hsplit := replicate_lz_append_drop d 0x30#8
  by_cases hempty : d.drop (lz d 0x30#8) = []
  · rw [hempty, List.append_nil] at hsplit
    rw [encResult, hempty, val10_nil, rep58_zero, List.append_nil, h.decResult_replicate, hsplit]
  · have hdec : dec (val10 (d.drop (lz d 0x30#8))) = d.drop (lz d 0x30#8) :=
      dec_val10 (fun b hb => hd b (List.mem_of_mem_drop hb)) hempty (lz_drop_lz d _)
    have hn : val10 (d.drop (lz d 0x30#8)) ≠ 0 := by
      intro h0
      have hlz := lz_drop_lz d 0x30#8
      rw [← hdec, h0] at hlz
      exact absurd hlz (by decide)
    rw [encResult, h.decResult_replicate_rep58 _ hn, hdec, hsplit]

/-- The result of `ENC` is symbols (R160). -/
theorem AlphabetOk.isSome_of_mem_encResult (h : AlphabetOk alpha rev) {d : List Byte} {b : Byte}
    (hb : b ∈ encResult alpha d) : (valueOf rev b).isSome = true := by
  obtain ⟨v, rfl⟩ : ∃ v : Fin 58, b = alpha[v] := by
    rcases List.mem_append.1 hb with hzero | hnumeral
    · exact ⟨0, List.eq_of_mem_replicate hzero⟩
    · obtain ⟨q, -, rfl⟩ := List.mem_map.1 hnumeral
      exact ⟨_, rfl⟩
  rw [h.symbol, Option.isSome_some]

/-- Settles O35: `DEC` runs on the result of `ENC`, and `decResult` undoes `encResult`. -/
theorem decUndoesEnc : Obligations.DecUndoesEnc := by
  intro s d hv hok ho hd
  obtain ⟨t, hnext, hsucc, -, hout⟩ := execEnc_digits hv ho hd
  refine ⟨t, hnext, hsucc, fun u hu hop => ?_⟩
  obtain ⟨w, hw, hwsucc, -, hwout⟩ := execDec_symbols (d := encResult s.alpha d) (hu.alphaValid.trans hv)
    (hop.trans hout) fun b hb => hu.rev ▸ hok.isSome_of_mem_encResult hb
  exact ⟨w, hw, hwsucc, by rw [hwout, hu.alpha, hu.rev, hok.decResult_encResult hd, ho]⟩

end Sys2Proof.Machine
end

section
/-! PROOFS. `DEC` and its sweep on their own (`43_radix58_decoder.md`): the decimal numeral as its result
(`DecComputesDecimal`), and the sweep as multiplication by 58 under the invariant that the most significant limb is
nonzero (`MulSweepMultipliesBy58`). -/

namespace Sys2Proof.Machine

/-- Settles O24: the result of `DEC` on symbols, with the empty operand and the others apart. -/
theorem decComputesDecimal : Obligations.DecComputesDecimal := by
  intro s d hv ho hd
  obtain ⟨t, hnext, hsucc, hkept, hout⟩ := execDec_symbols hv ho hd
  refine ⟨t, hnext, hsucc, hkept, fun hempty => ?_, fun hne => ?_⟩
  · rw [hout, decResult, if_pos hempty, List.map_nil]
  · rw [hout, decResult, if_neg hne]
    rfl

/-- Bounded limbs hold less than one more limb would weigh (R33). -/
theorem limbsLsf_lt {limbs : List Word} (hl : limbsBounded limbs) :
    limbsLsf limbs < Config.limbBase ^ limbs.length := by
  induction limbs with
  | nil => exact Nat.one_pos
  | cons x rest ih =>
    obtain ⟨hx, hrest⟩ := (limbsBounded_cons x rest).1 hl
    calc
      limbsLsf (x :: rest) < Config.limbBase + Config.limbBase * limbsLsf rest := Nat.add_lt_add_right hx _
      _ = Config.limbBase * (limbsLsf rest + 1) := by ring
      _ ≤ Config.limbBase * Config.limbBase ^ rest.length := Nat.mul_le_mul_left _ (ih hrest)
      _ = Config.limbBase ^ (x :: rest).length := (pow_succ' _ _).symm

/-- Bounded limbs waste no limb exactly when the most significant one is nonzero (R183). -/
theorem limbsTight_iff {limbs : List Word} (hl : limbsBounded limbs) :
    limbsTight limbs ↔ limbs.getLast? ≠ some 0#64 := by
  rcases limbs.eq_nil_or_concat' with rfl | ⟨low, top, rfl⟩
  · simp [limbsTight]
  have hlow : limbsLsf low < Config.limbBase ^ low.length := limbsLsf_lt ((limbsBounded_append _ _).1 hl).1
  rw [limbsTight, limbsLsf_concat, List.length_append, List.length_singleton, Nat.add_sub_cancel, List.getLast?_concat]
  constructor
  · intro htight hzero
    obtain rfl : top = 0#64 := Option.some.inj hzero
    have hle := htight (List.concat_ne_nil _ _)
    rw [BitVec.toNat_ofNat, Nat.zero_mod, Nat.mul_zero, Nat.add_zero] at hle
    exact absurd hle hlow.not_ge
  · intro htop _
    have hpos : 0 < top.toNat := Nat.pos_of_ne_zero fun h0 =>
      htop (congrArg some (BitVec.eq_of_toNat_eq h0))
    exact (Nat.le_mul_of_pos_right _ hpos).trans (Nat.le_add_left _ _)

/-- Absorbing a symbol adds at most the one limb its final carry fills (R185). -/
theorem DecLoop.absorb_length (r : DecLoop) (v : Fin 58) :
    (r.absorb v).limb.length = r.limb.length ∨ (r.absorb v).limb.length = r.limb.length + 1 := by
  have hlen := sweepMul58_length (BitVec.ofNat 64 v.val) r.y r.limb
  simp only [DecLoop.absorb]
  split_ifs
  · exact .inl hlen
  · exact .inr (by rw [List.length_append, hlen, List.length_singleton])

/-- Settles O26: that no limb is wasted, which the sweep keeps, is that the most significant limb is nonzero. -/
theorem mulSweepMultipliesBy58 : Obligations.MulSweepMultipliesBy58 := by
  intro r v hl htop q
  obtain ⟨hbounded, hcarry⟩ := DecLoop.absorb_bounds v hl
  have htight : limbsTight q.limb := DecLoop.absorb_tight v hl ((limbsTight_iff hl).2 htop)
  exact ⟨hbounded, (limbsTight_iff hbounded).1 htight, DecLoop.absorb_value v hl, hcarry, r.absorb_length v⟩

end Sys2Proof.Machine
end

section
/-! PROOFS. `ENC` undoes `DEC` (`EncUndoesDec`, R190). -/

namespace Sys2Proof.Machine

/-! ### Symbol strings as base-58 numerals (R13) -/

section
variable {alpha : Vector Byte 58} {rev : Vector (Option (Fin 58)) 256} (h : AlphabetOk alpha rev)
include h

/-- The symbol of a symbol's value is that symbol again (R111). -/
theorem AlphabetOk.symbol_symbolValue {b : Byte} (hb : (valueOf rev b).isSome = true) :
    alpha[Fin.ofNat 58 (symbolValue rev b)] = b := by
  obtain ⟨v, hv⟩ := Option.isSome_iff_exists.1 hb
  have hidx : Fin.ofNat 58 (symbolValue rev b) = v := by rw [symbolValue, hv, Fin.ofNat_val_eq_self]
  exact (congrArg (fun v : Fin 58 => alpha[v]) hidx).trans ((h.2 b v).1 hv)

/-- A string of symbols lists the symbols of its values. -/
theorem AlphabetOk.map_symbol_symbolValue {e : List Byte} (he : ∀ b ∈ e, (valueOf rev b).isSome = true) :
    (e.map (symbolValue rev)).map (fun q => alpha[Fin.ofNat 58 q]) = e := by
  rw [List.map_map]
  exact (List.map_congr_left fun b hb => h.symbol_symbolValue (he b hb)).trans (List.map_id e)

/-- `rep58` undoes `val58` on a string of symbols with no leading zero-symbol (R13). -/
theorem AlphabetOk.rep58_val58 {e : List Byte} (he : ∀ b ∈ e, (valueOf rev b).isSome = true)
    (hlz : lz e alpha[(0 : Fin 58)] = 0) : rep58 alpha (val58 rev e) = e := by
  have hlt : ∀ q ∈ (e.map (symbolValue rev)).reverse, q < 58 := fun q hq => by
    obtain ⟨b, -, rfl⟩ := List.mem_map.1 (List.mem_reverse.1 hq)
    exact symbolValue_lt rev b
  have hval : val58 rev e = Nat.ofDigits 58 (e.map (symbolValue rev)).reverse := by
    rw [← h.val58_digits _ hlt, List.reverse_reverse, h.map_symbol_symbolValue he]
  have htop : ∀ hne, (e.map (symbolValue rev)).reverse.getLast hne ≠ 0 := by
    intro hne h0
    rw [List.getLast_reverse] at h0
    have hcons : e ≠ [] := fun hnil => hne (by rw [hnil]; rfl)
    obtain ⟨b, e, rfl⟩ := List.exists_cons_of_ne_nil hcons
    have hb : alpha[(0 : Fin 58)] = b :=
      (congrArg (fun q => alpha[Fin.ofNat 58 q]) h0).symm.trans (h.symbol_symbolValue (he b (by simp)))
    rw [lz_cons, if_pos hb.symm] at hlz
    exact Nat.succ_ne_zero _ hlz
  rw [rep58, hval, Nat.digits_ofDigits 58 (by decide) _ hlt htop, List.reverse_reverse, h.map_symbol_symbolValue he]

end

/-! ### The result of `ENC` on the result of `DEC` (R190) -/

/-- The result of `DEC` is digits (R188). -/
theorem isDecimal_of_mem_decResult {alpha : Vector Byte 58} {rev : Vector (Option (Fin 58)) 256} {d : List Byte}
    {b : Byte} (hb : b ∈ decResult alpha rev d) : isDecimal b := by
  unfold decResult at hb
  split_ifs at hb
  · exact absurd hb List.not_mem_nil
  · rcases List.mem_append.1 hb with hzero | hdec
    · rw [List.eq_of_mem_replicate hzero]
      exact ⟨by decide, by decide⟩
    · exact isDecimal_of_mem_dec hdec

/-- Each `'0'` put in front of a digit string puts a zero-symbol in front of the result of `ENC` (R159). -/
theorem encResult_replicate_append (alpha : Vector Byte 58) (z : Nat) (d : List Byte) :
    encResult alpha (List.replicate z 0x30#8 ++ d) =
      List.replicate z alpha[(0 : Fin 58)] ++ encResult alpha d := by
  rw [encResult, encResult, lz_replicate_append, List.replicate_add, List.append_assoc, ← List.drop_drop,
    List.drop_left' List.length_replicate]

/-- `ENC` of `'0'` alone gives as many zero-symbols (R160). -/
theorem encResult_replicate (alpha : Vector Byte 58) (z : Nat) :
    encResult alpha (List.replicate z 0x30#8) = List.replicate z alpha[(0 : Fin 58)] := by
  have hnil : encResult alpha [] = [] := rep58_zero alpha
  have hsplit := encResult_replicate_append alpha z []
  rwa [hnil, List.append_nil, List.append_nil] at hsplit

/-- A symbol string that is not zero-symbols alone: `DEC` counts all its leading zero-symbols (R212). -/
theorem decZeroRun_eq_lz {z : Byte} {d : List Byte} (h : d.drop (lz d z) ≠ []) : decZeroRun z d = lz d z := by
  have hlt : lz d z < d.length := Nat.lt_of_not_le (mt List.drop_eq_nil_iff.2 h)
  rw [decZeroRun]
  omega

/-- The result of `ENC` on the result of `DEC` is the symbol string again: a remainder of symbols without a leading
zero-symbol is empty or the numeral of a nonzero number. -/
theorem AlphabetOk.encResult_decResult {alpha : Vector Byte 58} {rev : Vector (Option (Fin 58)) 256}
    (h : AlphabetOk alpha rev) {d : List Byte} (hd : ∀ b ∈ d, (valueOf rev b).isSome = true) :
    encResult alpha (decResult alpha rev d) = d := by
  have hsplit := replicate_lz_append_drop d alpha[(0 : Fin 58)]
  by_cases hrest : d.drop (lz d alpha[(0 : Fin 58)]) = []
  · rw [hrest, List.append_nil] at hsplit
    rw [← hsplit, h.decResult_replicate, encResult_replicate]
  · have hrep := h.rep58_val58 (fun b hb => hd b (List.mem_of_mem_drop hb)) (lz_drop_lz d _)
    have hn : val58 rev (d.drop (lz d alpha[(0 : Fin 58)])) ≠ 0 := fun h0 => by
      rw [h0, rep58_zero] at hrep
      exact hrest hrep.symm
    have hdec := encResult_dec alpha (val58 rev (d.drop (lz d alpha[(0 : Fin 58)])))
    rw [numeral58, if_neg hn, hrep] at hdec
    have hne : d ≠ [] := fun hnil => hrest (by rw [hnil, List.drop_nil])
    rw [decResult, if_neg hne, decZeroRun_eq_lz hrest, encResult_replicate_append, encResult, hdec, hsplit]

/-- Settles O36: `ENC` runs on the result of `DEC`, and `encResult` undoes `decResult`. -/
theorem encUndoesDec : Obligations.EncUndoesDec := by
  intro s d hv hok ho hd
  obtain ⟨t, hnext, hsucc, -, hout⟩ := execDec_symbols hv ho hd
  refine ⟨t, hnext, hsucc, fun u hu hop => ?_⟩
  obtain ⟨w, hw, hwsucc, -, hwout⟩ := execEnc_digits (d := decResult s.alpha s.rev d) (hu.alphaValid.trans hv)
    (hop.trans hout) fun _ hb => isDecimal_of_mem_decResult hb
  exact ⟨w, hw, hwsucc, by rw [hwout, ← encResult, hu.alpha, hok.encResult_decResult hd, ho]⟩

end Sys2Proof.Machine
end

section
/-! PROOFS. The dispatch by remainder length (`44_leading_zero_dispatch.md`): what each path of `ENC` and of `DEC` does
with a remainder of any length, which path is taken and what it leaves in the registers (`EncPathByRemainderLength`,
`DecPathByRemainderLength`), and that below the thresholds the paths write the same bytes
(`PathsAgreeBelowThreshold`). -/

namespace Sys2Proof.Machine

/-! ### The paths taken (R213) -/

theorem encDispatch_eq_encFixed {s : State} (hpos : 1 ≤ s.scratch.m) (hshort : s.scratch.m ≤ 19) :
    encDispatch s = encFixed s := by
  rw [encDispatch, if_neg (Nat.one_le_iff_ne_zero.1 hpos), if_pos hshort]

theorem encDispatch_eq_encLimbPath {s : State} (hlong : 20 ≤ s.scratch.m) : encDispatch s = encLimbPath s := by
  rw [encDispatch, if_neg (by omega), if_neg (Nat.not_le.2 hlong)]

theorem decDispatch_eq_decFixed {s : State} (hshort : s.scratch.m ≤ 10) : decDispatch s = decFixed s := if_pos hshort

theorem decDispatch_eq_decLimbPath {s : State} (hlong : 11 ≤ s.scratch.m) : decDispatch s = decLimbPath s :=
  if_neg (Nat.not_le.2 hlong)

/-- The bytes two paths append to the same `OUT` decide what it holds then (R57). -/
theorem State.Wrote.same_output {s t u : State} {bytes : List Byte} (ht : State.Wrote s t bytes)
    (hu : State.Wrote s u bytes) : u.outLen = t.outLen ∧ u.outMem = t.outMem :=
  ⟨hu.outLen.trans ht.outLen.symm, hu.outMem.trans ht.outMem.symm⟩

/-- The remainder of an operand all of whose bytes are there (R211, R212). -/
theorem State.remainder_of_operand {s : State} {d : List Byte} (ho : s.operand = d.map some) :
    s.remainder = (d.drop s.scratch.zc).map some := by
  rw [State.remainder, ho, List.map_drop]

/-! ### The encoder's loop (R153 to R157) -/

/-- `CARRY` is the last digit emitted (R157). -/
theorem EncLoop.run_emitted_getLast? (passes : Nat) {r : EncLoop}
    (h : r.emitted ≠ [] → r.emitted.getLast? = some r.carry) :
    (EncLoop.run passes r).emitted ≠ [] →
      (EncLoop.run passes r).emitted.getLast? = some (EncLoop.run passes r).carry := by
  induction passes generalizing r with
  | zero => exact h
  | succ passes ih =>
    rw [EncLoop.run]
    split_ifs
    · exact ih fun _ => List.getLast?_concat
    · exact h

section
variable {s : State} {n : Nat} (h : s.encLoop.Holds n) (hn : n < 58 ^ s.scratch.m)
include h hn

/-- The limb path ends with every limb divided down to 0 (R153). -/
theorem State.divideOut_limb : s.divideOut.scratch.limb = List.replicate s.scratch.limb.length 0#64 :=
  List.eq_replicate_iff.2 ⟨(EncLoop.run_bounds (r := s.encLoop) s.scratch.m h.bounded (Nat.zero_le _)).1,
    (limbsMsf_eq_zero_iff _).1 (h.run hn).1.value⟩

/-- On a nonzero number the limb path ends with the leading base-58 digit in `CARRY`, which is not 0 (R235). -/
theorem State.divideOut_carry (h0 : n ≠ 0) :
    1 ≤ s.divideOut.scratch.carry.toNat ∧ s.divideOut.scratch.carry.toNat ≤ 57 := by
  have hdigits : (EncLoop.run s.scratch.m s.encLoop).emitted.map BitVec.toNat = Nat.digits 58 n := (h.run hn).2
  have hne : Nat.digits 58 n ≠ [] := Nat.digits_ne_nil_iff_ne_zero.2 h0
  have hcarry := EncLoop.run_emitted_getLast? s.scratch.m (r := s.encLoop) (absurd rfl)
    (List.map_eq_nil_iff.not.1 (hdigits ▸ hne))
  have hlast : (Nat.digits 58 n).getLast? = some s.divideOut.scratch.carry.toNat := by
    rw [← hdigits, List.getLast?_map, hcarry]
    rfl
  have htop : (Nat.digits 58 n).getLast hne = s.divideOut.scratch.carry.toNat :=
    Option.some.inj ((List.getLast?_eq_some_getLast hne).symm.trans hlast)
  exact ⟨Nat.one_le_iff_ne_zero.2 (htop ▸ Nat.getLast_digit_ne_zero 58 h0),
    (EncLoop.run_bounds (r := s.encLoop) s.scratch.m h.bounded (Nat.zero_le _)).2.2⟩

end

/-! ### From the start of a conversion to its dispatch (R211, R212) -/

/-- The block when a conversion that counted `zc` leading zeros comes to its dispatch: one byte `c` is written for each
(R159, R188). -/
def State.scanned (s : State) (zc : Nat) (c : Byte) : State :=
  ((s.begin .lzscan).noteZeroRun zc).emitAll (List.replicate zc c)

section
variable {s u : State} {d : List Byte} (ho : s.operand = d.map some)
include ho

theorem State.scanned_remainder (zc : Nat) (c : Byte) : (s.scanned zc c).remainder = (d.drop zc).map some :=
  State.remainder_of_operand (s := s.scanned zc c) ho

theorem State.scanned_m (zc : Nat) (c : Byte) : (s.scanned zc c).scratch.m = (d.drop zc).length := by
  rw [List.length_drop, ← State.inLen_of_operand ho]
  rfl

/-- `ENC` ends as its dispatch does (R150). -/
theorem execEnc_of_dispatch (hv : s.alphaValid = true)
    (h : encDispatch (s.scanned (lz d 0x30#8) s.zeroSymbol) = .ok u) : exec .enc s = .next u.endOperation := by
  rw [exec_enc, convert_alphabet _ _ hv, (encBody_eq_dispatch (b := s.begin .lzscan) ho).trans h, settle_ok]

/-- `DEC` of a nonempty operand ends as its dispatch does (R180). -/
theorem execDec_of_dispatch (hv : s.alphaValid = true) (hne : d ≠ [])
    (h : decDispatch (s.scanned (decZeroRun s.zeroSymbol d) 0x30#8) = .ok u) :
    exec .dec s = .next u.endOperation := by
  have hbody : decBody (s.begin .lzscan) = .ok u := by
    rw [decBody, State.begin_inLen, State.inLen_of_operand ho, if_neg (mt List.length_eq_zero_iff.1 hne),
      State.begin_operand, ho, scanZeroSymbols_eq]
    exact h
  rw [exec_dec, convert_alphabet _ _ hv, hbody, settle_ok]

end

/-! ### `ENC` of digits (R152, R213) -/

/-- A digit string that does not begin with `'0'` makes a nonzero number (R13). -/
theorem val10_ne_zero {e : List Byte} (hd : ∀ b ∈ e, isDecimal b) (hne : e ≠ []) (hlz : lz e 0x30#8 = 0) :
    val10 e ≠ 0 := by
  intro h0
  rw [← dec_val10 hd hne hlz, h0] at hlz
  exact absurd hlz (by decide)

/-- The chunks of a nonempty remainder of any length end where it ends (R53). -/
theorem chunkStart_chunkCount_of_pos (zc : Nat) {m : Nat} (hm : 1 ≤ m) :
    chunkStart zc (firstChunkLen m) (chunkCount m) = zc + m := by
  rw [chunkStart, if_neg (by unfold chunkCount; omega)]
  unfold firstChunkLen chunkCount
  omega

/-- With the limbs just loaded the encoder's loop begins with the number they hold (R153). -/
theorem State.loadLimbs_holds (s : State) {limbs : List Word} (hl : limbsBounded limbs) :
    (s.loadLimbs limbs).encLoop.Holds (limbsMsf limbs) := ⟨hl, Nat.zero_le _, rfl, rfl⟩

/-- The fixed-width path of `ENC` writes no register but `K` and `ACC` (R151). -/
theorem encFixed_scratch {s u : State} (h : encFixed s = .ok u) :
    u.scratch = { s.scratch with k := s.scratch.m - 1, acc := 0#64 } := by
  unfold encFixed at h
  split at h
  · simp at h
  · cases h; rfl

/-- The limb path of `ENC` loads the parsed chunks and divides them out (R150). -/
theorem encLimbPath_ok {s u : State} (h : encLimbPath s = .ok u) :
    ∃ limbs, u = (s.loadLimbs limbs).divideOut := by
  unfold encLimbPath at h
  split at h
  · simp at h
  · rename_i limbs _
    cases h
    exact ⟨limbs, rfl⟩

/-- `ENC` writes `ZC` and `M` in its zero scan only (R211). -/
theorem encDispatch_zc_m {s u : State} (h : encDispatch s = .ok u) :
    u.scratch.zc = s.scratch.zc ∧ u.scratch.m = s.scratch.m := by
  unfold encDispatch at h
  split_ifs at h
  · cases h; exact ⟨rfl, rfl⟩
  · rw [encFixed_scratch h]; exact ⟨rfl, rfl⟩
  · obtain ⟨limbs, rfl⟩ := encLimbPath_ok h
    exact ⟨rfl, rfl⟩

/-- On a remainder of at most 19 digits `ENC` uses no limb (R151). -/
theorem encDispatch_short_limbs {s u : State} (hshort : s.scratch.m ≤ 19) (h : encDispatch s = .ok u) :
    u.scratch.nl = s.scratch.nl ∧ u.scratch.limb = s.scratch.limb := by
  rcases Nat.eq_zero_or_pos s.scratch.m with h0 | hpos
  · rw [encDispatch, if_pos h0] at h
    cases h
    exact ⟨rfl, rfl⟩
  · rw [encDispatch_eq_encFixed hpos hshort] at h
    rw [encFixed_scratch h]
    exact ⟨rfl, rfl⟩

section
variable {s : State} {e : List Byte} (hrem : s.remainder = e.map some) (hm : s.scratch.m = e.length)
  (hd : ∀ b ∈ e, isDecimal b)
include hrem hm hd

/-- The limb path of `ENC` on a nonempty remainder of digits loads one bounded limb per chunk; together they hold the
value of the remainder, which `M` passes of the loop divide down to 0 (R152, R161). -/
theorem encLimbPath_digits (hpos : 1 ≤ s.scratch.m) :
    ∃ limbs, encLimbPath s = .ok (s.loadLimbs limbs).divideOut ∧ limbs.length = chunkCount s.scratch.m ∧
      (s.loadLimbs limbs).encLoop.Holds (val10 e) ∧ val10 e < 58 ^ s.scratch.m := by
  obtain ⟨limbs, hparse, hmsf⟩ := parseChunks_digits (j := 0) (n := chunkCount s.scratch.m) (firstChunkLen_le _) hrem hd
    (by rw [Nat.zero_add, chunkStart_chunkCount_of_pos _ hpos, hm]; rfl)
  obtain ⟨hcount, hbounded⟩ := parseChunks_bounds (firstChunkLen_le _) hparse
  have hlt : val10 e < 58 ^ s.scratch.m := hm ▸ (val10_lt e hd).trans_le (Nat.pow_le_pow_left (by decide) _)
  exact ⟨limbs, by rw [encLimbPath, hparse], hcount, hmsf ▸ s.loadLimbs_holds hbounded, hlt⟩

/-- The limb path of `ENC` appends the base-58 numeral of a nonempty remainder of digits of any length (R214). -/
theorem encLimbPath_wrote (hpos : 1 ≤ s.scratch.m) :
    ∃ u, encLimbPath s = .ok u ∧ State.Wrote s u (rep58 s.alpha (val10 e)) := by
  obtain ⟨limbs, hpath, -, hholds, hlt⟩ := encLimbPath_digits hrem hm hd hpos
  have hvalue : limbsMsf limbs = val10 e := hholds.value
  rw [← hvalue] at hlt ⊢
  exact ⟨_, hpath, (s.loadLimbs_wrote limbs).trans (State.divideOut_wrote_numeral hholds.bounded rfl hlt)⟩

/-- What the limb path of `ENC` leaves in the registers of R152 and R153, for a remainder that does not begin with `'0'`:
its value is not 0, the loop divides it down to 0, and the last digit emitted is its leading base-58 digit. -/
theorem encDispatch_long_registers {u : State} (hlong : 20 ≤ s.scratch.m) (hlz : lz e 0x30#8 = 0)
    (h : encDispatch s = .ok u) :
    u.scratch.nl = chunkCount s.scratch.m ∧ u.scratch.flen.toNat = firstChunkLen s.scratch.m ∧
      u.scratch.limb = List.replicate (chunkCount s.scratch.m) 0#64 ∧
      1 ≤ u.scratch.carry.toNat ∧ u.scratch.carry.toNat ≤ 57 := by
  obtain ⟨limbs, hpath, hcount, hholds, hlt⟩ := encLimbPath_digits hrem hm hd (by omega)
  rw [encDispatch_eq_encLimbPath hlong, hpath] at h
  obtain rfl := Except.ok.inj h
  have hne : e ≠ [] := List.length_pos_iff.1 (by omega)
  exact ⟨rfl, flen_toNat _, hcount ▸ State.divideOut_limb hholds hlt,
    State.divideOut_carry hholds hlt (val10_ne_zero hd hne hlz)⟩

end

/-- Settles O19: the zero scan writes `ZC` and `M`, and leaves a remainder that does not begin with `'0'` to the path
its length chooses. -/
theorem encPathByRemainderLength : Obligations.EncPathByRemainderLength := by
  intro s d hv ho hd
  have hrem := State.scanned_remainder ho (lz d 0x30#8) s.zeroSymbol
  have hm := State.scanned_m ho (lz d 0x30#8) s.zeroSymbol
  have hdigits : ∀ b ∈ d.drop (lz d 0x30#8), isDecimal b := fun b hb => hd b (List.mem_of_mem_drop hb)
  obtain ⟨u, hu, -⟩ := encDispatch_digits hrem hm hdigits
  obtain ⟨hzc, hmu⟩ := encDispatch_zc_m hu
  refine ⟨u.endOperation, execEnc_of_dispatch ho hv hu, ?_⟩
  rw [State.endOperation_scratch]
  refine ⟨hzc, (hmu.trans hm).trans List.length_drop,
    fun hshort => encDispatch_short_limbs (hmu.symm.trans_le hshort) hu, fun hlong => ?_⟩
  obtain ⟨hnl, hflen, hlimb, hcarry⟩ :=
    encDispatch_long_registers hrem hm hdigits (hlong.trans_eq hmu) (lz_drop_lz d _) hu
  rw [← hmu] at hnl hflen hlimb
  rw [← hnl] at hlimb
  exact ⟨hnl, by rw [hflen, hnl, firstChunkLen], hlimb, hcarry⟩

/-! ### The decoder's loop (R183 to R185) -/

/-- `V` is the value of the last symbol the loop absorbed (R184). -/
theorem DecLoop.run_v {rev : Vector (Option (Fin 58)) 256} {r q : DecLoop} {d : List Byte} {i : Nat}
    (hd : ∀ b ∈ d, (valueOf rev b).isSome = true) (hne : d ≠ []) (h : DecLoop.run rev i r (d.map some) = .ok q) :
    q.v = d.getLast?.bind (valueOf rev) := by
  obtain ⟨front, b, rfl⟩ := d.eq_nil_or_concat'.resolve_left hne
  obtain ⟨v, hv⟩ := Option.isSome_iff_exists.1 (hd b (by simp))
  rw [List.map_append, DecLoop.run_symbols rev front fun x hx => hd x (by simp [hx])] at h
  simp only [List.map_singleton, DecLoop.run, hv, Except.ok.injEq] at h
  rw [← h, List.getLast?_concat, Option.bind_some, hv]
  rfl

/-- The registers with which the decoder's symbol loop begins (R183). -/
def DecLoop.start : DecLoop := { limb := [], carry := 0#64, y := 0#64, v := none }

/-- From no limb, the symbol loop makes bounded limbs, none of them wasted, that hold the value of the symbols (R183). -/
theorem DecLoop.run_start {rev : Vector (Option (Fin 58)) 256} {e : List Byte} (i : Nat)
    (hd : ∀ b ∈ e, (valueOf rev b).isSome = true) :
    ∃ q, DecLoop.run rev i DecLoop.start (e.map some) = .ok q ∧ limbsBounded q.limb ∧ limbsTight q.limb ∧
      limbsLsf q.limb = val58 rev e := by
  obtain ⟨q, hq, hvalue⟩ := DecLoop.run_value (r := DecLoop.start) i hd limbsBounded_nil
  exact ⟨q, hq, (DecLoop.run_bounds limbsBounded_nil (Nat.zero_le _) hq).1,
    (DecLoop.run_bound limbsBounded_nil (absurd rfl) hq).1, by simpa [DecLoop.start, limbsLsf] using hvalue⟩

/-! ### `DEC` of symbols (R183, R213) -/

/-- The fixed-width path of `DEC` writes no register but `V`, `I` and `ACC`, and `V` as the fold does (R187). -/
theorem decFixed_scratch {s u : State} (h : decFixed s = .ok u) :
    ∃ f, fold58 s.rev s.scratch.zc { acc := 0#64, v := none } s.remainder = .ok f ∧
      u.scratch = { s.scratch with v := f.v, i := s.inLen - 1, acc := 0#64 } := by
  unfold decFixed at h
  split at h
  · simp at h
  · rename_i f hf
    cases h
    exact ⟨f, hf, rfl⟩

/-- The limb path of `DEC` keeps the registers of its symbol loop (R183). -/
theorem decLimbPath_scratch {s u : State} (h : decLimbPath s = .ok u) :
    ∃ q, DecLoop.run s.rev s.scratch.zc DecLoop.start s.remainder = .ok q ∧
      u.scratch = { s.scratch with limb := q.limb, nl := q.limb.length, carry := q.carry, y := q.y, v := q.v,
                                   i := s.inLen - 1, j := 0 } := by
  unfold decLimbPath at h
  split at h
  · simp at h
  · rename_i q hq
    cases h
    exact ⟨q, hq, rfl⟩

/-- On a remainder of at most 10 symbols `DEC` uses no limb (R187). -/
theorem decDispatch_short_limbs {s u : State} (hshort : s.scratch.m ≤ 10) (h : decDispatch s = .ok u) :
    u.scratch.nl = s.scratch.nl ∧ u.scratch.limb = s.scratch.limb := by
  obtain ⟨f, -, hscratch⟩ := decFixed_scratch ((decDispatch_eq_decFixed hshort).symm.trans h)
  rw [hscratch]
  exact ⟨rfl, rfl⟩

section
variable {s u : State} {e : List Byte} (hrem : s.remainder = e.map some)
  (hd : ∀ b ∈ e, (valueOf s.rev b).isSome = true)
include hrem hd

/-- Either path of `DEC` keeps `ZC` and `M`, and leaves the value of the last symbol in `V` (R133, R184). -/
theorem decDispatch_zc_m_v (hne : e ≠ []) (h : decDispatch s = .ok u) :
    u.scratch.zc = s.scratch.zc ∧ u.scratch.m = s.scratch.m ∧ u.scratch.v = e.getLast?.bind (valueOf s.rev) := by
  unfold decDispatch at h
  split_ifs at h
  · obtain ⟨f, hf, hscratch⟩ := decFixed_scratch h
    obtain ⟨g, hg, -, hv⟩ := fold58_value s.rev e hd s.scratch.zc
    rw [hrem, hg] at hf
    obtain rfl := Except.ok.inj hf
    rw [hscratch]
    exact ⟨rfl, rfl, hv⟩
  · obtain ⟨q, hq, hscratch⟩ := decLimbPath_scratch h
    rw [hrem] at hq
    rw [hscratch]
    exact ⟨rfl, rfl, DecLoop.run_v hd hne hq⟩

/-- The limbs the limb path of `DEC` ends with (R183). -/
theorem decDispatch_long_limbs (hlong : 11 ≤ s.scratch.m) (h : decDispatch s = .ok u) :
    u.scratch.nl = u.scratch.limb.length ∧ limbsBounded u.scratch.limb ∧
      u.scratch.limb.getLast? ≠ some 0#64 ∧ limbsLsf u.scratch.limb = val58 s.rev e := by
  obtain ⟨q, hq, hscratch⟩ := decLimbPath_scratch ((decDispatch_eq_decLimbPath hlong).symm.trans h)
  obtain ⟨p, hp, hbounded, htight, hvalue⟩ := DecLoop.run_start s.scratch.zc hd
  rw [hrem, hp] at hq
  obtain rfl := Except.ok.inj hq
  rw [hscratch]
  exact ⟨rfl, hbounded, (limbsTight_iff hbounded).1 htight, hvalue⟩

/-- The limb path of `DEC` appends the decimal numeral of a remainder of symbols of any length (R214). -/
theorem decLimbPath_wrote : ∃ u, decLimbPath s = .ok u ∧ State.Wrote s u (dec (val58 s.rev e)) := by
  obtain ⟨q, hq, hbounded, htight, hvalue⟩ := DecLoop.run_start s.scratch.zc hd
  rw [DecLoop.start] at hq
  rw [decLimbPath, hrem, hq, ← hvalue, ← renderLimbs_eq hbounded htight]
  exact ⟨_, rfl, by constructor <;> rfl⟩

end

/-- `DEC` never counts the last byte, so a nonempty operand leaves a remainder (R212). -/
theorem decZeroRun_lt (z : Byte) {d : List Byte} (hne : d ≠ []) : decZeroRun z d < d.length := by
  have hpos := List.length_pos_iff.2 hne
  rw [decZeroRun]
  omega

/-- Settles O25: the remainder is not empty, so it ends with the operand's last symbol, and its length chooses the
path. -/
theorem decPathByRemainderLength : Obligations.DecPathByRemainderLength := by
  intro s d hv hne ho hd
  have hrem := State.scanned_remainder ho (decZeroRun s.zeroSymbol d) 0x30#8
  have hm := State.scanned_m ho (decZeroRun s.zeroSymbol d) 0x30#8
  have hsymbols : ∀ b ∈ d.drop (decZeroRun s.zeroSymbol d), (valueOf s.rev b).isSome = true :=
    fun b hb => hd b (List.mem_of_mem_drop hb)
  have hlt := decZeroRun_lt s.zeroSymbol hne
  have hlast : (d.drop (decZeroRun s.zeroSymbol d)).getLast? = d.getLast? := by
    rw [List.getLast?_drop, if_neg hlt.not_ge]
  obtain ⟨u, hu, -⟩ := decDispatch_symbols hrem hm hsymbols
  obtain ⟨hzc, hmu, hvu⟩ := decDispatch_zc_m_v hrem hsymbols (mt List.drop_eq_nil_iff.1 hlt.not_ge) hu
  have hlimbs (hlong) := decDispatch_long_limbs hrem hsymbols hlong hu
  refine ⟨u.endOperation, execDec_of_dispatch ho hv hne hu, ?_⟩
  rw [State.endOperation_scratch]
  exact ⟨hzc, (hmu.trans hm).trans List.length_drop, hlast ▸ hvu,
    fun hshort => decDispatch_short_limbs (hmu.symm.trans_le hshort) hu,
    fun hlong => hlimbs (hlong.trans_eq hmu)⟩

/-! ### The paths agree (R139, R214) -/

/-- Settles O28: either path of `ENC` appends the base-58 numeral of the remainder, and either path of `DEC` its decimal
numeral. -/
theorem pathsAgreeBelowThreshold : Obligations.PathsAgreeBelowThreshold := by
  intro s d ho hlen
  have hrem := State.remainder_of_operand ho
  have hm : s.scratch.m = (d.drop s.scratch.zc).length := by rw [List.length_drop, ← hlen, Nat.add_sub_cancel_left]
  refine ⟨fun hpos hshort hd => ?_, fun hshort hd => ?_⟩
  · obtain ⟨t, ht, htw⟩ := encDispatch_digits hrem hm hd
    obtain ⟨u, hu, huw⟩ := encLimbPath_wrote hrem hm hd hpos
    exact ⟨t, u, (encDispatch_eq_encFixed hpos hshort).symm.trans ht, hu, htw.same_output huw⟩
  · obtain ⟨t, ht, htw⟩ := decDispatch_symbols hrem hm hd
    obtain ⟨u, hu, huw⟩ := decLimbPath_wrote hrem hd
    exact ⟨t, u, (decDispatch_eq_decFixed hshort).symm.trans ht, hu, htw.same_output huw⟩

end Sys2Proof.Machine
end

section
/-! PROOFS. The `fold58` law modulo `2^64` (`45_arithmetic_laws.md`): far symbols are shifted out of `DECU64`'s result
(`Decu64ForgetsFarSymbols`). -/

namespace Sys2Proof.Machine

/-- `58 = 2 * 29`, so 64 further symbols shift a symbol's value to a multiple of `2^64` (R237). -/
theorem two_pow_dvd_radix_pow {k : Nat} (hk : 64 ≤ k) : 2 ^ 64 ∣ 58 ^ k :=
  (pow_dvd_pow_of_dvd (by decide : 2 ∣ 58) 64).trans (pow_dvd_pow 58 hk)

theorem val58_append_mod (rev : Vector (Option (Fin 58)) 256) (d : List Byte) {e : List Byte} (he : 64 ≤ e.length) :
    val58 rev (d ++ e) % 2 ^ 64 = val58 rev e % 2 ^ 64 := by
  have hfar : 2 ^ 64 ∣ val58 rev d * 58 ^ e.length := (two_pow_dvd_radix_pow he).mul_left _
  rw [val58_append, Nat.add_mod, Nat.mod_eq_zero_of_dvd hfar, Nat.zero_add, Nat.mod_mod]

/-- Settles O33: both operands fold to their value modulo `2^64`, and the symbols of `d` add a multiple of `2^64`. -/
theorem decu64ForgetsFarSymbols : Obligations.Decu64ForgetsFarSymbols := by
  intro s u d e hv hu he hos hou hd
  have hsymbols : ∀ b ∈ e, (valueOf u.rev b).isSome = true := fun b hb => hu.rev ▸ hd b (List.mem_append_right d hb)
  obtain ⟨t, ht, -, htop⟩ := execDecu64_symbols hv hos hd
  obtain ⟨w, hw, -, hwop⟩ := execDecu64_symbols (hu.alphaValid.trans hv) hou hsymbols
  refine ⟨t, w, ht, hw, BitVec.eq_of_toNat_eq ?_⟩
  rw [htop, hwop, hu.rev, val58_append_mod s.rev d he]

end Sys2Proof.Machine
end

section
/-! PROOFS. Errors (`60_exceptions.md`): what a conversion without an alphabet does, which operation can end with which
error and what it then leaves behind, and that `DEC` and `DECU64` report the leftmost absent symbol. -/

namespace Sys2Proof.Machine

/-! ### No alphabet (R254) -/

/-- A conversion without an alphabet reports it and leaves all else alone, whatever its body is (R254). -/
theorem convert_fails_no_alphabet {s : State} (hv : s.alphaValid = false) (ph : Phase)
    (body : State → Except Stop State) :
    ∃ t, convert ph body s = .next t ∧ t.FailedWith .configError 4#8 0#8 0 0 ∧ State.ConversionKept s t :=
  ⟨_, convert_no_alphabet ph body hv, State.raise_failedWith _ .noAlphabet, State.raise_conversionKept s ph _⟩

/-- Settles O44: each of the four conversions tests `ALPHA_VALID` before its body runs. -/
theorem conversionsNeedAlphabet : Obligations.ConversionsNeedAlphabet := by
  rintro i s (rfl | rfl | rfl | rfl) hv
  · exact convert_fails_no_alphabet hv .lzscan encBody
  · exact convert_fails_no_alphabet hv .lzscan decBody
  · exact convert_fails_no_alphabet hv .fixed encu64Body
  · exact convert_fails_no_alphabet hv .fixed decu64Body

/-! ### Which operation can end with which error (R250 to R254, R258) -/

/-- What must hold of the operation and of the block for this error to be raised (R251 to R254). -/
def CodecError.RaisedBy (i : Instr) (s : State) : CodecError → Prop
  | .invalidDigit _ _ => i = .enc
  | .invalidSymbol b _ => (i = .dec ∨ i = .decu64) ∧ some b ∈ s.operand ∧ valueOf s.rev b = none
  | .unknownName => i = .alphasel .other
  | .wrongCount _ | .duplicate _ _ => i = .alphaload
  | .noAlphabet => (i = .enc ∨ i = .dec ∨ i = .encu64 ∨ i = .decu64) ∧ s.alphaValid = false

/-- The block after the operation `i`, begun in `s`, raised an error that it can raise. -/
def State.RaisedFrom (i : Instr) (s t : State) : Prop := ∃ ph e, t = (s.begin ph).raise e ∧ e.RaisedBy i s

section
variable {i : Instr} {s t : State} {body : State → Except Stop State} {ph : Phase}

/-- An operation with an error in `STATUS` at its end raised it: `ERR` is clear while a body runs, and a body that
succeeds leaves it clear (R86). -/
theorem settle_raised {r : Except Stop State} (hnext : settle (s.begin ph) r = .next t) (herr : t.err ≠ .none)
    (hok : ∀ u, r = .ok u → u.err = .none) (hraise : ∀ e, r = .error (.raise e) → e.RaisedBy i s) :
    State.RaisedFrom i s t := by
  rcases settle_next hnext with ⟨u, hu, rfl⟩ | ⟨e, he, rfl⟩
  · exact absurd (hok u hu) herr
  · exact ⟨ph, e, rfl, hraise e he⟩

/-- A conversion ends with an error for want of an alphabet, or because its body raised one: a body that succeeds only
wrote `OUT` or `OP64` (R258). -/
theorem convert_raised (hnext : convert ph body s = .next t) (herr : t.err ≠ .none)
    (hi : i = .enc ∨ i = .dec ∨ i = .encu64 ∨ i = .decu64)
    (hok : ∀ u, body (s.begin ph) = .ok u → ∃ bytes, State.Wrote (s.begin ph) u bytes)
    (hraise : ∀ e, body (s.begin ph) = .error (.raise e) → e.RaisedBy i s) : State.RaisedFrom i s t := by
  cases hv : s.alphaValid with
  | false =>
    rw [convert_no_alphabet ph body hv] at hnext
    cases hnext
    exact ⟨ph, .noAlphabet, rfl, hi, hv⟩
  | true =>
    rw [convert_alphabet ph body hv] at hnext
    refine settle_raised hnext herr (fun u hu => ?_) hraise
    obtain ⟨bytes, hw⟩ := hok u hu
    exact hw.err

/-- A configuration operation ends with an error because its body raised one. -/
theorem configure_raised (hnext : configure body s = .next t) (herr : t.err ≠ .none) (hbody : InstallsAlphabet body)
    (hraise : ∀ e, body (s.begin .cfg) = .error (.raise e) → e.RaisedBy i s) : State.RaisedFrom i s t := by
  refine settle_raised hnext herr (fun u hu => ?_) hraise
  obtain ⟨table, c, rfl⟩ := hbody hu
  rfl

/-- What ends `DEC` or `DECU64` early, if it is an error at all, is an absent byte of the operand (R252, R258). -/
theorem CodecError.raisedBy_of_absent {e : CodecError} (hi : i = .dec ∨ i = .decu64)
    (h : (Stop.raise e = .noValue ∧ none ∈ (s.begin ph).operand) ∨
      ∃ c j, Stop.raise e = .raise (.invalidSymbol c j) ∧ some c ∈ (s.begin ph).operand ∧
        valueOf (s.begin ph).rev c = none) : e.RaisedBy i s := by
  obtain ⟨hno, -⟩ | ⟨c, j, hc, hmem, habsent⟩ := h
  · cases hno
  · cases hc
    exact ⟨hi, hmem, habsent⟩

/-- An operation that ends with an error raised one of its own, and took it from the state it began in (R250, R255,
R258). -/
theorem exec_raised (hnext : exec i s = .next t) (herr : t.err ≠ .none) : State.RaisedFrom i s t := by
  cases i with
  | enc =>
    refine convert_raised hnext herr (by simp) (fun _ hu => (encBody_ok hu).2) fun e he => ?_
    obtain ⟨off, len, rfl⟩ : ∃ off len, e = .invalidDigit off len := by simpa using encBody_error he
    rfl
  | dec =>
    exact convert_raised hnext herr (by simp) (fun _ hu => (decBody_ok hu).2)
      fun _ he => CodecError.raisedBy_of_absent (.inl rfl) (decBody_error he)
  | encu64 =>
    refine convert_raised hnext herr (by simp) (fun _ hu => (encu64Body_wrote hu).2) fun e he => ?_
    obtain ⟨u, -, hu, -, -⟩ := encu64Body_ok (s.begin .fixed)
    simp [hu] at he
  | decu64 =>
    exact convert_raised hnext herr (by simp) (fun _ hu => ⟨[], decu64Body_ok hu⟩)
      fun _ he => CodecError.raisedBy_of_absent (.inr rfl) (decu64Body_error he)
  | alphasel p =>
    refine configure_raised hnext herr (alphaselBody_installsAlphabet p) fun e he => ?_
    obtain ⟨rfl, hraise⟩ | ⟨table, -, hok⟩ := alphaselBody_cases p (s.begin .cfg)
    · obtain rfl : CodecError.unknownName = e := by simpa [hraise] using he
      rfl
    · simp [hok] at he
  | alphaload =>
    refine configure_raised hnext herr alphaloadBody_installsAlphabet fun e he => ?_
    obtain ⟨hno, -⟩ | hc | ⟨c, k, hc⟩ := alphaloadBody_error he
    · cases hno
    · cases hc
      rfl
    · cases hc
      rfl

end

/-- Settles O45: an operation that ends with an error raised one of its own, and the error fixes kind and detail. -/
theorem errorKindsPerOperation : Obligations.ErrorKindsPerOperation := by
  intro i s t hnext
  by_cases herr : t.err = .none
  · rw [herr]
    exact ⟨nofun, nofun, nofun⟩
  obtain ⟨ph, e, rfl, he⟩ := exec_raised hnext herr
  cases e with
  | invalidDigit off len => exact ⟨fun _ => he, nofun, nofun⟩
  | invalidSymbol b off => exact ⟨nofun, fun _ => he.1, nofun⟩
  | unknownName => exact ⟨nofun, nofun, fun _ => .inl ⟨he, rfl⟩⟩
  | wrongCount n => exact ⟨nofun, nofun, fun _ => .inr (.inl ⟨he, .inl rfl⟩)⟩
  | duplicate b off => exact ⟨nofun, nofun, fun _ => .inr (.inl ⟨he, .inr rfl⟩)⟩
  | noAlphabet => exact ⟨nofun, nofun, fun _ => .inr (.inr ⟨he.1, he.2, rfl⟩)⟩

/-- Settles O46: taking an error empties `OUT` and keeps all else of the state the operation began in. -/
theorem errorLeavesNoResult : Obligations.ErrorLeavesNoResult := by
  intro i s t hnext herr
  obtain ⟨ph, e, rfl, -⟩ := exec_raised hnext herr
  exact ⟨rfl, Memory.read_nil, State.raise_conversionKept s ph e⟩

/-! ### The leftmost absent symbol (R189, R252) -/

/-- `InvalidSymbol` is raised only of an operand that holds an absent byte (R252). -/
theorem CodecError.RaisedBy.exists_absent {e : CodecError} {i : Instr} {s : State} (h : e.RaisedBy i s)
    (hkind : e.kind = .invalidSymbol) : ∃ b, some b ∈ s.operand ∧ valueOf s.rev b = none := by
  cases e with
  | invalidSymbol b off => exact ⟨b, h.2⟩
  | _ => cases hkind

/-- The zero scan of `DEC` goes no further than a byte that is not the zero-symbol (R212). -/
theorem scanZeroSymbols_before {z b : Byte} (hb : b ≠ z) (d : List Byte) (rest : List (Option Byte)) :
    ∃ zc ≤ d.length, scanZeroSymbols z (d.map some ++ some b :: rest) = .ok zc := by
  induction d with
  | nil => exact ⟨0, le_rfl, by cases rest <;> simp [scanZeroSymbols, hb]⟩
  | cons c d ih =>
    obtain ⟨x, xs, hx⟩ : ∃ x xs, d.map some ++ some b :: rest = x :: xs := by cases d <;> simp
    obtain ⟨zc, hz, h⟩ := ih
    rw [hx] at h
    rw [List.map_cons, List.cons_append, hx, scanZeroSymbols]
    by_cases hc : c = z
    · exact ⟨zc + 1, by simpa using hz, by simp [hc, h]⟩
    · exact ⟨0, Nat.zero_le _, if_neg hc⟩

section
variable {s : State} {d : List Byte} {b : Byte} {rest : List (Option Byte)}

/-- The decoder's symbol loop raises at the first absent byte, whatever follows it (R189). -/
theorem DecLoop.run_absent {rev : Vector (Option (Fin 58)) 256} (hd : ∀ x ∈ d, (valueOf rev x).isSome = true)
    (hb : valueOf rev b = none) (i : Nat) (r : DecLoop) :
    DecLoop.run rev i r (d.map some ++ some b :: rest) = .error (.raise (.invalidSymbol b (i + d.length))) := by
  rw [DecLoop.run_symbols rev d hd, DecLoop.run, hb]

variable (ho : s.operand = d.map some ++ some b :: rest) (hd : ∀ x ∈ d, (valueOf s.rev x).isSome = true)
  (hb : valueOf s.rev b = none)
include ho hd hb

/-- Either path of `DEC` raises at the first absent byte of the operand (R189, R213). -/
theorem decDispatch_absent (hz : s.scratch.zc ≤ d.length) :
    decDispatch s = .error (.raise (.invalidSymbol b d.length)) := by
  have hrem : s.remainder = (d.drop s.scratch.zc).map some ++ some b :: rest := by
    rw [State.remainder, ho, List.drop_append_of_le_length (by simpa using hz), List.map_drop]
  have hdrop : ∀ x ∈ d.drop s.scratch.zc, (valueOf s.rev x).isSome = true :=
    fun x hx => hd x (List.mem_of_mem_drop hx)
  have hindex : s.scratch.zc + (d.drop s.scratch.zc).length = d.length := by
    rw [List.length_drop, Nat.add_sub_cancel' hz]
  unfold decDispatch
  split_ifs
  · rw [decFixed, hrem, fold58_absent _ _ hdrop hb, hindex]
  · rw [decLimbPath, hrem, DecLoop.run_absent hdrop hb, hindex]

/-- The body of `DEC` raises at the first absent byte: the zero scan stops before it, as the zero-symbol is a symbol
(R11, R189). -/
theorem decBody_absent (hok : AlphabetOk s.alpha s.rev) :
    decBody s = .error (.raise (.invalidSymbol b d.length)) := by
  have hlen : s.inLen ≠ 0 := by
    rw [← State.operand_length, ho]; simp
  have hzero : b ≠ s.zeroSymbol := by
    rintro rfl
    exact absurd (hok.zero.symm.trans hb) nofun
  obtain ⟨zc, hz, hscan⟩ := scanZeroSymbols_before hzero d rest
  rw [decBody, if_neg hlen, ho, hscan]
  exact decDispatch_absent ho hd hb hz

/-- The body of `DECU64` raises at the first absent byte (R133, R134). -/
theorem decu64Body_absent : decu64Body s = .error (.raise (.invalidSymbol b d.length)) := by
  rw [decu64Body, ho, fold58_absent _ _ hd hb, Nat.zero_add]

end

/-- Settles O27: both bodies raise at the first absent byte, and an operation raises `InvalidSymbol` only of one. -/
theorem leftmostAbsentSymbolIsReported : Obligations.LeftmostAbsentSymbolIsReported := by
  intro i s hi hv hok
  refine ⟨fun before b rest ho hd hb => ?_, fun t hnext herr => ?_⟩
  · rcases hi with rfl | rfl
    · exact convert_fails hv (decBody_absent (s := s.begin .lzscan) ho hd hb hok)
    · exact convert_fails hv (decu64Body_absent (s := s.begin .fixed) ho hd hb)
  · obtain ⟨ph, e, rfl, he⟩ := exec_raised hnext (by rw [herr]; decide)
    exact he.exists_absent herr

end Sys2Proof.Machine
end

section
/-! PROOFS. Reset as an access of the host (`70_reset_and_hazards.md`): a busy block does not refuse it, so it abandons
an operation that runs. -/

namespace Sys2Proof.Machine

/-- Reset is not among the accesses R60 forbids while busy, so it takes effect whatever runs (R280, U16). -/
theorem hostAccess_reset (s : State) : hostAccess .reset s = .next s.applyReset := by
  have hallowed : (s.busy && forbiddenWhileBusy .reset) = false := Bool.and_false s.busy
  simp only [hostAccess, hallowed, Bool.false_eq_true, if_false]

/-- Settles O8: the step is the reset access, whether or not an operation runs. -/
theorem resetAbandonsOperation : Obligations.ResetAbandonsOperation := by
  intro s rest hh
  rw [step_access hh nofun, hostAccess_reset, State.applyReset_eq]

end Sys2Proof.Machine
end
